-- ==== Sys2Proof/Word.lean ====
section
/-! DEFINITION. The word types of the engine (spec/00_scope.md R5, R7, R8). -/

namespace Sys2Proof

/-- One byte of memory, of a key or of a keystream block. -/
abbrev Byte := BitVec 8

/-- A host-interface register: 32 bits, bit 31 the most significant (R8). -/
abbrev Word := BitVec 32

/-- A byte address of the memory behind the master port; `AW` = 32 (R6), arithmetic modulo 2^32 (R73). -/
abbrev Addr := BitVec 32

/-- A 128-bit value (R7): byte 0 is the first in memory and the most significant. -/
abbrev Block := BitVec 128

/-- The key buffer of a context: `KEY_CAP` = 32 bytes (R5, R32), byte 0 the most significant. -/
abbrev KeyBuf := BitVec 256

end Sys2Proof
end

