-- ==== Sys2Proof/Config.lean ====
section
/-! DEFINITION. The fixed sizes of the engine (spec/00_scope.md R5), the open parameters the spec leaves to a
configuration (R6) and the free values of the model. An `opaque` constant has no body: nothing in Lean can prove a
value of it. -/

namespace Sys2Proof

/-- The three key-size variants of the engine (R1, R37). -/
inductive Variant where
  | aesIcm128
  | aesIcm192
  | aesIcm256
deriving DecidableEq, Repr

/-- The block cipher `E` a configuration of the engine is built with (R6: an OPEN configuration field). -/
inductive Cipher where
  /-- The external primitive, of which nothing is known (`Config.blockCipher`). -/
  | external
  /-- The test primitive `E_id` of spec/95_test_vectors.md section 0. -/
  | identity
  /-- The test primitive `E_xk` of spec/95_test_vectors.md section 0. -/
  | xorKey
deriving DecidableEq, Repr

/-- What the block-cipher primitive does with one transaction (R96, R180). -/
inductive PrimAnswer where
  /-- It answers `ok`. -/
  | ok
  /-- It answers `fail`. -/
  | fail
  /-- It never answers: the command is stuck (R180). -/
  | silent
deriving DecidableEq, Repr, Inhabited

/-- A known-answer tuple of a variant (R151): key+salt, IV, plaintext, expected ciphertext. -/
structure KnownAnswer where
  keySalt    : List Byte
  iv         : List Byte
  plaintext  : List Byte
  ciphertext : List Byte
deriving DecidableEq, Repr, Inhabited

/-- BLOCK of R5, in bytes. -/
def Config.blockBytes : Nat := 16

/-- SALT_LEN of R5, in bytes. -/
def Config.saltLen : Nat := 14

/-- KEY_CAP of R5, in bytes. -/
def Config.keyCap : Nat := 32

/-- Number of byte addresses of the master port's memory (R50, `AW` = 32 of R6). -/
def Config.addrSpace : Nat := 2 ^ 32

/-- The greatest length of one request of the master port, in bytes (R51). -/
def Config.maxRequest : Nat := 46

/-- The size in bytes of the register file (R50). -/
def Config.regFileBytes : Nat := 256

/-- NCTX of the machine `State.reset` describes. DESIGN CHOICE (log entry 1), unsafe for a statement about
`State.reset` alone: R6 leaves NCTX open (1 to 255). NCTX of a state is the length of its list of slots, so a
statement over all states holds for every NCTX. -/
def Config.resetNctx : Nat := 2

/-- The external block cipher: key bytes (16, 24 or 32) and input block to output block (R6, R93). A free function. -/
opaque Config.blockCipher : List Byte → Block → Block

/-- The answer of the primitive to the transaction drawn at a draw number (R96: a free draw per transaction). -/
opaque Config.primAnswer : Nat → PrimAnswer

/-- The free 32-bit values: UNSPECIFIED(32) of R9, R137, R196. -/
opaque Config.freeWord : Nat → Word

/-- The free bytes: the UNSPECIFIED destination bytes of R57 and R187. -/
opaque Config.freeByte : Nat → Byte

/-- `DESCR[v]` of R6 and R151: the description string of a variant; no rule reads it. -/
opaque Config.descr : Variant → String

/-- `KAT[v]` of R6 and R151: the known-answer tuple of a variant; no rule reads it. -/
opaque Config.kat : Variant → KnownAnswer

end Sys2Proof
end

