-- ==== Sys2Proof/Syntax.lean ====
section
/-! DEFINITION. The commands of the engine: one constructor per row of spec/opcode_table.json
(spec/30_encoding.md R70, R72). The engine's other operands are in its operand registers (R26). -/

namespace Sys2Proof

/-- The DIR field, bit 16 of a command word: 0 encrypt, 1 decrypt; read by no rule (R70). -/
inductive Dir where
  | encrypt
  | decrypt
deriving DecidableEq, Repr

/-- A command word, its two operand fields pulled out. `ctx` is the CTX field, a number 0 to 255 (R70); every row of
the table leaves CTX and DIR free (mask 0xFFFE00FF, R72), also where the command ignores them (R76). -/
inductive Instr where
  /-- OP 1, R101; CTX and DIR ignored. -/
  | allocate (ctx : Nat) (dir : Dir)
  /-- OP 2, R103; DIR ignored. -/
  | deallocate (ctx : Nat) (dir : Dir)
  /-- OP 3, R111; DIR ignored. -/
  | contextInit (ctx : Nat) (dir : Dir)
  /-- OP 4, R121; DIR accepted and ignored. -/
  | setIv (ctx : Nat) (dir : Dir)
  /-- OP 5, R135; DIR ignored. -/
  | encrypt (ctx : Nat) (dir : Dir)
  /-- OP 6, R136; DIR ignored. -/
  | decrypt (ctx : Nat) (dir : Dir)
  /-- OP 7, R150; CTX and DIR ignored. -/
  | setAad (ctx : Nat) (dir : Dir)
deriving DecidableEq, Repr

end Sys2Proof
end

