-- ==== Sys2Proof/Machine/State.lean ====
section
/-! DEFINITION. The state of the machine as plain data: the engine's host-interface registers and context slots
(spec/10_state.md), the block-cipher primitive's handles (spec/40_primitive_port.md), the memory behind the master port
(spec/20_memory.md), the platform's parameters (R6) and the inputs of the other agents (R11). -/

namespace Sys2Proof.Machine

/-- STATUS.CODE (R25): the result of the last completed command. -/
inductive Code where
  | ok
  | fail
  | badParam
  | allocFail
  | initFail
  | cipherFail
  | bufferSmall
deriving DecidableEq, Repr

/-- The lifecycle position of a context slot (R31). -/
inductive Phase where
  | free
  | allocated
  | inited
  | ready
deriving DecidableEq, Repr

/-- One context slot (R30 to R36). -/
structure Slot where
  /-- R31. -/
  phase   : Phase
  /-- R32: 16, 24 or 32 bytes; 0 in a FREE slot. -/
  keySize : Nat
  /-- R32: 32 bytes; the first `keySize` are the raw cipher key. Not readable by the host. -/
  key     : KeyBuf
  /-- R33. -/
  offset  : Block
  /-- R34: the input of the next block request. -/
  counter : Block
  /-- R35: the slot owns a primitive handle. -/
  prim    : Bool
  /-- R36: the last keystream block. Not readable by the host. -/
  ksbuf   : Block
  /-- R36: how many bytes of `ksbuf` are not yet used, 0 to 15. -/
  kavail  : BitVec 4
deriving DecidableEq, Repr

/-- The all-zero FREE slot of reset and DEALLOCATE (R40, R103, R185). -/
def Slot.zero : Slot :=
  { phase := .free, keySize := 0, key := 0#256, offset := 0#128, counter := 0#128, prim := false,
    ksbuf := 0#128, kavail := 0#4 }

/-- The host-interface registers that hold a value (R23, R26, R27, R29). CMD keeps none (R24), STATUS is `State.busy`
and `State.code`; CAPS, DESCv_* and the context window are computed when read. -/
structure Regs where
  /-- 0x08, ALLOCATE: total key length in bytes. -/
  klen   : Word
  /-- 0x0C, ALLOCATE: tag length; no rule reads it (R76). -/
  tlen   : Word
  /-- 0x10, CONTEXT_INIT: address of the key+salt bytes. -/
  kptr   : Word
  /-- 0x14, SET_IV: address of the IV. -/
  ivptr  : Word
  /-- 0x18, ENCRYPT/DECRYPT: source address. -/
  src    : Word
  /-- 0x1C, ENCRYPT/DECRYPT: source length. -/
  slen   : Word
  /-- 0x20, ENCRYPT/DECRYPT: destination address. -/
  dst    : Word
  /-- 0x24, ENCRYPT/DECRYPT: in, capacity; out, bytes written. -/
  dlen   : Word
  /-- 0x28, ALLOCATE: the new handle or 0; bits 31:8 read 0 (R27). -/
  handle : BitVec 8
  /-- 0x30: the handle the window shows; bits 31:8 read 0 and ignore writes (R29). -/
  ctxsel : BitVec 8
deriving DecidableEq, Repr

/-- Every register 0 (R185). -/
def Regs.zero : Regs :=
  { klen := 0#32, tlen := 0#32, kptr := 0#32, ivptr := 0#32, src := 0#32, slen := 0#32, dst := 0#32,
    dlen := 0#32, handle := 0#8, ctxsel := 0#8 }

/-- What the block-cipher primitive holds for one handle (R91 to R95). -/
inductive PrimHandle where
  /-- No handle (before PrimCreate, after PrimDispose, after reset). -/
  | absent
  /-- Created and not programmed (R91). -/
  | created
  /-- Programmed with these key bytes (R92). -/
  | programmed (key : List Byte)
deriving DecidableEq, Repr

/-- The direction the primitive is programmed in (R92): the engine only ever passes `enc`. -/
inductive CipherDir where
  | enc
  | dec
deriving DecidableEq, Repr

/-- A transaction on the primitive port, with its operands (R91 to R94). -/
inductive PrimTxn where
  | create (h : Nat)
  | program (h : Nat) (key : List Byte) (n : Nat) (counter : Block) (dir : CipherDir)
  | block (h : Nat) (counter : Block)
  | dispose (h : Nat)
deriving DecidableEq, Repr

/-- The memory behind the master port (R50 (b)), in canonical form: addresses strictly rising, no listed byte 0
(log entry 2: an unlisted byte reads 0). -/
abbrev Memory := List Host.Cell

/-- A direction of a master-port request (R63). -/
inductive Access where
  | read
  | write
deriving DecidableEq, Repr

/-- A set of admitted requests (R63): every request whose address is one of the `span` addresses from `base` on, modulo
2^32, whose length is `minLen` to `maxLen` bytes and whose direction is allowed. -/
structure Window where
  base   : Addr
  span   : Nat
  minLen : Nat
  maxLen : Nat
  reads  : Bool
  writes : Bool
deriving DecidableEq, Repr

/-- The `len` bytes from `base` on, addresses modulo 2^32 (R51). -/
structure Range where
  base : Addr
  len  : Nat
deriving DecidableEq, Repr

/-- The ranges commands read and the ranges they write (R56). -/
structure Buffers where
  reads  : List Range
  writes : List Range
deriving DecidableEq, Repr

/-- No range. -/
def Buffers.none : Buffers := { reads := [], writes := [] }

/-- What the platform and the configuration fix (R6, R50, R63). No step changes it. -/
structure Platform where
  /-- The block cipher `E` (R6). -/
  cipher  : Cipher
  /-- `MemAdmit` (R63), the union of these sets of requests. -/
  windows : List Window
  /-- Where the register file is visible in the memory space, if anywhere (R50). -/
  regBase : Option Addr
deriving DecidableEq, Repr

/-- The width of a host access to the register file (R42). -/
inductive Width where
  | byte
  | half
  | word
deriving DecidableEq, Repr

/-- One access of the host (R11 (a)). -/
inductive HostAccess where
  /-- A write of the register file at a byte offset (R23). -/
  | regWrite (off : BitVec 8) (width : Width) (value : Word)
  /-- A read of the register file at a byte offset; the value comes back in `State.rdata`. -/
  | regRead (off : BitVec 8) (width : Width)
  /-- A write of a byte of memory. -/
  | memWrite (addr : Addr) (value : Byte)
  /-- A read of a byte of memory; it comes back in `State.rdata`. -/
  | memRead (addr : Addr)
deriving DecidableEq, Repr

/-- One event of the schedule: which agent moves next, and how (R11). -/
inductive Event where
  /-- The engine executes the launched command. -/
  | engine
  /-- The host makes one access. -/
  | host (access : HostAccess)
  /-- The reset input is asserted (R185). -/
  | reset
deriving DecidableEq, Repr

/-- Why a step stops with a fault. -/
inductive Fault where
  /-- Raised by ENCRYPT and DECRYPT when a block is requested of a handle the primitive does not hold programmed: the
  operand contract of PrimBlock (R93) is broken. Safe, and met by no state that satisfies `State.Inv`. -/
  | blockOfUnprogrammedHandle
deriving DecidableEq, Repr

/-- Why a step has no meaning. -/
inductive Refusal where
  /-- Raised by no arm of exec: every instruction has its meaning. Safe. -/
  | notModelled (mnemonic : String)
  /-- Raised by CONTEXT_INIT, SET_IV, ENCRYPT, DECRYPT and by host memory accesses when bytes of a range they touch
  belong to the register file (R50). Safe. -/
  | registerFileOverlap
  /-- Raised by a host access to the register file that is not an aligned 32-bit one (R42). Safe. -/
  | narrowAccess
  /-- Raised by a host memory access that touches a buffer of a command launched since the host last read BUSY = 0 in
  STATUS (R60, R197). Safe. -/
  | bufferHazard
deriving DecidableEq, Repr

/-- The state of the machine. -/
structure State where
  /-- The host-interface registers (R23). -/
  regs    : Regs
  /-- STATUS.BUSY (R25). -/
  busy    : Bool
  /-- STATUS.CODE (R25). -/
  code    : Code
  /-- The command word latched at launch (R61). -/
  latch   : Word
  /-- The buffers of the commands launched since the host last read BUSY = 0 in STATUS, the ordering points of R58 and
  R197 (log entry 15). -/
  held    : Buffers
  /-- The running command is stuck: a request or transaction of it gets no answer (R63, R180). -/
  hung    : Bool
  /-- The context slots, slot 1 first; NCTX is the length of this list (R20, R30). -/
  slots   : List Slot
  /-- The primitive's handles, handle 1 first (R90, R95). -/
  prims   : List PrimHandle
  /-- The memory behind the master port (R50). -/
  mem     : Memory
  /-- The platform's and the configuration's parameters (R6). -/
  plat    : Platform
  /-- The transactions issued on the primitive port, oldest first (R97; the model's own record, log entry 5). -/
  port    : List PrimTxn
  /-- The data of the host's last read (the model's own, log entry 6). -/
  rdata   : Word
  /-- The schedule of events to come (the model's own, log entry 6). -/
  sched   : List Event
  /-- The primitive's answers to come; when none is left the answer is a free draw (the model's own, log entry 4). -/
  answers : List PrimAnswer
  /-- How many free values have been drawn (the model's own, log entry 3). -/
  draws   : Nat
deriving DecidableEq, Repr

/-- NCTX (R6), the number of context slots. -/
def State.nctx (s : State) : Nat := s.slots.length

/-- Every request the engine can make (R51). -/
def Window.all : Window :=
  { base := 0#32, span := Config.addrSpace, minLen := 0, maxLen := Config.maxRequest, reads := true, writes := true }

/-- The platform of `State.reset`: `E` the external primitive, every request admitted, the register file not visible in
the memory space. DESIGN CHOICE (log entry 7). -/
def Platform.admitAll : Platform := { cipher := .external, windows := [Window.all], regBase := none }

/-- The state right after reset (R40, R185) of an engine with `n` context slots: idle, CODE Ok, every register and
every field of every slot 0, no primitive handle (PrimReset, R186), nothing in memory. -/
def State.resetOf (n : Nat) (p : Platform) : State :=
  { regs := Regs.zero, busy := false, code := .ok, latch := 0#32, held := Buffers.none, hung := false,
    slots := List.replicate n Slot.zero, prims := List.replicate n .absent, mem := [], plat := p,
    port := [], rdata := 0#32, sched := [], answers := [], draws := 0 }

/-- The machine right after reset (R185). -/
def State.reset : State := State.resetOf Config.resetNctx Platform.admitAll

end Sys2Proof.Machine
end

