-- ==== Sys2Proof/Machine/Operands.lean ====
section
/-! DEFINITION. The operand forms of the commands: bytes of wide values (spec/00_scope.md R7, spec/20_memory.md R53),
buffer addresses and ranges (R51, R57, R73), variants (R37, R100), the key and salt layout (R110), the counter
increment (R130), the block cipher (R6) and the register map (R23). -/

namespace Sys2Proof.Machine

/-- Byte `j` of a value, byte 0 the most significant (R7). -/
def byteAt {w : Nat} (v : BitVec w) (j : Nat) : Byte := v.extractLsb' (w - 8 * (j + 1)) 8

/-- The bytes of a value, the most significant first (R7). -/
def bytesOf {w : Nat} (v : BitVec w) : List Byte := (List.range (w / 8)).map (byteAt v)

/-- `int(v)` of R7 for a byte sequence: the first byte is the most significant. -/
def natOfBytes (l : List Byte) : Nat := l.foldl (fun acc b => acc * 256 + b.toNat) 0

/-- The value of width `w` whose bytes are `l` (R7). -/
def ofBytes (w : Nat) (l : List Byte) : BitVec w := BitVec.ofNat w (natOfBytes l)

/-- The address of byte `i` of a buffer: `(base + i) mod 2^32` (R51, R73). -/
def byteAddr (base : Addr) (i : Nat) : Addr := base + BitVec.ofNat 32 i

/-- The address belongs to the range (R57: a range is the set of addresses it covers). -/
def Range.covers (r : Range) (a : Addr) : Bool := decide ((a - r.base).toNat < r.len)

/-- Two ranges have an address in common; an empty range overlaps nothing (R57). -/
def Range.overlaps (r q : Range) : Bool :=
  decide (0 < r.len) && decide (0 < q.len) && (r.covers q.base || q.covers r.base)

/-- Source and destination overlap without being identical (R57). -/
def partialOverlap (src dst : Addr) (n : Nat) : Bool :=
  decide (src ≠ dst) && Range.overlaps ⟨src, n⟩ ⟨dst, n⟩

/-- `key_size` of a variant in bytes (R37, R100). -/
def variantKeySize : Variant → Nat
  | .aesIcm128 => 16
  | .aesIcm192 => 24
  | .aesIcm256 => 32

/-- DESCv_KEYLEN of a variant: key plus salt in bytes (R37). -/
def variantKeyLen : Variant → Nat
  | .aesIcm128 => 30
  | .aesIcm192 => 38
  | .aesIcm256 => 46

/-- DESCv_ALGID of a variant (R37). -/
def variantAlgId : Variant → Nat
  | .aesIcm128 => 1
  | .aesIcm192 => 2
  | .aesIcm256 => 3

/-- `variant_of(klen)` (R100). -/
def variantOf (klen : Word) : Option Variant :=
  if klen.toNat = 30 then some .aesIcm128
  else if klen.toNat = 38 then some .aesIcm192
  else if klen.toNat = 46 then some .aesIcm256
  else none

/-- `salt ‖ 0x00 0x00`, the value steps 2 and 3 of CONTEXT_INIT give `offset` and `counter` (R111). -/
def saltBlock (salt : List Byte) : Block := ofBytes 128 (salt ++ [0#8, 0#8])

/-- `key[0..ks-1] <- bytes`, the other bytes of the buffer as they were (R111 step 5). -/
def storeKey (old : KeyBuf) (bytes : List Byte) : KeyBuf :=
  ofBytes 256 (bytes ++ (bytesOf old).drop bytes.length)

/-- The raw cipher key of a slot: `key[0..key_size-1]` (R32, R92). -/
def Slot.keyBytes (c : Slot) : List Byte := (bytesOf c.key).take c.keySize

/-- `inc16` (R130): the field in bytes 14 and 15 plus 1 modulo 2^16; bytes 0 to 13 unchanged. -/
def inc16 (c : Block) : Block := c.extractLsb' 16 112 ++ (c.extractLsb' 0 16 + 1#16)

/-- `m` applications of `inc16` (R130). -/
def inc16Iter : Nat → Block → Block
  | 0, c => c
  | m + 1, c => inc16Iter m (inc16 c)

/-- `E_xk(k, b)[j] = b[j] XOR k[j]` (spec/95_test_vectors.md section 0). -/
def xorKeyCipher (k : List Byte) (b : Block) : Block :=
  b ^^^ ofBytes 128 ((k ++ List.replicate 16 0#8).take 16)

/-- The block cipher `E(k, b)` of a configuration (R6, R93). -/
def cipherFn : Cipher → List Byte → Block → Block
  | .external, k, b => Config.blockCipher k b
  | .identity, _, b => b
  | .xorKey, k, b => xorKeyCipher k b

/-- Keystream block `B_j(k, c) = E(k, inc16^j(c))` (R131). -/
def keystreamBlock (e : Cipher) (k : List Byte) (c : Block) (j : Nat) : Block :=
  cipherFn e k (inc16Iter j c)

/-- The registers of the register map (R23). -/
inductive Reg where
  | cmd
  | status
  | klen
  | tlen
  | kptr
  | ivptr
  | src
  | slen
  | dst
  | dlen
  | handle
  | caps
  | ctxsel
  | descAlgId (v : Variant)
  | descKeyLen (v : Variant)
  | cxInfo
  | cxOffset (k : Nat)
  | cxCounter (k : Nat)
deriving DecidableEq, Repr

/-- The register at a byte offset (R23); `none` at a reserved offset (R41). -/
def regAt (off : Nat) : Option Reg :=
  match off with
  | 0x00 => some .cmd
  | 0x04 => some .status
  | 0x08 => some .klen
  | 0x0C => some .tlen
  | 0x10 => some .kptr
  | 0x14 => some .ivptr
  | 0x18 => some .src
  | 0x1C => some .slen
  | 0x20 => some .dst
  | 0x24 => some .dlen
  | 0x28 => some .handle
  | 0x2C => some .caps
  | 0x30 => some .ctxsel
  | 0x40 => some (.descAlgId .aesIcm128)
  | 0x44 => some (.descKeyLen .aesIcm128)
  | 0x48 => some (.descAlgId .aesIcm192)
  | 0x4C => some (.descKeyLen .aesIcm192)
  | 0x50 => some (.descAlgId .aesIcm256)
  | 0x54 => some (.descKeyLen .aesIcm256)
  | 0x80 => some .cxInfo
  | 0x90 => some (.cxOffset 0)
  | 0x94 => some (.cxOffset 1)
  | 0x98 => some (.cxOffset 2)
  | 0x9C => some (.cxOffset 3)
  | 0xA0 => some (.cxCounter 0)
  | 0xA4 => some (.cxCounter 1)
  | 0xA8 => some (.cxCounter 2)
  | 0xAC => some (.cxCounter 3)
  | _ => none

/-- An access is an aligned 32-bit one (R42). -/
def alignedWord (off : BitVec 8) (width : Width) : Bool := decide (width = .word) && decide (off.toNat % 4 = 0)

end Sys2Proof.Machine
end

