-- ==== Sys2Proof/Machine/Flags.lean ====
section
/-! DEFINITION. The status word, the only flag-like state of the engine (spec/10_state.md R25), and the other words the
register file computes when read: CAPS (R28) and the context window (R29). -/

namespace Sys2Proof.Machine

/-- The number of a result code (R25, R161 to R167). -/
def Code.num : Code → Nat
  | .ok => 0
  | .fail => 1
  | .badParam => 2
  | .allocFail => 3
  | .initFail => 4
  | .cipherFail => 5
  | .bufferSmall => 6

/-- The number of a phase (R31). -/
def Phase.num : Phase → Nat
  | .free => 0
  | .allocated => 1
  | .inited => 2
  | .ready => 3

/-- STATUS (R25): BUSY in bit 0, CODE in bits 15:8, all else 0. -/
def statusWord (busy : Bool) (code : Code) : Word := BitVec.ofNat 32 (busy.toNat + code.num * 2 ^ 8)

/-- CAPS (R28): NCTX in bits 7:0, 0b111 in bits 10:8. -/
def capsWord (nctx : Nat) : Word := BitVec.ofNat 32 (nctx % 2 ^ 8 + 7 * 2 ^ 8)

/-- CX_INFO of a slot (R29). -/
def cxInfoWord (c : Slot) : Word :=
  BitVec.ofNat 32 (c.keySize % 2 ^ 6 + c.phase.num * 2 ^ 8 + c.prim.toNat * 2 ^ 12 + c.kavail.toNat * 2 ^ 16)

/-- Word `k` of a 128-bit value in the window, byte `4k` in bits 31:24 (R29). -/
def windowWord (v : Block) (k : Nat) : Word :=
  BitVec.ofNat 32
    ((byteAt v (4 * k)).toNat * 2 ^ 24 + (byteAt v (4 * k + 1)).toNat * 2 ^ 16 +
      (byteAt v (4 * k + 2)).toNat * 2 ^ 8 + (byteAt v (4 * k + 3)).toNat)

end Sys2Proof.Machine
end

