-- ==== Sys2Proof/Machine/Ops.lean ====
section
/-! DEFINITION. The shared operations over the state: memory and its admission (spec/20_memory.md R51, R52, R63), slots
and handles (R30, R102), completion of a command with a code, which is how the engine takes an exception
(spec/60_exceptions.md R170), a stuck command (R180), free values (R9), and the four transactions of the primitive port
(spec/40_primitive_port.md R91 to R94). -/

namespace Sys2Proof.Machine

/-- The byte at an address; an unlisted address reads 0 (log entry 2). -/
def Memory.read : Memory → Nat → Byte
  | [], _ => 0#8
  | (k, v) :: rest, a => if k = a then v else Memory.read rest a

/-- Store a byte, keeping the canonical form: a byte 0 is not listed. -/
def Memory.write : Memory → Nat → Byte → Memory
  | [], a, b => if b = 0#8 then [] else [(a, b)]
  | (k, v) :: rest, a, b =>
    if k < a then (k, v) :: Memory.write rest a b
    else if k = a then (if b = 0#8 then rest else (a, b) :: rest)
    else if b = 0#8 then (k, v) :: rest
    else (a, b) :: (k, v) :: rest

/-- The canonical form of a memory whose addresses start at `lo` or above. -/
def Memory.wfFrom : Nat → Memory → Bool
  | _, [] => true
  | lo, (k, v) :: rest =>
    decide (lo ≤ k) && decide (k < Config.addrSpace) && decide (v ≠ 0#8) && Memory.wfFrom (k + 1) rest

/-- The canonical form: addresses of R50 strictly rising, no listed byte 0. -/
def Memory.wf (m : Memory) : Bool := Memory.wfFrom 0 m

/-- The request of `n` bytes at `a` is one of the set (R63). -/
def Window.admits (w : Window) (k : Access) (a : Addr) (n : Nat) : Bool :=
  decide ((a - w.base).toNat < w.span) && decide (w.minLen ≤ n) && decide (n ≤ w.maxLen) &&
    match k with
    | .read => w.reads
    | .write => w.writes

/-- `MemAdmit` (R63): the platform admits the request of `n` bytes at `a`; no request is made for `n = 0` (R51, R52). -/
def State.admits (s : State) (k : Access) (a : Addr) (n : Nat) : Bool :=
  decide (n = 0) || s.plat.windows.any fun w => w.admits k a n

/-- The platform admits each of the `n` one-byte requests of a range, the requests of ENCRYPT and DECRYPT (R135). -/
def State.admitsBytes (s : State) (k : Access) (base : Addr) (n : Nat) : Bool :=
  (List.range n).all fun i => s.admits k (byteAddr base i) 1

/-- The byte the memory holds at an address. -/
def State.byte (s : State) (a : Addr) : Byte := Memory.read s.mem a.toNat

/-- The `n` bytes from `base` on, in ascending address order modulo 2^32 (R51). -/
def State.bytes (s : State) (base : Addr) (n : Nat) : List Byte :=
  (List.range n).map fun i => s.byte (byteAddr base i)

/-- `MemRead(base, n)` (R51): `none` when the platform does not admit the request (R63). -/
def State.memRead (s : State) (base : Addr) (n : Nat) : Option (List Byte) :=
  if s.admits .read base n then some (s.bytes base n) else none

/-- The memory with one byte stored. -/
def State.storeByte (s : State) (a : Addr) (b : Byte) : State :=
  { s with mem := Memory.write s.mem a.toNat b }

/-- `MemWrite(a, 1, b)` (R52): `none` when the platform does not admit the request (R63). -/
def State.memWrite1 (s : State) (a : Addr) (b : Byte) : Option State :=
  if s.admits .write a 1 then some (s.storeByte a b) else none

/-- The register file, where the platform shows it in the memory space (R50), overlaps the range. -/
def State.hitsRegFile (s : State) (r : Range) : Bool :=
  match s.plat.regBase with
  | none => false
  | some b => r.overlaps ⟨b, Config.regFileBytes⟩

/-- Slot `h`, 1 to NCTX; a number that names no slot (R30) reads as a FREE one. -/
def State.slot (s : State) (h : Nat) : Slot :=
  match h with
  | 0 => Slot.zero
  | k + 1 => s.slots.getD k Slot.zero

/-- Write slot `h`; a number that names no slot writes nothing. -/
def State.setSlot (s : State) (h : Nat) (c : Slot) : State :=
  match h with
  | 0 => s
  | k + 1 => { s with slots := s.slots.set k c }

/-- What the primitive holds for handle `h`. -/
def State.primOf (s : State) (h : Nat) : PrimHandle :=
  match h with
  | 0 => .absent
  | k + 1 => s.prims.getD k .absent

/-- The primitive's own update of handle `h`. -/
def State.setPrim (s : State) (h : Nat) (p : PrimHandle) : State :=
  match h with
  | 0 => s
  | k + 1 => { s with prims := s.prims.set k p }

/-- The negation of the test of `CheckCtx(h)` (R102): the handle names a slot that is not FREE. -/
def State.ctxOk (s : State) (h : Nat) : Bool :=
  decide (h ≠ 0) && decide (h ≤ s.nctx) && decide ((s.slot h).phase ≠ .free)

/-- The handle of the least FREE slot (R101). -/
def State.leastFree (s : State) : Option Nat :=
  (s.slots.findIdx? fun c => decide (c.phase = .free)).map (· + 1)

/-- Write HANDLE (R27). -/
def State.setHandle (s : State) (h : Nat) : State :=
  { s with regs := { s.regs with handle := BitVec.ofNat 8 h } }

/-- The engine's write of DLEN (R26). -/
def State.setDlen (s : State) (v : Word) : State := { s with regs := { s.regs with dlen := v } }

/-- Completion of a command, `raise Code` and `done Ok` alike (R170): CODE and BUSY change together. It is the engine's
whole exception mechanism: no vector, no saved state, nothing to return from (R170, R173). -/
def State.complete (s : State) (c : Code) : State := { s with code := c, busy := false, hung := false }

/-- The command gets no further step: BUSY stays 1 and CODE keeps its value (R63, R180). -/
def State.hang (s : State) : State := { s with busy := true, hung := true }

/-- A command word that is illegal: BadParam and no other effect (R75). -/
def State.illegalWord (s : State) : State := s.complete .badParam

/-- UNSPECIFIED(32): the next free word (R9). -/
def State.freeWord (s : State) : Word := Config.freeWord s.draws

/-- Count one free value as drawn. -/
def State.drawn (s : State) : State := { s with draws := s.draws + 1 }

/-- The byte at an address becomes the next free value (R57, R187), whatever was written there or admitted. -/
def State.storeFree (s : State) (a : Addr) : State := (s.storeByte a (Config.freeByte s.draws)).drawn

/-- The bytes `i` to `i + n - 1` of a buffer become free values (R57, R187). -/
def State.storeFreeRange (base : Addr) : Nat → Nat → State → State
  | 0, _, s => s
  | n + 1, i, s => State.storeFreeRange base n (i + 1) (s.storeFree (byteAddr base i))

/-- Record a transaction issued on the primitive port (R97). -/
def State.issue (s : State) (t : PrimTxn) : State := { s with port := s.port ++ [t] }

/-- The primitive's answer to the transaction just issued (R96): the next of the answers to come, a free draw when
none is listed. -/
def State.answer (s : State) : PrimAnswer :=
  match s.answers with
  | a :: _ => a
  | [] => Config.primAnswer s.draws

/-- The state once that answer is used up. -/
def State.answered (s : State) : State :=
  match s.answers with
  | _ :: rest => { s with answers := rest }
  | [] => s.drawn

/-- What the engine gets back from a transaction. -/
inductive Reply (α : Type) where
  | ok (value : α) (s : State)
  | fail (s : State)
  | silent (s : State)
deriving Repr

/-- `PrimCreate(h)` (R91). -/
def State.primCreate (s : State) (h : Nat) : Reply Unit :=
  let t := s.issue (.create h)
  match t.answer with
  | .ok => .ok () (t.answered.setPrim h .created)
  | .fail => .fail t.answered
  | .silent => .silent t.answered

/-- `PrimProgram(h, k, n, c, ENC)` (R92). -/
def State.primProgram (s : State) (h : Nat) (key : List Byte) (n : Nat) (c : Block) : Reply Unit :=
  let t := s.issue (.program h key n c .enc)
  match t.answer with
  | .ok => .ok () (t.answered.setPrim h (.programmed key))
  | .fail => .fail t.answered
  | .silent => .silent t.answered

/-- `PrimBlock(h, c)` (R93): `E(k, c)` with `k` the key last programmed into `h`; `none` when the primitive does not
hold `h` programmed, which the transaction's operand contract excludes. -/
def State.primBlock (s : State) (h : Nat) (c : Block) : Option (Reply Block) :=
  match s.primOf h with
  | .programmed key =>
    let t := s.issue (.block h c)
    match t.answer with
    | .ok => some (.ok (cipherFn s.plat.cipher key c) t.answered)
    | .fail => some (.fail t.answered)
    | .silent => some (.silent t.answered)
  | .created => none
  | .absent => none

/-- `PrimDispose(h)` (R94): no answer is used. -/
def State.primDispose (s : State) (h : Nat) : State := (s.issue (.dispose h)).setPrim h .absent

end Sys2Proof.Machine
end

