-- ==== Sys2Proof/Machine/ContextInit.lean ====
section
/-! DEFINITION. CONTEXT_INIT: key storage and offset derivation (spec/42_context_init.md). -/

namespace Sys2Proof.Machine

/-- Step 1 (R111): create the primitive handle if the slot owns none. -/
def State.createIfAbsent (s : State) (h : Nat) : Reply Unit := if (s.slot h).prim then .ok () s else s.primCreate h

/-- The key and salt bytes CONTEXT_INIT reads (R56, R110). -/
def State.keySaltRange (s : State) (ks : Nat) : Range := ⟨s.regs.kptr, ks + Config.saltLen⟩

/-- Steps 4 and 5 and the completion (R111, R112), on a slot whose `offset` and `counter` hold the salt. -/
def contextInitKey (h : Nat) (s : State) : Host.Outcome State Fault Refusal :=
  let c := s.slot h
  if c.keySize ≠ 16 ∧ c.keySize ≠ 24 ∧ c.keySize ≠ 32 then .next (s.complete .badParam)
  else if Config.keyCap < c.keySize then .next (s.complete .badParam)
  else
    match s.memRead s.regs.kptr c.keySize with
    | none => .next s.hang
    | some kb =>
      .next
        ((s.setSlot h
          { c with key := storeKey c.key kb, ksbuf := 0#128, kavail := 0#4, phase := .inited }).complete .ok)

/-- Steps 2 to 5 (R111), once the primitive handle exists. -/
def contextInitLoad (h : Nat) (s : State) : Host.Outcome State Fault Refusal :=
  let c := s.slot h
  let s := s.setSlot h { c with prim := true, counter := 0#128, offset := 0#128 }
  match s.memRead (byteAddr s.regs.kptr c.keySize) Config.saltLen with
  | none => .next s.hang
  | some salt =>
    contextInitKey h
      (s.setSlot h { c with prim := true, counter := saltBlock salt, offset := saltBlock salt })

/-- CONTEXT_INIT (R111). The key and salt bytes must not lie in the register file (R50). -/
def execContextInit (h : Nat) (s : State) : Host.Outcome State Fault Refusal :=
  if s.ctxOk h then
    match s.createIfAbsent h with
    | .fail s => .next (s.complete .initFail)
    | .silent s => .next s.hang
    | .ok _ t =>
      if t.hitsRegFile (t.keySaltRange (t.slot h).keySize) then .refused .registerFileOverlap
      else contextInitLoad h t
  else .next (s.complete .badParam)

end Sys2Proof.Machine
end

