-- ==== Sys2Proof/Machine/Keystream.lean ====
section
/-! DEFINITION. The keystream buffer, ENCRYPT and DECRYPT (spec/44_keystream.md). -/

namespace Sys2Proof.Machine

/-- The slot after one residue byte is used (R133): `kavail` counts down. -/
def Slot.useResidue (c : Slot) : Slot := { c with kavail := c.kavail - 1#4 }

/-- The next unused byte of the residue, `ksbuf[16 - kavail]` (R36, R133). -/
def Slot.residueByte (c : Slot) : Byte := byteAt c.ksbuf (16 - c.kavail.toNat)

/-- The slot after a new block arrives and its first byte is used (R133): the counter is incremented at once. -/
def Slot.takeBlock (c : Slot) (b : Block) : Slot :=
  { c with ksbuf := b, counter := inc16 c.counter, kavail := 15#4 }

/-- `NextKs(h)` (R133): the next keystream byte, a block being requested only when none is left;
`none` when the block request breaks the contract of R93. -/
def nextKs (h : Nat) (s : State) : Option (Reply Byte) :=
  let c := s.slot h
  if c.kavail = 0#4 then
    match s.primBlock h c.counter with
    | some (.ok b s) => some (.ok (byteAt b 0) (s.setSlot h (c.takeBlock b)))
    | some (.fail s) => some (.fail s)
    | some (.silent s) => some (.silent s)
    | none => none
  else some (.ok c.residueByte (s.setSlot h c.useResidue))

/-- How the loop of R135 ends: all bytes done, a failed block request, a stuck request, a
block request that breaks the contract of R93. -/
inductive LoopEnd where
  | done (s : State)
  | failed (s : State)
  | stuck (s : State)
  | broken
deriving Repr

/-- The body of the loop after its keystream byte `k` (R135): read the source byte, write the destination byte. -/
def xorByte (src dst : Addr) (k : Byte) (s : State) : Option State :=
  match s.memRead src 1 with
  | none => none
  | some _ => s.memWrite1 dst (s.byte src ^^^ k)

/-- The loop of R135 over the bytes `i` to `i + n - 1` of the buffers. -/
def xorLoop (h : Nat) (src dst : Addr) : Nat → Nat → State → LoopEnd
  | 0, _, s => .done s
  | n + 1, i, s =>
    match nextKs h s with
    | some (.fail s) => .failed s
    | some (.silent s) => .stuck s
    | none => .broken
    | some (.ok k t) =>
      match xorByte (byteAddr src i) (byteAddr dst i) k t with
      | none => .stuck t
      | some u => xorLoop h src dst n (i + 1) u

/-- R57: when source and destination overlap and are not identical, the bytes of the destination range are
UNSPECIFIED after the command: free values, whatever the loop left there (log entry 9). -/
def State.settleOverlap (s : State) (src dst : Addr) (n : Nat) : State :=
  if partialOverlap src dst n then State.storeFreeRange dst n 0 s else s

/-- R137: DLEN UNSPECIFIED, the residue cleared, phase INITED, CipherFail. -/
def cipherFailMidStream (h : Nat) (s : State) : State :=
  let t := (s.setDlen s.freeWord).drawn
  (t.setSlot h { t.slot h with ksbuf := 0#128, kavail := 0#4, phase := .inited }).complete .cipherFail

/-- The transform of R135 on a READY context: the loop, then its completion. -/
def transform (h : Nat) (s : State) : Host.Outcome State Fault Refusal :=
  let n := s.regs.slen.toNat
  match xorLoop h s.regs.src s.regs.dst n 0 s with
  | .done t => .next (((t.settleOverlap s.regs.src s.regs.dst n).setDlen s.regs.slen).complete .ok)
  | .failed t => .next (cipherFailMidStream h (t.settleOverlap s.regs.src s.regs.dst n))
  | .stuck t => .next (t.settleOverlap s.regs.src s.regs.dst n).hang
  | .broken => .fault .blockOfUnprogrammedHandle

/-- The source bytes of ENCRYPT and DECRYPT (R56). -/
def State.srcRange (s : State) : Range := ⟨s.regs.src, s.regs.slen.toNat⟩

/-- The destination bytes of ENCRYPT and DECRYPT (R56). -/
def State.dstRange (s : State) : Range := ⟨s.regs.dst, s.regs.slen.toNat⟩

/-- The steps ENCRYPT and DECRYPT share (R135, R136): the checks in their order (R171 item 6), then the transform. The
buffers must not lie in the register file (R50). -/
def crypt (h : Nat) (s : State) : Host.Outcome State Fault Refusal :=
  if s.ctxOk h then
    if s.regs.dlen.toNat < s.regs.slen.toNat then .next (s.complete .bufferSmall)
    else if (s.slot h).phase ≠ .ready then .next (s.complete .cipherFail)
    else if s.hitsRegFile s.srcRange || s.hitsRegFile s.dstRange then .refused .registerFileOverlap
    else transform h s
  else .next (s.complete .badParam)

/-- ENCRYPT (R135). -/
def execEncrypt (h : Nat) (s : State) : Host.Outcome State Fault Refusal := crypt h s

/-- DECRYPT (R136): the same function; the block cipher's encryption, never its inverse. -/
def execDecrypt (h : Nat) (s : State) : Host.Outcome State Fault Refusal := crypt h s

end Sys2Proof.Machine
end

