-- ==== Sys2Proof/Machine/Lifecycle.lean ====
section
/-! DEFINITION. ALLOCATE and DEALLOCATE (spec/41_lifecycle.md). -/

namespace Sys2Proof.Machine

/-- The slot ALLOCATE leaves: key size set, phase ALLOCATED, all else zero (R101). -/
def Slot.allocated (keySize : Nat) : Slot := { Slot.zero with keySize := keySize, phase := .allocated }

/-- ALLOCATE (R101). TLEN and the CTX and DIR fields are not read (R76). -/
def execAllocate (s : State) : Host.Outcome State Fault Refusal :=
  match variantOf s.regs.klen with
  | none => .next ((s.setHandle 0).complete .badParam)
  | some v =>
    match s.leastFree with
    | none => .next ((s.setHandle 0).complete .allocFail)
    | some h => .next (((s.setSlot h (Slot.allocated (variantKeySize v))).setHandle h).complete .ok)

/-- The primitive handle is disposed of if the slot owns one (R103, R94). -/
def State.disposeIfOwned (s : State) (h : Nat) : State := if (s.slot h).prim then s.primDispose h else s

/-- DEALLOCATE (R103): dispose, wipe, free. -/
def execDeallocate (h : Nat) (s : State) : Host.Outcome State Fault Refusal :=
  if s.ctxOk h then .next (((s.disposeIfOwned h).setSlot h Slot.zero).complete .ok)
  else .next (s.complete .badParam)

end Sys2Proof.Machine
end

