-- ==== Sys2Proof/Machine/SetAad.lean ====
section
/-! DEFINITION. SET_AAD (spec/45_set_aad_descriptors.md). -/

namespace Sys2Proof.Machine

/-- SET_AAD (R150): a no-op that completes with Ok; CTX and DIR are not read. -/
def execSetAad (s : State) : Host.Outcome State Fault Refusal := .next (s.complete .ok)

end Sys2Proof.Machine
end

