-- ==== Sys2Proof/Machine/SetIv.lean ====
section
/-! DEFINITION. SET_IV: the IV-to-counter XOR unit (spec/43_set_iv.md). -/

namespace Sys2Proof.Machine

/-- The bytes of the IV (R56, R120). -/
def State.ivRange (s : State) : Range := ⟨s.regs.ivptr, Config.blockBytes⟩

/-- The slot after steps 1 and 2 (R121): `counter = offset XOR iv`, the residue dropped. -/
def Slot.withIv (c : Slot) (iv : Block) : Slot :=
  { c with counter := c.offset ^^^ iv, ksbuf := 0#128, kavail := 0#4 }

/-- Step 3 (R121), on a slot whose counter is computed. -/
def setIvProgram (h : Nat) (s : State) : Host.Outcome State Fault Refusal :=
  let c := s.slot h
  if c.prim then
    match s.primProgram h c.keyBytes c.keySize c.counter with
    | .ok _ s => .next ((s.setSlot h { c with phase := .ready }).complete .ok)
    | .fail s => .next ((s.setSlot h { c with phase := .inited }).complete .fail)
    | .silent s => .next s.hang
  else .next (s.complete .fail)

/-- SET_IV (R121). DIR is accepted and never read (R76). The IV must not lie in the register file (R50). -/
def execSetIv (h : Nat) (_dir : Dir) (s : State) : Host.Outcome State Fault Refusal :=
  if s.ctxOk h then
    if s.hitsRegFile s.ivRange then .refused .registerFileOverlap
    else
      match s.memRead s.regs.ivptr Config.blockBytes with
      | none => .next s.hang
      | some iv => setIvProgram h (s.setSlot h ((s.slot h).withIv (ofBytes 128 iv)))
  else .next (s.complete .badParam)

end Sys2Proof.Machine
end

