-- ==== Sys2Proof/Machine/Dispatch.lean ====
section
/-! DEFINITION. The meaning of each command, one arm per constructor (spec/30_encoding.md R71). -/

namespace Sys2Proof.Machine

/-- The effect of a decoded command, from launch to completion (R71). -/
def exec (i : Instr) (s : State) : Host.Outcome State Fault Refusal :=
  match i with
  | .allocate _ _ => Sys2Proof.Machine.execAllocate s
  | .deallocate ctx _ => Sys2Proof.Machine.execDeallocate ctx s
  | .contextInit ctx _ => Sys2Proof.Machine.execContextInit ctx s
  | .setIv ctx dir => Sys2Proof.Machine.execSetIv ctx dir s
  | .encrypt ctx _ => Sys2Proof.Machine.execEncrypt ctx s
  | .decrypt ctx _ => Sys2Proof.Machine.execDecrypt ctx s
  | .setAad _ _ => Sys2Proof.Machine.execSetAad s

end Sys2Proof.Machine
end

