-- ==== Sys2Proof/WellFormed.lean ====
section
/-! DEFINITION. Which instructions a command word can carry (spec/30_encoding.md R70). -/

namespace Sys2Proof

/-- The CTX field of an instruction (bits 15:8 of its word). -/
def Instr.ctx : Instr → Nat
  | .allocate h _ => h
  | .deallocate h _ => h
  | .contextInit h _ => h
  | .setIv h _ => h
  | .encrypt h _ => h
  | .decrypt h _ => h
  | .setAad h _ => h

/-- The DIR field of an instruction (bit 16 of its word). -/
def Instr.dir : Instr → Dir
  | .allocate _ d => d
  | .deallocate _ d => d
  | .contextInit _ d => d
  | .setIv _ d => d
  | .encrypt _ d => d
  | .decrypt _ d => d
  | .setAad _ d => d

/-- CTX is an 8-bit field: a handle is a number 0 to 255 (R70, R73). -/
def Instr.ctxFits (i : Instr) : Bool := decide (i.ctx < 256)

/-- Everything an instruction must meet to be the reading of a command word. -/
def Instr.wellFormed (i : Instr) : Bool := i.ctxFits

end Sys2Proof
end

