-- ==== Sys2Proof/Decode.lean ====
section
/-! DEFINITION. Decoding a command word (spec/30_encoding.md R70 to R77) and, after it, encoding an instruction
(R78). The decoder is total: every 32-bit word has exactly one outcome (R71). -/

namespace Sys2Proof

/-- Why a command word is illegal (R75); each completes with BadParam. -/
inductive IllegalWord where
  /-- Some bit of Z0 (7:4) or Z1 (31:17) is set. -/
  | reservedBits
  /-- OP is 0 or 8 to 15. -/
  | noSuchOpcode
deriving DecidableEq, Repr

/-- The outcome of decoding a command word. -/
inductive Decoded where
  | instr (i : Instr)
  | illegal (why : IllegalWord)
deriving DecidableEq, Repr

/-- Field OP, bits 3:0 (R70). -/
def opField (w : Word) : Nat := (w.extractLsb' 0 4).toNat

/-- Reserved field Z0, bits 7:4 (R70). -/
def z0Field (w : Word) : Nat := (w.extractLsb' 4 4).toNat

/-- Field CTX, bits 15:8, an unsigned number 0 to 255 (R70, R73). -/
def ctxField (w : Word) : Nat := (w.extractLsb' 8 8).toNat

/-- Field DIR, bit 16 (R70): 0 encrypt, 1 decrypt. -/
def dirField (w : Word) : Dir := if w.getLsbD 16 then .decrypt else .encrypt

/-- Reserved field Z1, bits 31:17 (R70). -/
def z1Field (w : Word) : Nat := (w.extractLsb' 17 15).toNat

/-- The instruction an opcode number selects (R72); `none` for OP 0 and 8 to 15 (R75). -/
def instrOfOp (op h : Nat) (d : Dir) : Option Instr :=
  match op with
  | 1 => some (.allocate h d)
  | 2 => some (.deallocate h d)
  | 3 => some (.contextInit h d)
  | 4 => some (.setIv h d)
  | 5 => some (.encrypt h d)
  | 6 => some (.decrypt h d)
  | 7 => some (.setAad h d)
  | _ => none

/-- Decode (R71): the reserved-bit check comes before the opcode check (R75). -/
def decode (w : Word) : Decoded :=
  if z0Field w ≠ 0 ∨ z1Field w ≠ 0 then .illegal .reservedBits
  else
    match instrOfOp (opField w) (ctxField w) (dirField w) with
    | some i => .instr i
    | none => .illegal .noSuchOpcode

/-- The bit value of DIR (R70). -/
def Dir.bit : Dir → Nat
  | .encrypt => 0
  | .decrypt => 1

/-- `cmdword(op, h, dir) = op + h * 2^8 + dir * 2^16` (R78). -/
def cmdWord (op h : Nat) (d : Dir) : Word := BitVec.ofNat 32 (op + h * 2 ^ 8 + d.bit * 2 ^ 16)

/-- The opcode number of an instruction (R72). -/
def Instr.op : Instr → Nat
  | .allocate _ _ => 1
  | .deallocate _ _ => 2
  | .contextInit _ _ => 3
  | .setIv _ _ => 4
  | .encrypt _ _ => 5
  | .decrypt _ _ => 6
  | .setAad _ _ => 7

/-- The command word of an instruction, written from the table of R72 and from R78. -/
def encode (i : Instr) : Word := cmdWord i.op i.ctx i.dir

/-- The column "mask" of R72, the same in every row: it covers OP, Z0 and Z1. -/
def tableMask : Word := 0xFFFE00FF#32

/-- The column "match" of R72. -/
def tableMatch (i : Instr) : Word := BitVec.ofNat 32 i.op

/-- The instruction the decoder reads from a word numbered as spec/opcode_table.json numbers it: a command is one
32-bit word (R77); bits at and above `nbits` are 0. -/
def decodeTableWord (nbits w : Nat) : Option Instr :=
  match decode (BitVec.ofNat 32 (w % 2 ^ nbits)) with
  | .instr i => some i
  | .illegal _ => none

end Sys2Proof
end

