-- ==== Sys2Proof/Machine/HostPort.lean ====
section
/-! DEFINITION. What the outside does to the engine (spec/00_scope.md R11): the host's register accesses
(spec/10_state.md R23 to R42, R196), the launch of a command (R71), the host's memory accesses (R58, R60, R197) and the
reset input (R185 to R187). -/

namespace Sys2Proof.Machine

/-- ENCRYPT or DECRYPT on `h` passes the checks that precede its accesses (R135). -/
def State.cryptRuns (s : State) (h : Nat) : Bool :=
  s.ctxOk h && decide (s.regs.slen.toNat ≤ s.regs.dlen.toNat) && decide ((s.slot h).phase = .ready)

/-- The ranges a command reads (R56). -/
def State.cmdReads (s : State) (i : Instr) : List Range :=
  match i with
  | .allocate _ _ => []
  | .deallocate _ _ => []
  | .contextInit h _ => if s.ctxOk h then [s.keySaltRange (s.slot h).keySize] else []
  | .setIv h _ => if s.ctxOk h then [s.ivRange] else []
  | .encrypt h _ => if s.cryptRuns h then [s.srcRange] else []
  | .decrypt h _ => if s.cryptRuns h then [s.srcRange] else []
  | .setAad _ _ => []

/-- The ranges a command writes (R56). -/
def State.cmdWrites (s : State) (i : Instr) : List Range :=
  match i with
  | .allocate _ _ => []
  | .deallocate _ _ => []
  | .contextInit _ _ => []
  | .setIv _ _ => []
  | .encrypt h _ => if s.cryptRuns h then [s.dstRange] else []
  | .decrypt h _ => if s.cryptRuns h then [s.dstRange] else []
  | .setAad _ _ => []

/-- The ranges the command of a word reads and writes (R56); none for an illegal word (R75). -/
def State.buffersOf (s : State) (w : Word) : Buffers :=
  match decode w with
  | .instr i => { reads := s.cmdReads i, writes := s.cmdWrites i }
  | .illegal _ => Buffers.none

/-- The buffers of the running command; none when no command runs. -/
def State.busyBuffers (s : State) : Buffers := if s.busy then s.buffersOf s.latch else Buffers.none

/-- The slot the context window shows: the one CTXSEL names; a number that names no slot shows zeros (R29). -/
def State.windowSlot (s : State) : Slot := s.slot s.regs.ctxsel.toNat

/-- The value of a register while BUSY = 0 (R23 to R29, R37). -/
def State.regValue (s : State) (r : Reg) : Word :=
  match r with
  | .cmd => 0#32
  | .status => statusWord s.busy s.code
  | .klen => s.regs.klen
  | .tlen => s.regs.tlen
  | .kptr => s.regs.kptr
  | .ivptr => s.regs.ivptr
  | .src => s.regs.src
  | .slen => s.regs.slen
  | .dst => s.regs.dst
  | .dlen => s.regs.dlen
  | .handle => s.regs.handle.setWidth 32
  | .caps => capsWord s.nctx
  | .ctxsel => s.regs.ctxsel.setWidth 32
  | .descAlgId v => BitVec.ofNat 32 (variantAlgId v)
  | .descKeyLen v => BitVec.ofNat 32 (variantKeyLen v)
  | .cxInfo => cxInfoWord s.windowSlot
  | .cxOffset k => windowWord s.windowSlot.offset k
  | .cxCounter k => windowWord s.windowSlot.counter k

/-- The value at an offset while BUSY = 0; a reserved offset reads 0 (R41). -/
def State.regRead (s : State) (off : BitVec 8) : Word :=
  match regAt off.toNat with
  | some r => s.regValue r
  | none => 0#32

/-- The data of the host's read. -/
def State.setRdata (s : State) (v : Word) : State := { s with rdata := v }

/-- What a read of STATUS does to the order of the host's accesses: one that returns BUSY = 0 is the acquire of R58,
after which the buffers of the completed commands are the host's again (R197). -/
def State.acquire (s : State) : State := if s.busy then s else { s with held := Buffers.none }

/-- A host read of a register (R23). While BUSY = 1 only STATUS is valid and any other register reads as a free value
(R196, log entry 16). -/
def State.readReg (s : State) (r : Reg) : State :=
  if r = .status then (s.setRdata (statusWord s.busy s.code)).acquire
  else if s.busy then (s.setRdata s.freeWord).drawn
  else s.setRdata (s.regValue r)

/-- A host read of the register file; a reserved offset reads 0, busy or not (R41). -/
def hostRegRead (off : BitVec 8) (width : Width) (s : State) : Host.Outcome State Fault Refusal :=
  if alignedWord off width then
    match regAt off.toNat with
    | some r => .next (s.readReg r)
    | none => .next (s.setRdata 0#32)
  else .refused .narrowAccess

/-- The buffers the host must keep away from once `b` is in use as well. -/
def Buffers.add (held b : Buffers) : Buffers := { reads := held.reads ++ b.reads, writes := held.writes ++ b.writes }

/-- The launch of a command: BUSY is set, CODE keeps its value, the word is latched (R71) and the command's buffers are
held from here on (R58, R197). The operand registers are their own latch, since no host write changes them while
BUSY = 1 (R61). -/
def State.launch (s : State) (w : Word) : State :=
  { s with busy := true, hung := false, latch := w, held := s.held.add (s.buffersOf w) }

/-- A host write of a register while BUSY = 0; a write to a read-only register is ignored (R23, R24, R26, R29). -/
def State.regWrite (s : State) (r : Reg) (v : Word) : State :=
  match r with
  | .cmd => s.launch v
  | .klen => { s with regs := { s.regs with klen := v } }
  | .tlen => { s with regs := { s.regs with tlen := v } }
  | .kptr => { s with regs := { s.regs with kptr := v } }
  | .ivptr => { s with regs := { s.regs with ivptr := v } }
  | .src => { s with regs := { s.regs with src := v } }
  | .slen => { s with regs := { s.regs with slen := v } }
  | .dst => { s with regs := { s.regs with dst := v } }
  | .dlen => { s with regs := { s.regs with dlen := v } }
  | .ctxsel => { s with regs := { s.regs with ctxsel := v.setWidth 8 } }
  | .status => s
  | .handle => s
  | .caps => s
  | .descAlgId _ => s
  | .descKeyLen _ => s
  | .cxInfo => s
  | .cxOffset _ => s
  | .cxCounter _ => s

/-- A host write of the register file: ignored while BUSY = 1 (R24, R196) and at a reserved offset (R41). -/
def hostRegWrite (off : BitVec 8) (width : Width) (v : Word) (s : State) : Host.Outcome State Fault Refusal :=
  if alignedWord off width then
    if s.busy then .next s
    else
      match regAt off.toNat with
      | some r => .next (s.regWrite r v)
      | none => .next s
  else .refused .narrowAccess

/-- A host write of a byte of memory: refused on a byte of a held buffer (R60, R197). -/
def hostMemWrite (a : Addr) (b : Byte) (s : State) : Host.Outcome State Fault Refusal :=
  if s.hitsRegFile ⟨a, 1⟩ then .refused .registerFileOverlap
  else if (s.held.reads ++ s.held.writes).any fun r => r.covers a then .refused .bufferHazard
  else .next (s.storeByte a b)

/-- A host read of a byte of memory: refused on a byte of a held buffer that is written (R58, R60, R197). -/
def hostMemRead (a : Addr) (s : State) : Host.Outcome State Fault Refusal :=
  if s.hitsRegFile ⟨a, 1⟩ then .refused .registerFileOverlap
  else if s.held.writes.any fun r => r.covers a then .refused .bufferHazard
  else .next (s.setRdata ((s.byte a).setWidth 32))

/-- R187: a command cut short by reset leaves free values in the whole range it writes, stuck or not (U5). -/
def State.abandon (s : State) : State :=
  s.busyBuffers.writes.foldl (fun t r => State.storeFreeRange r.base r.len 0 t) s

/-- R185: every register and every field of every slot takes its reset value; the primitive is reset with the engine
(`PrimReset`, R186). Memory and the host are not reset, so a buffer is held until the host reads STATUS (R197). -/
def State.clearEngine (s : State) : State :=
  { s with
    regs := Regs.zero, busy := false, code := .ok, latch := 0#32, hung := false,
    slots := List.replicate s.slots.length Slot.zero, prims := List.replicate s.prims.length .absent }

/-- The reset input (R185, R187). -/
def State.hardReset (s : State) : State := s.abandon.clearEngine

/-- One access of the host. -/
def hostAccess (a : HostAccess) (s : State) : Host.Outcome State Fault Refusal :=
  match a with
  | .regWrite off width v => hostRegWrite off width v s
  | .regRead off width => hostRegRead off width s
  | .memWrite addr b => hostMemWrite addr b s
  | .memRead addr => hostMemRead addr s

end Sys2Proof.Machine
end

