-- ==== Sys2Proof/Machine/Step.lean ====
section
/-! DEFINITION. One step of the machine: the next event of the schedule, or the engine's own move when none is left
(spec/00_scope.md R11; spec/10_state.md R22: nothing is fetched). -/

namespace Sys2Proof.Machine

/-- The engine's move: it executes the launched command (R71). An idle engine and a stuck one do nothing (R170, R180). -/
def engineTurn (s : State) : Host.Outcome State Fault Refusal :=
  if s.busy && !s.hung then
    match decode s.latch with
    | .instr i => exec i s
    | .illegal _ => .next s.illegalWord
  else .next s

/-- The move of the agent an event names (R11). -/
def takeEvent (e : Event) (s : State) : Host.Outcome State Fault Refusal :=
  match e with
  | .engine => engineTurn s
  | .host a => hostAccess a s
  | .reset => .next s.hardReset

/-- One step. -/
def step (s : State) : Host.Outcome State Fault Refusal :=
  match s.sched with
  | [] => engineTurn s
  | e :: rest => takeEvent e { s with sched := rest }

/-- The state with a command word launched and the engine to move next: what the host's write of that word to CMD
brings about (R24, R71). Bits at and above `nbits` are 0. -/
def State.withFetchWord (s : State) (nbits w : Nat) : State :=
  { s.launch (BitVec.ofNat 32 (w % 2 ^ nbits)) with sched := .engine :: s.sched }

end Sys2Proof.Machine
end

