-- ==== Sys2Proof/Safety.lean ====
section
/-! DEFINITION. What a safe run of the engine is, in the terms the statements use: the invariants of
spec/10_state.md R38, the phase table of spec/60_exceptions.md R176, the code table of R168, and the named premises. -/

namespace Sys2Proof.Machine

/-- The invariants R38 (a) to (f) of one slot, with what READY says of the primitive's handle (R95). -/
abbrev SlotOk (c : Slot) (p : PrimHandle) : Prop :=
  (c.phase = .free → c = Slot.zero) ∧
  (c.phase ≠ .free → c.keySize = 16 ∨ c.keySize = 24 ∨ c.keySize = 32) ∧
  c.offset.extractLsb' 0 16 = 0#16 ∧
  (c.prim = true ↔ c.phase = .inited ∨ c.phase = .ready) ∧
  (c.kavail ≠ 0#4 → c.phase = .ready) ∧
  (bytesOf c.key).drop c.keySize = List.replicate (32 - c.keySize) 0#8 ∧
  (c.prim = true ↔ p ≠ .absent) ∧
  (c.phase = .ready → p = .programmed c.keyBytes)

/-- Slot `h` belongs to a command that is stuck, so that its invariants wait for the reset (R180). -/
abbrev State.stuckOn (s : State) (h : Nat) : Prop := s.hung = true ∧ ctxField s.latch = h

/-- Every slot that is not under a stuck command meets the invariants of R38. -/
abbrev State.slotsOk (s : State) : Prop :=
  ∀ k < s.nctx, s.stuckOn (k + 1) ∨ SlotOk (s.slot (k + 1)) (s.primOf (k + 1))

/-- The invariant of the machine: NCTX is legal (R6), every slot has its primitive handle (R90), HANDLE is 0 or names
a slot (R27), a stuck command is a running one (R180), memory is in its canonical form, and R38. -/
abbrev State.Inv (s : State) : Prop :=
  1 ≤ s.nctx ∧ s.nctx ≤ 255 ∧ s.prims.length = s.nctx ∧ s.regs.handle.toNat ≤ s.nctx ∧
  (s.hung = true → s.busy = true) ∧ Memory.wf s.mem = true ∧ s.slotsOk

/-- The buffers of the running command are among those the host must keep away from (R60, R197). -/
abbrev State.HeldOk (s : State) : Prop :=
  (∀ r ∈ s.busyBuffers.reads, r ∈ s.held.reads) ∧ (∀ r ∈ s.busyBuffers.writes, r ∈ s.held.writes)

/-- The answers to come begin with `n` times `ok`: `PrimWellBehaved` (R96) for the next `n` transactions. -/
abbrev State.primOks (s : State) (n : Nat) : Prop := s.answers.take n = List.replicate n .ok

/-- How many blocks ENCRYPT or DECRYPT of `n` bytes requests with `a` residue bytes at hand (R97, R138). -/
def blocksNeeded (n a : Nat) : Nat := (n - min n a + 15) / 16

/-- Byte `i` of the keystream `Z = T ‖ B_0(k, c) ‖ B_1(k, c) ‖ …` of a slot (R138), `T` the residue. -/
def Slot.keystreamByte (e : Cipher) (c : Slot) (i : Nat) : Byte :=
  if i < c.kavail.toNat then byteAt c.ksbuf (16 - c.kavail.toNat + i)
  else
    byteAt (keystreamBlock e c.keyBytes c.counter ((i - c.kavail.toNat) / 16)) ((i - c.kavail.toNat) % 16)

/-- The slot a successful ENCRYPT or DECRYPT of `n` bytes leaves (R138). -/
def Slot.afterKeystream (e : Cipher) (c : Slot) (n : Nat) : Slot :=
  if n ≤ c.kavail.toNat then { c with kavail := BitVec.ofNat 4 (c.kavail.toNat - n) }
  else
    let m := blocksNeeded n c.kavail.toNat
    { c with
      counter := inc16Iter m c.counter
      ksbuf := keystreamBlock e c.keyBytes c.counter (m - 1)
      kavail := BitVec.ofNat 4 (c.kavail.toNat + 16 * m - n) }

/-- The first `m` block requests of a command on the slot `c` of handle `h` (R97, R138): inputs `c, inc16(c), …`. -/
def Slot.blockTxns (h : Nat) (c : Slot) (m : Nat) : List PrimTxn :=
  (List.range m).map fun j => .block h (inc16Iter j c.counter)

/-- The state with the four buffer registers of ENCRYPT and DECRYPT loaded: what the host writes before either (R78). -/
def State.withBuffers (s : State) (src : Addr) (n : Nat) (dst : Addr) (cap : Nat) : State :=
  { s with
    regs := { s.regs with src := src, slen := BitVec.ofNat 32 n, dst := dst, dlen := BitVec.ofNat 32 cap } }

/-- ENCRYPT and DECRYPT on `h` meet no check that stops them (R135) and the platform admits their buffers (R63), which
lie outside the register file (R50). -/
abbrev State.cryptAdmitted (s : State) (h : Nat) : Prop :=
  s.cryptRuns h = true ∧ s.hitsRegFile s.srcRange = false ∧ s.hitsRegFile s.dstRange = false ∧
  s.admitsBytes .read s.regs.src s.regs.slen.toNat = true ∧ s.admitsBytes .write s.regs.dst s.regs.slen.toNat = true

/-- SET_IV on `h` finds its slot and an admitted IV outside the register file (R121, R63, R50). -/
abbrev State.ivAdmitted (s : State) (h : Nat) : Prop :=
  s.ctxOk h = true ∧ s.hitsRegFile s.ivRange = false ∧ s.admits .read s.regs.ivptr 16 = true

/-- CONTEXT_INIT on `h` finds its slot and an admitted key and salt outside the register file (R111, R63, R50). -/
abbrev State.keySaltAdmitted (s : State) (h : Nat) : Prop :=
  s.ctxOk h = true ∧ s.hitsRegFile (s.keySaltRange (s.slot h).keySize) = false ∧
  s.admits .read s.regs.kptr (s.slot h).keySize = true ∧
  s.admits .read (byteAddr s.regs.kptr (s.slot h).keySize) 14 = true

/-- The IV in memory as a 128-bit value, its first byte the most significant (R53, R120). -/
def State.iv (s : State) : Block := ofBytes 128 (s.bytes s.regs.ivptr 16)

/-- A reserved offset of the register map (R41). -/
abbrev IsReserved (off : BitVec 8) : Prop :=
  (0x34 ≤ off.toNat ∧ off.toNat ≤ 0x3C) ∨ (0x58 ≤ off.toNat ∧ off.toNat ≤ 0x7C) ∨
  (0x84 ≤ off.toNat ∧ off.toNat ≤ 0x8C) ∨ 0xB0 ≤ off.toNat

/-- `i` is ENCRYPT or DECRYPT on context `h`. -/
abbrev IsCrypt (i : Instr) (h : Nat) : Prop := ∃ d, i = .encrypt h d ∨ i = .decrypt h d

/-- `i` is one of the five commands with a context operand, on context `h` (R102). -/
abbrev IsOnContext (i : Instr) (h : Nat) : Prop :=
  ∃ d, i = .deallocate h d ∨ i = .contextInit h d ∨ i = .setIv h d ∨ i = .encrypt h d ∨ i = .decrypt h d

/-- Change the next state of an outcome, if it is one. -/
def mapNext (f : State → State) : Host.Outcome State Fault Refusal → Host.Outcome State Fault Refusal
  | .next s => .next (f s)
  | .fault r => .fault r
  | .refused r => .refused r

/-- The transactions a command other than ENCRYPT and DECRYPT issues (R97). -/
def txnsOf (i : Instr) (s : State) : List PrimTxn :=
  match i with
  | .allocate _ _ => []
  | .deallocate h _ => if s.ctxOk h && (s.slot h).prim then [.dispose h] else []
  | .contextInit h _ => if s.ctxOk h && !(s.slot h).prim then [.create h] else []
  | .setIv h _ =>
    if s.ctxOk h && s.admits .read s.regs.ivptr 16 && (s.slot h).prim then
      [.program h (s.slot h).keyBytes (s.slot h).keySize ((s.slot h).offset ^^^ s.iv) .enc]
    else []
  | .encrypt _ _ => []
  | .decrypt _ _ => []
  | .setAad _ _ => []

/-- The codes a command can complete with (R168). -/
def codesOf : Instr → List Code
  | .allocate _ _ => [.ok, .badParam, .allocFail]
  | .deallocate _ _ => [.ok, .badParam]
  | .contextInit _ _ => [.ok, .badParam, .initFail]
  | .setIv _ _ => [.ok, .fail, .badParam]
  | .encrypt _ _ => [.ok, .badParam, .cipherFail, .bufferSmall]
  | .decrypt _ _ => [.ok, .badParam, .cipherFail, .bufferSmall]
  | .setAad _ _ => [.ok]

/-- The phase changes a command can bring about in the slot it names, by the code it completes with (R176); a slot it
does not name keeps its phase. -/
def phaseMove (i : Instr) (c : Code) (old new : Phase) : Bool :=
  match i, c with
  | .allocate _ _, .ok => decide (old = .free ∧ new = .allocated)
  | .deallocate _ _, .ok => decide (old ≠ .free ∧ new = .free)
  | .contextInit _ _, .ok => decide (old ≠ .free ∧ new = .inited)
  | .contextInit _ _, .initFail => decide (old = .allocated ∧ new = .allocated)
  | .setIv _ _, .ok => decide ((old = .inited ∨ old = .ready) ∧ new = .ready)
  | .setIv _ _, .fail =>
    decide ((old = .allocated ∧ new = .allocated) ∨ ((old = .inited ∨ old = .ready) ∧ new = .inited))
  | .encrypt _ _, .ok => decide (old = .ready ∧ new = .ready)
  | .decrypt _ _, .ok => decide (old = .ready ∧ new = .ready)
  | .encrypt _ _, .cipherFail =>
    decide ((old = .ready ∧ new = .inited) ∨ ((old = .allocated ∨ old = .inited) ∧ new = old))
  | .decrypt _ _, .cipherFail =>
    decide ((old = .ready ∧ new = .inited) ∨ ((old = .allocated ∨ old = .inited) ∧ new = old))
  | _, _ => decide (new = old)

end Sys2Proof.Machine
end

