-- ==== Sys2Proof/Certificates/Slice0/Obligations.lean ====
section
/-! DEFINITION. The statements for the provers. Each formalises rules of spec/ named in its docstring. -/

open Sys2Proof Sys2Proof.Machine

/-! ### Encoding (spec/30_encoding.md) -/

/-- R70, R72, R78: decoding an encoded well-formed instruction gives it back, both operand fields included. -/
def Obligations.DecodeEncodeRoundTrip : Prop :=
  ∀ i : Instr, i.wellFormed = true → decode (encode i) = .instr i

/-- R71, R77: every word that decodes is the encoding of what it decodes to, and that is well-formed. -/
def Obligations.EncodeDecodeRoundTrip : Prop :=
  ∀ (w : Word) (i : Instr), decode w = .instr i → i.wellFormed = true ∧ encode i = w

/-- R72: a word selects a row exactly when `w AND mask = match`; R73: CTX is bits 15:8, DIR is bit 16. -/
def Obligations.DecodeFollowsTheTable : Prop :=
  ∀ (w : Word) (i : Instr), decode w = .instr i ↔
    (w &&& 0xFFFE00FF#32 = tableMatch i ∧ i.ctx = w.toNat / 2 ^ 8 % 2 ^ 8 ∧
      i.dir = if w.toNat / 2 ^ 16 % 2 = 1 then .decrypt else .encrypt)

/-- R80: the encoding examples, legal and illegal. -/
def Obligations.SpecExamplesDecode : Prop :=
  decode 0x00000001#32 = .instr (.allocate 0 .encrypt) ∧ decode 0x00000102#32 = .instr (.deallocate 1 .encrypt) ∧
  decode 0x00000103#32 = .instr (.contextInit 1 .encrypt) ∧ decode 0x00000104#32 = .instr (.setIv 1 .encrypt) ∧
  decode 0x00010104#32 = .instr (.setIv 1 .decrypt) ∧ decode 0x00000205#32 = .instr (.encrypt 2 .encrypt) ∧
  decode 0x00000206#32 = .instr (.decrypt 2 .encrypt) ∧ decode 0x00000007#32 = .instr (.setAad 0 .encrypt) ∧
  decode 0x00000002#32 = .instr (.deallocate 0 .encrypt) ∧ decode 0x00000000#32 = .illegal .noSuchOpcode ∧
  decode 0x00000008#32 = .illegal .noSuchOpcode ∧ decode 0x00000015#32 = .illegal .reservedBits ∧
  decode 0x00020005#32 = .illegal .reservedBits

/-- R75: a word with OP 0 or 8 to 15 or a reserved bit set completes with BadParam and changes no other state; the
reserved bits are checked before the opcode. -/
def Obligations.IllegalWordCompletesBadParam : Prop :=
  ∀ s : State, s.busy = true → s.hung = false →
    let op := s.latch.toNat % 16
    let reserved := s.latch.toNat / 2 ^ 4 % 2 ^ 4 ≠ 0 ∨ s.latch.toNat / 2 ^ 17 ≠ 0
    (reserved → decode s.latch = .illegal .reservedBits) ∧
    (¬reserved → (op = 0 ∨ 8 ≤ op) → decode s.latch = .illegal .noSuchOpcode) ∧
    (reserved ∨ op = 0 ∨ 8 ≤ op →
      (s.sched = [] → step s = .next { s with busy := false, code := .badParam }) ∧
      (∀ rest, s.sched = .engine :: rest → step s = .next { s with sched := rest, busy := false, code := .badParam }))

/-- R76: words that differ only in ignored bits are the same command, and ALLOCATE does not read TLEN. -/
def Obligations.IgnoredBitsAreIgnored : Prop :=
  ∀ (s : State) (h h' : Nat) (d d' : Dir) (v : Word),
    exec (.allocate h d) s = exec (.allocate h' d') s ∧ exec (.deallocate h d) s = exec (.deallocate h d') s ∧
    exec (.contextInit h d) s = exec (.contextInit h d') s ∧ exec (.setIv h d) s = exec (.setIv h d') s ∧
    exec (.encrypt h d) s = exec (.encrypt h d') s ∧ exec (.decrypt h d) s = exec (.decrypt h d') s ∧
    exec (.setAad h d) s = exec (.setAad h' d') s ∧
    exec (.allocate h d) { s with regs := { s.regs with tlen := v } } =
      mapNext (fun t => { t with regs := { t.regs with tlen := v } }) (exec (.allocate h d) s)

/-! ### The step, launch and the register file (spec/10_state.md) -/

/-- R71, R170, R22: the engine's move in a state with a launched command is the meaning of that command. With BUSY = 0
the engine is idle and its move changes nothing: the completed command is not executed again and nothing is fetched. -/
def Obligations.StepRunsTheLaunchedCommand : Prop :=
  ∀ s : State,
    (∀ i : Instr, s.busy = true → s.hung = false → decode s.latch = .instr i →
      (s.sched = [] → step s = exec i s) ∧
      (∀ rest, s.sched = .engine :: rest → step s = exec i { s with sched := rest })) ∧
    (s.busy = false →
      (s.sched = [] → step s = .next s) ∧
      (∀ rest, s.sched = .engine :: rest → step s = .next { s with sched := rest }))

/-- R24, R71, R58: a write of CMD launches while BUSY = 0 (BUSY set, the word latched, CODE kept, the command's buffers
held from here on) and is ignored while BUSY = 1; a read of CMD while BUSY = 0 returns 0. While BUSY = 1 a read of CMD
is a free value: R196 as the model reads it (log entry 16), stated in BusyRegisterAccess. R56: which buffers the command
of a word has, by its row for success; that the row for success is taken is log entry 15 (the model's choice). None when
a check made before any access is going to stop it, and none for an illegal word. -/
def Obligations.CmdWriteLaunches : Prop :=
  ∀ (s : State) (w : Word) (rest : List Event),
    (s.busy = false → s.sched = .host (.regWrite 0x00#8 .word w) :: rest →
      step s = .next { s with
        sched := rest, busy := true, hung := false, latch := w
        held := { reads := s.held.reads ++ (s.buffersOf w).reads, writes := s.held.writes ++ (s.buffersOf w).writes } }) ∧
    (s.busy = true → s.sched = .host (.regWrite 0x00#8 .word w) :: rest → step s = .next { s with sched := rest }) ∧
    (s.busy = false → s.sched = .host (.regRead 0x00#8 .word) :: rest →
      step s = .next { s with sched := rest, rdata := 0#32 }) ∧
    let found := fun h => 1 ≤ h ∧ h ≤ s.nctx ∧ (s.slot h).phase ≠ .free
    let accesses := fun h => found h ∧ s.regs.slen.toNat ≤ s.regs.dlen.toNat ∧ (s.slot h).phase = .ready
    (∀ h d, decode w = .instr (.contextInit h d) →
      (found h → s.buffersOf w = { reads := [⟨s.regs.kptr, (s.slot h).keySize + 14⟩], writes := [] }) ∧
      (¬found h → s.buffersOf w = { reads := [], writes := [] })) ∧
    (∀ h d, decode w = .instr (.setIv h d) →
      (found h → s.buffersOf w = { reads := [⟨s.regs.ivptr, 16⟩], writes := [] }) ∧
      (¬found h → s.buffersOf w = { reads := [], writes := [] })) ∧
    (∀ i h, IsCrypt i h → decode w = .instr i →
      (accesses h → s.buffersOf w =
        { reads := [⟨s.regs.src, s.regs.slen.toNat⟩], writes := [⟨s.regs.dst, s.regs.slen.toNat⟩] }) ∧
      (¬accesses h → s.buffersOf w = { reads := [], writes := [] })) ∧
    (∀ h d, decode w = .instr (.allocate h d) ∨ decode w = .instr (.deallocate h d) ∨ decode w = .instr (.setAad h d) →
      s.buffersOf w = { reads := [], writes := [] }) ∧
    (∀ r, decode w = .illegal r → s.buffersOf w = { reads := [], writes := [] })

/-- R196, R25, R41: while BUSY = 1 a host write is lost, a read of STATUS gives BUSY and the old CODE, a read of a
reserved offset gives 0, and a read of any other register changes nothing but the read data and the count of drawn
values; its value is free. That CMD and the constants are free too is the model's reading of R196 (log entry 16,
DEDUCED). -/
def Obligations.BusyRegisterAccess : Prop :=
  ∀ (s : State) (off : BitVec 8) (v : Word) (rest : List Event), s.busy = true → off.toNat % 4 = 0 →
    (s.sched = .host (.regWrite off .word v) :: rest → step s = .next { s with sched := rest }) ∧
    (s.sched = .host (.regRead off .word) :: rest → off = 0x04#8 →
      step s = .next { s with sched := rest, rdata := BitVec.ofNat 32 (1 + s.code.num * 2 ^ 8) }) ∧
    (s.sched = .host (.regRead off .word) :: rest → IsReserved off →
      step s = .next { s with sched := rest, rdata := 0#32 }) ∧
    (s.sched = .host (.regRead off .word) :: rest → off ≠ 0x04#8 → ¬IsReserved off →
      ∃ r, step s = .next { s with sched := rest, rdata := r, draws := s.draws + 1 })

/-- R23 to R29, R37, R41: what a read of each aligned offset returns while BUSY = 0, in words of the register map for
all but the context window, and as `State.regRead` for every one, so that WindowShowsTheSelectedSlot speaks of reads.
Nothing else changes, but that the read of STATUS is the acquire of R58: no buffer is held after it. -/
def Obligations.IdleRegisterReads : Prop :=
  ∀ (s : State) (rest : List Event), s.busy = false →
    let reads := fun (off : BitVec 8) (v : Word) =>
      s.sched = .host (.regRead off .word) :: rest →
        step s = .next { s with
          sched := rest, rdata := v, held := if off = 0x04#8 then { reads := [], writes := [] } else s.held }
    (∀ off : BitVec 8, off.toNat % 4 = 0 → reads off (s.regRead off)) ∧
    reads 0x00#8 0#32 ∧
    reads 0x04#8 (BitVec.ofNat 32 (s.code.num * 2 ^ 8)) ∧ reads 0x08#8 s.regs.klen ∧ reads 0x0C#8 s.regs.tlen ∧
    reads 0x10#8 s.regs.kptr ∧ reads 0x14#8 s.regs.ivptr ∧ reads 0x18#8 s.regs.src ∧ reads 0x1C#8 s.regs.slen ∧
    reads 0x20#8 s.regs.dst ∧ reads 0x24#8 s.regs.dlen ∧ reads 0x28#8 (s.regs.handle.setWidth 32) ∧
    (s.nctx ≤ 255 → reads 0x2C#8 (BitVec.ofNat 32 (s.nctx + 0x700))) ∧
    reads 0x30#8 (s.regs.ctxsel.setWidth 32) ∧ reads 0x40#8 1#32 ∧ reads 0x44#8 30#32 ∧ reads 0x48#8 2#32 ∧
    reads 0x4C#8 38#32 ∧ reads 0x50#8 3#32 ∧ reads 0x54#8 46#32 ∧
    (∀ off : BitVec 8, off.toNat % 4 = 0 → IsReserved off → reads off 0#32)

/-- R26, R29: while BUSY = 0 each RW register takes the value written, CTXSEL its low 8 bits. -/
def Obligations.IdleRegisterWrites : Prop :=
  ∀ (s : State) (v : Word) (rest : List Event), s.busy = false →
    let writes := fun (off : BitVec 8) (r : Regs) =>
      s.sched = .host (.regWrite off .word v) :: rest → step s = .next { s with sched := rest, regs := r }
    writes 0x08#8 { s.regs with klen := v } ∧ writes 0x0C#8 { s.regs with tlen := v } ∧
    writes 0x10#8 { s.regs with kptr := v } ∧ writes 0x14#8 { s.regs with ivptr := v } ∧
    writes 0x18#8 { s.regs with src := v } ∧ writes 0x1C#8 { s.regs with slen := v } ∧
    writes 0x20#8 { s.regs with dst := v } ∧ writes 0x24#8 { s.regs with dlen := v } ∧
    writes 0x30#8 { s.regs with ctxsel := v.setWidth 8 }

/-- R23, R41: a write of a read-only register (STATUS, HANDLE, CAPS, the descriptors, the window) or of a reserved
offset changes no state. -/
def Obligations.ReadOnlyWritesAreIgnored : Prop :=
  ∀ (s : State) (off : BitVec 8) (v : Word) (rest : List Event), off.toNat % 4 = 0 →
    (off = 0x04#8 ∨ off = 0x28#8 ∨ off = 0x2C#8 ∨ 0x34 ≤ off.toNat) →
    s.sched = .host (.regWrite off .word v) :: rest → step s = .next { s with sched := rest }

/-- R42: a byte, halfword or misaligned access of the register file is refused. -/
def Obligations.NarrowAccessIsRefused : Prop :=
  ∀ (s : State) (off : BitVec 8) (width : Width) (v : Word) (rest : List Event),
    (width ≠ .word ∨ off.toNat % 4 ≠ 0) →
    (s.sched = .host (.regRead off width) :: rest → step s = .refused .narrowAccess) ∧
    (s.sched = .host (.regWrite off width v) :: rest → step s = .refused .narrowAccess)

/-- R29: with CTXSEL naming a slot the window shows it, bytes 4k to 4k+3 of `offset` and `counter` in word k, byte 4k
most significant; otherwise every window register reads 0. -/
def Obligations.WindowShowsTheSelectedSlot : Prop :=
  ∀ s : State,
    let h := s.regs.ctxsel.toNat
    let c := s.slot h
    (1 ≤ h → h ≤ s.nctx → c.keySize < 64 →
      (s.regRead 0x80#8).toNat =
        c.keySize + c.phase.num * 2 ^ 8 + c.prim.toNat * 2 ^ 12 + c.kavail.toNat * 2 ^ 16) ∧
    (∀ k < 4, 1 ≤ h → h ≤ s.nctx →
      (s.regRead (BitVec.ofNat 8 (0x90 + 4 * k))).toNat =
        (byteAt c.offset (4 * k)).toNat * 2 ^ 24 + (byteAt c.offset (4 * k + 1)).toNat * 2 ^ 16 +
          (byteAt c.offset (4 * k + 2)).toNat * 2 ^ 8 + (byteAt c.offset (4 * k + 3)).toNat ∧
      (s.regRead (BitVec.ofNat 8 (0xA0 + 4 * k))).toNat =
        (byteAt c.counter (4 * k)).toNat * 2 ^ 24 + (byteAt c.counter (4 * k + 1)).toNat * 2 ^ 16 +
          (byteAt c.counter (4 * k + 2)).toNat * 2 ^ 8 + (byteAt c.counter (4 * k + 3)).toNat) ∧
    (h = 0 ∨ s.nctx < h → s.regRead 0x80#8 = 0#32 ∧
      ∀ k < 4, s.regRead (BitVec.ofNat 8 (0x90 + 4 * k)) = 0#32 ∧ s.regRead (BitVec.ofNat 8 (0xA0 + 4 * k)) = 0#32)

/-- R29, R32, R36: no register read depends on the `key` or the `ksbuf` of any slot. -/
def Obligations.KeyAndResidueAreUnreadable : Prop :=
  ∀ (s : State) (h : Nat) (key : KeyBuf) (ksbuf : Block) (off : BitVec 8) (width : Width),
    let s' := s.setSlot h { s.slot h with key := key, ksbuf := ksbuf }
    hostRegRead off width s' =
      mapNext (fun t => t.setSlot h { s.slot h with key := key, ksbuf := ksbuf }) (hostRegRead off width s)

/-- R58, R60, R197, R50: a host write to a byte of a held buffer, and a host read of a byte of a held buffer that the
command writes, are refused; an access elsewhere in memory is made, and one inside the register file, where the platform
shows it in memory, is refused under its own name (log entry 14, the model's choice). Which buffers are held: those of
every command from its CMD write until STATUS is read with BUSY = 0 (CmdWriteLaunches, IdleRegisterReads,
HeldBuffersChangeOnlyThere), each as long as for a successful command (log entry 15, the model's choice). -/
def Obligations.BufferHazardIsRefused : Prop :=
  ∀ (s : State) (a : Addr) (b : Byte) (rest : List Event),
    let inReads := s.held.reads.any fun r => r.covers a
    let inWrites := s.held.writes.any fun r => r.covers a
    (s.hitsRegFile ⟨a, 1⟩ = true →
      (s.sched = .host (.memWrite a b) :: rest → step s = .refused .registerFileOverlap) ∧
      (s.sched = .host (.memRead a) :: rest → step s = .refused .registerFileOverlap)) ∧
    (s.hitsRegFile ⟨a, 1⟩ = false →
      (s.sched = .host (.memWrite a b) :: rest → inReads = true ∨ inWrites = true →
        step s = .refused .bufferHazard) ∧
      (s.sched = .host (.memRead a) :: rest → inWrites = true → step s = .refused .bufferHazard) ∧
      (s.sched = .host (.memWrite a b) :: rest → inReads = false → inWrites = false →
        step s = .next { s with sched := rest, mem := Memory.write s.mem a.toNat b }) ∧
      (s.sched = .host (.memRead a) :: rest → inWrites = false →
        step s = .next { s with sched := rest, rdata := (s.byte a).setWidth 32 }))

/-! ### Reset (spec/70_reset_and_hazards.md) -/

/-- R40, R185: the state after reset: every register reads its value of the column "reset" of R23, every slot is FREE
with every field zero, the engine idle with CODE Ok. That NCTX is 2 in `State.reset` is the model's choice (log entry
1) and is not stated. -/
def Obligations.ResetStateReadsTheResetColumn : Prop :=
  State.reset.busy = false ∧ State.reset.code = .ok ∧
  (∀ h, State.reset.slot h =
    { phase := .free, keySize := 0, key := 0#256, offset := 0#128, counter := 0#128, prim := false, ksbuf := 0#128,
      kavail := 0#4 }) ∧
  State.reset.regRead 0x2C#8 = BitVec.ofNat 32 (State.reset.nctx + 0x700) ∧
  State.reset.regRead 0x40#8 = 1#32 ∧ State.reset.regRead 0x44#8 = 30#32 ∧ State.reset.regRead 0x48#8 = 2#32 ∧
  State.reset.regRead 0x4C#8 = 38#32 ∧ State.reset.regRead 0x50#8 = 3#32 ∧ State.reset.regRead 0x54#8 = 46#32 ∧
  (∀ off : BitVec 8, off.toNat % 4 = 0 → off ≠ 0x2C#8 → (off.toNat < 0x40 ∨ 0x58 ≤ off.toNat) →
    State.reset.regRead off = 0#32)

/-- R185: reset from any state: every register and every slot at its reset value, the engine idle. That the primitive
then holds no handle is the premise `PrimReset` of R186, and that the record of its port is kept is log entry 5 (the
model's choice). R187, U5: every byte of the range a running command writes, stuck or not, is a free value drawn by this
step, and no byte outside that range changes (log entry 13, the model's choice among the two R187 offers). -/
def Obligations.ResetInputClearsTheEngine : Prop :=
  ∀ (s : State) (rest : List Event), s.sched = .reset :: rest → Memory.wf s.mem = true →
    ∃ t, step s = .next t ∧ t.sched = rest ∧ t.regs = Regs.zero ∧ t.busy = false ∧ t.hung = false ∧ t.code = .ok ∧
      t.slots = List.replicate s.nctx Slot.zero ∧ (∀ h, t.primOf h = .absent) ∧ t.port = s.port ∧ t.plat = s.plat ∧
      (∀ r ∈ s.busyBuffers.writes, ∀ j < r.len,
        ∃ n, s.draws ≤ n ∧ n < t.draws ∧ t.byte (byteAddr r.base j) = Config.freeByte n) ∧
      ∀ a, (s.busyBuffers.writes.any fun r => r.covers a) = false → t.byte a = s.byte a

/-- The invariants of the machine hold after reset. -/
def Obligations.InvariantHoldsAtReset : Prop :=
  State.reset.Inv ∧ State.reset.HeldOk

/-! ### Invariants over every step -/

/-- R38 (a) to (f), with the canonical form of memory and the link of every slot to its primitive handle: every step
from a state that meets the invariant gives one that meets it. -/
def Obligations.StepKeepsTheInvariant : Prop :=
  ∀ s t : State, s.Inv → step s = .next t → t.Inv

/-- R93: the sequencer never asks a block of a handle that is not programmed, so no step from an invariant state
faults. -/
def Obligations.StepNeverFaults : Prop :=
  ∀ (s : State) (f : Fault), s.Inv → step s ≠ .fault f

/-- R6, R28: no step changes NCTX, the block cipher or what the platform admits. -/
def Obligations.StepKeepsTheParameters : Prop :=
  ∀ s t : State, step s = .next t → t.nctx = s.nctx ∧ t.plat = s.plat

/-- R170, R180: a command that does not stop by name either completes (BUSY 0, not stuck) or is stuck (BUSY 1, CODE as
before); and a stuck command keeps BUSY, CODE, registers, slots, the primitive's handles and the port through every step
but a reset, which ends it. It has no further step: a turn of the engine changes nothing at all. -/
def Obligations.CompletionOrStuck : Prop :=
  (∀ (i : Instr) (s t : State), exec i s = .next t →
    (t.busy = false ∧ t.hung = false) ∨ (t.busy = true ∧ t.hung = true ∧ t.code = s.code)) ∧
  (∀ s t : State, s.busy = true → s.hung = true → step s = .next t →
    (s.sched.head? ≠ some .reset →
      t.busy = true ∧ t.hung = true ∧ t.code = s.code ∧ t.regs = s.regs ∧ t.slots = s.slots ∧ t.prims = s.prims ∧
        t.port = s.port ∧ t.answers = s.answers ∧ t.latch = s.latch) ∧
    (s.sched = [] → t = s) ∧
    (s.sched.head? = some .engine → t = { s with sched := s.sched.tail }) ∧
    (s.sched.head? = some .reset → t.busy = false ∧ t.hung = false ∧ t.code = .ok))

/-- R207: when the platform admits every request, the register file is not in the memory space and the primitive
answers every transaction, every command completes. -/
def Obligations.EveryCommandCompletes : Prop :=
  ∀ (i : Instr) (s : State), s.Inv → s.hung = false → (∀ k a n, n ≤ Config.maxRequest → s.admits k a n = true) → s.plat.regBase = none →
    (∀ x ∈ s.answers, x ≠ .silent) →
    1 + blocksNeeded s.regs.slen.toNat (s.slot i.ctx).kavail.toNat ≤ s.answers.length →
    ∃ t, exec i s = .next t ∧ t.busy = false ∧ t.hung = false

/-! ### Tables of all commands (spec/60_exceptions.md, spec/20_memory.md) -/

/-- R168: a command completes with no code outside its row. -/
def Obligations.CodesOfEachCommand : Prop :=
  ∀ (i : Instr) (s t : State), exec i s = .next t → t.busy = false → t.code ∈ codesOf i

/-- R176: the phase of the slot a command names moves by the table, and ALLOCATE takes a FREE slot to ALLOCATED on Ok
and moves no phase on an error. -/
def Obligations.PhasesMoveByTheTable : Prop :=
  (∀ (i : Instr) (h : Nat) (s t : State), IsOnContext i h → s.Inv → s.hung = false → exec i s = .next t →
    t.busy = false → phaseMove i t.code (s.slot h).phase (t.slot h).phase = true) ∧
  (∀ (h : Nat) (d : Dir) (s t : State), s.Inv → exec (.allocate h d) s = .next t →
    (t.code = .ok → (s.slot t.regs.handle.toNat).phase = .free ∧ (t.slot t.regs.handle.toNat).phase = .allocated) ∧
    (t.code ≠ .ok → t.slots = s.slots)) ∧
  (∀ (h : Nat) (d : Dir) (s t : State), exec (.setAad h d) s = .next t → t.slots = s.slots)

/-- R30: no command touches a slot or a primitive handle but the one it names; ALLOCATE names the slot of HANDLE and
touches no primitive handle. -/
def Obligations.OtherContextsAreUntouched : Prop :=
  (∀ (i : Instr) (h : Nat) (s t : State), IsOnContext i h → exec i s = .next t →
    ∀ j, j ≠ h → t.slot j = s.slot j ∧ t.primOf j = s.primOf j) ∧
  (∀ (h : Nat) (d : Dir) (s t : State), s.Inv → exec (.allocate h d) s = .next t →
    t.prims = s.prims ∧ ∀ j, j ≠ t.regs.handle.toNat → t.slot j = s.slot j) ∧
  (∀ (h : Nat) (d : Dir) (s t : State), exec (.setAad h d) s = .next t → t.slots = s.slots ∧ t.prims = s.prims)

/-- R30: a command on one context cannot learn anything of another: whatever stands in slot `j`, a command on `h` does
the same and leaves slot `j` as it is. -/
def Obligations.ContextsAreIsolated : Prop :=
  ∀ (i : Instr) (h j : Nat) (c : Slot) (s : State), IsOnContext i h → j ≠ h →
    exec i (s.setSlot j c) = mapNext (fun t => t.setSlot j c) (exec i s)

/-- R56: ENCRYPT and DECRYPT change no byte outside `[DST, DST + SLEN)`; every other command changes no byte. -/
def Obligations.MemoryFrame : Prop :=
  ∀ (i : Instr) (s t : State), Memory.wf s.mem = true → exec i s = .next t →
    ((∀ h, ¬IsCrypt i h) → t.mem = s.mem) ∧
    (∀ h, IsCrypt i h → ∀ a, s.dstRange.covers a = false → t.byte a = s.byte a)

/-- R26, R27: ALLOCATE writes HANDLE and no other register, ENCRYPT and DECRYPT write DLEN and no other, the other
commands write none (R135, R137: DLEN; R101: HANDLE); no command changes the latched word, the held buffers, the
schedule, the host's read data or the parameters. -/
def Obligations.RegisterFrame : Prop :=
  ∀ (i : Instr) (s t : State), exec i s = .next t →
    t.latch = s.latch ∧ t.held = s.held ∧ t.sched = s.sched ∧ t.rdata = s.rdata ∧ t.plat = s.plat ∧
    match i with
    | .allocate _ _ => t.regs = { s.regs with handle := t.regs.handle }
    | .encrypt _ _ => t.regs = { s.regs with dlen := t.regs.dlen }
    | .decrypt _ _ => t.regs = { s.regs with dlen := t.regs.dlen }
    | .deallocate _ _ => t.regs = s.regs
    | .contextInit _ _ => t.regs = s.regs
    | .setIv _ _ => t.regs = s.regs
    | .setAad _ _ => t.regs = s.regs

/-- R32, R33, R34, R121: in the slot it names, SET_IV keeps key, key_size, offset and prim, ENCRYPT and DECRYPT keep
those and bytes 0 to 13 of the counter, CONTEXT_INIT keeps key_size. -/
def Obligations.SlotFrame : Prop :=
  ∀ (h : Nat) (d : Dir) (s t : State), s.Inv →
    (exec (.setIv h d) s = .next t →
      (t.slot h).key = (s.slot h).key ∧ (t.slot h).keySize = (s.slot h).keySize ∧
      (t.slot h).offset = (s.slot h).offset ∧ (t.slot h).prim = (s.slot h).prim) ∧
    (∀ i, IsCrypt i h → exec i s = .next t →
      (t.slot h).key = (s.slot h).key ∧ (t.slot h).keySize = (s.slot h).keySize ∧
      (t.slot h).offset = (s.slot h).offset ∧ (t.slot h).prim = (s.slot h).prim ∧
      ∀ j < 14, byteAt (t.slot h).counter j = byteAt (s.slot h).counter j) ∧
    (exec (.contextInit h d) s = .next t → (t.slot h).keySize = (s.slot h).keySize)

/-- R97: the transactions each command issues, in order; ENCRYPT and DECRYPT issue block requests only, with the
successive counter values, and a successful one exactly `ceil((SLEN - min(SLEN, kavail)) / 16)` of them. -/
def Obligations.TransactionsOfEachCommand : Prop :=
  ∀ (i : Instr) (s t : State), exec i s = .next t →
    ((∀ h, ¬IsCrypt i h) → t.port = s.port ++ txnsOf i s) ∧
    (∀ h, IsCrypt i h →
      ∃ m ≤ blocksNeeded s.regs.slen.toNat (s.slot h).kavail.toNat,
        t.port = s.port ++ (s.slot h).blockTxns h m ∧
        (t.busy = false → t.code = .ok → m = blocksNeeded s.regs.slen.toNat (s.slot h).kavail.toNat))

/-- R102: a null, out-of-range or FREE handle completes every command with a context with BadParam, no state
changing. -/
def Obligations.BadHandleChangesNothing : Prop :=
  ∀ (i : Instr) (h : Nat) (s : State), IsOnContext i h →
    (h = 0 ∨ s.nctx < h ∨ (s.slot h).phase = .free) →
    exec i s = .next { s with code := .badParam, busy := false, hung := false }

/-! ### ALLOCATE and DEALLOCATE (spec/41_lifecycle.md) -/

/-- R100, R101: ALLOCATE. A length that is not 30, 38 or 46 gives BadParam, also when no slot is free; then a pool with
no FREE slot gives AllocFail; either way HANDLE is 0 and nothing else changes. Otherwise the least FREE slot becomes
ALLOCATED with key_size = klen - 14 and all else zero, and HANDLE names it. -/
def Obligations.AllocateFollowsItsRule : Prop :=
  ∀ (s : State) (ctx : Nat) (d : Dir), s.nctx ≤ 255 →
    let valid := s.regs.klen = 30#32 ∨ s.regs.klen = 38#32 ∨ s.regs.klen = 46#32
    (¬valid → exec (.allocate ctx d) s = .next { s with
      regs := { s.regs with handle := 0#8 }, code := .badParam, busy := false, hung := false }) ∧
    (valid → (∀ j, 1 ≤ j → j ≤ s.nctx → (s.slot j).phase ≠ .free) → exec (.allocate ctx d) s = .next { s with
      regs := { s.regs with handle := 0#8 }, code := .allocFail, busy := false, hung := false }) ∧
    (valid → ∀ h, 1 ≤ h → h ≤ s.nctx → (s.slot h).phase = .free →
      (∀ j, 1 ≤ j → j < h → (s.slot j).phase ≠ .free) →
      ∃ t, exec (.allocate ctx d) s = .next t ∧ t.regs.handle.toNat = h ∧ t = { s with
        slots := s.slots.set (h - 1)
          { phase := .allocated, keySize := s.regs.klen.toNat - 14, key := 0#256, offset := 0#128, counter := 0#128,
            prim := false, ksbuf := 0#128, kavail := 0#4 }
        regs := { s.regs with handle := t.regs.handle }
        code := .ok, busy := false, hung := false })

/-- R103, R94: DEALLOCATE disposes of the primitive handle if the slot owns one, zeroes every field of the slot and
frees it; a bad handle gives BadParam and changes nothing. -/
def Obligations.DeallocateWipesTheSlot : Prop :=
  ∀ (s : State) (h : Nat) (d : Dir), s.prims.length = s.nctx →
    ((h = 0 ∨ s.nctx < h ∨ (s.slot h).phase = .free) →
      exec (.deallocate h d) s = .next { s with code := .badParam, busy := false, hung := false }) ∧
    (1 ≤ h → h ≤ s.nctx → (s.slot h).phase ≠ .free →
      ∃ t, exec (.deallocate h d) s = .next t ∧ t.code = .ok ∧ t.busy = false ∧ t.hung = false ∧
        t.slots = s.slots.set (h - 1)
          { phase := .free, keySize := 0, key := 0#256, offset := 0#128, counter := 0#128, prim := false,
            ksbuf := 0#128, kavail := 0#4 } ∧
        t.regs = s.regs ∧ t.mem = s.mem ∧
        ((s.slot h).prim = true → t.primOf h = .absent ∧ t.port = s.port ++ [.dispose h]) ∧
        ((s.slot h).prim = false → t.prims = s.prims ∧ t.port = s.port))

/-! ### CONTEXT_INIT (spec/42_context_init.md) -/

/-- R111, R110: CONTEXT_INIT with a primitive handle at hand (owned, or created with answer ok) loads the key, makes
`offset` and `counter` the salt followed by two zero bytes, empties the residue and leaves phase INITED. R91: a handle
it creates is held by the primitive and not programmed. -/
def Obligations.ContextInitLoadsKeyAndSalt : Prop :=
  ∀ (s : State) (h : Nat) (d : Dir), s.keySaltAdmitted h →
    ((s.slot h).keySize = 16 ∨ (s.slot h).keySize = 24 ∨ (s.slot h).keySize = 32) →
    ((s.slot h).prim = true ∨ s.answers.head? = some .ok) →
    ∃ t, exec (.contextInit h d) s = .next t ∧ t.code = .ok ∧ t.busy = false ∧ t.hung = false ∧
      (t.slot h).phase = .inited ∧ (t.slot h).prim = true ∧ (t.slot h).keySize = (s.slot h).keySize ∧
      (t.slot h).ksbuf = 0#128 ∧ (t.slot h).kavail = 0#4 ∧ (t.slot h).counter = (t.slot h).offset ∧
      (∀ j < 14, byteAt (t.slot h).offset j = s.byte (byteAddr s.regs.kptr ((s.slot h).keySize + j))) ∧
      byteAt (t.slot h).offset 14 = 0#8 ∧ byteAt (t.slot h).offset 15 = 0#8 ∧
      (∀ j < (s.slot h).keySize, byteAt (t.slot h).key j = s.byte (byteAddr s.regs.kptr j)) ∧
      (∀ j, (s.slot h).keySize ≤ j → j < 32 → byteAt (t.slot h).key j = byteAt (s.slot h).key j) ∧
      ((s.slot h).prim = true → t.port = s.port ∧ t.answers = s.answers ∧ t.prims = s.prims) ∧
      ((s.slot h).prim = false → t.port = s.port ++ [.create h] ∧ t.answers = s.answers.tail ∧
        (s.prims.length = s.nctx → t.primOf h = .created) ∧ ∀ j, j ≠ h → t.primOf j = s.primOf j)

/-- R111, R172: when the primitive answers PrimCreate with fail, CONTEXT_INIT completes with InitFail and no register,
slot or byte of memory changes. That the primitive's handles do not change either is the model's reading of R91 (log
entry 5, DEDUCED). -/
def Obligations.ContextInitCreateFailure : Prop :=
  ∀ (s : State) (h : Nat) (d : Dir), s.ctxOk h = true → (s.slot h).prim = false →
    s.answers.head? = some .fail →
    exec (.contextInit h d) s = .next { s with
      port := s.port ++ [.create h], answers := s.answers.tail, code := .initFail, busy := false, hung := false }

/-- R112: on a slot whose key_size is none of the three (no reachable one) step 4 fails with BadParam after `prim`,
`offset` and `counter` are written and before `key` and `phase` are. -/
def Obligations.ContextInitOnACorruptSlot : Prop :=
  ∀ (s : State) (h : Nat) (d : Dir), s.ctxOk h = true → (s.slot h).keySize ≠ 16 → (s.slot h).keySize ≠ 24 →
    (s.slot h).keySize ≠ 32 → (s.slot h).prim = true →
    s.hitsRegFile (s.keySaltRange (s.slot h).keySize) = false →
    s.admits .read (byteAddr s.regs.kptr (s.slot h).keySize) 14 = true →
    let salt := saltBlock (s.bytes (byteAddr s.regs.kptr (s.slot h).keySize) 14)
    exec (.contextInit h d) s =
      .next { s.setSlot h { s.slot h with prim := true, offset := salt, counter := salt } with
        code := .badParam, busy := false, hung := false }

/-! ### SET_IV (spec/43_set_iv.md) -/

/-- R121, R122, R92: SET_IV on a context with a primitive handle whose programming is answered ok: the counter is
`offset XOR iv` byte by byte, the residue empty, the phase READY, the primitive programmed with the context's key in
the encryption direction. -/
def Obligations.SetIvDerivesTheCounter : Prop :=
  ∀ (s : State) (h : Nat) (d : Dir), s.ivAdmitted h → (s.slot h).prim = true → s.answers.head? = some .ok →
    s.prims.length = s.nctx →
    ∃ t, exec (.setIv h d) s = .next t ∧ t.code = .ok ∧ t.busy = false ∧ t.hung = false ∧
      t.slot h = { s.slot h with
        counter := (s.slot h).offset ^^^ s.iv, ksbuf := 0#128, kavail := 0#4, phase := .ready } ∧
      (∀ j < 16, byteAt (t.slot h).counter j = byteAt (s.slot h).offset j ^^^ s.byte (byteAddr s.regs.ivptr j)) ∧
      t.primOf h = .programmed (s.slot h).keyBytes ∧
      t.port = s.port ++
        [.program h (s.slot h).keyBytes (s.slot h).keySize ((s.slot h).offset ^^^ s.iv) .enc]

/-- R121, R162: SET_IV on a context with no primitive handle, and SET_IV whose programming is answered fail, complete
with Fail after the counter and the residue are written; the phase stays in the first case and becomes INITED in the
second. -/
def Obligations.SetIvFailures : Prop :=
  ∀ (s : State) (h : Nat) (d : Dir), s.ivAdmitted h →
    let c := { s.slot h with counter := (s.slot h).offset ^^^ s.iv, ksbuf := 0#128, kavail := 0#4 }
    ((s.slot h).prim = false →
      exec (.setIv h d) s = .next { s.setSlot h c with code := .fail, busy := false, hung := false }) ∧
    ((s.slot h).prim = true → s.answers.head? = some .fail →
      ∃ t, exec (.setIv h d) s = .next t ∧ t.code = .fail ∧ t.busy = false ∧ t.hung = false ∧
        t.slot h = { c with phase := .inited } ∧ t.port = s.port ++ [.program h c.keyBytes c.keySize c.counter .enc])

/-- R122: at the completion of every SET_IV that found its context, with Ok or with Fail, the counter is
`offset XOR iv`, 128 single-bit exclusive-ors with no carry; XORing the IV again gives the offset, and a zero IV gives
the offset itself. -/
def Obligations.CounterIsOffsetXorIv : Prop :=
  ∀ (s t : State) (h : Nat) (d : Dir), s.ctxOk h = true → exec (.setIv h d) s = .next t → t.busy = false →
    (t.code = .ok ∨ t.code = .fail) ∧ (t.slot h).offset = (s.slot h).offset ∧
    (∀ b < 128, (t.slot h).counter.getLsbD b = ((s.slot h).offset.getLsbD b ^^ s.iv.getLsbD b)) ∧
    (t.slot h).counter ^^^ s.iv = (s.slot h).offset ∧
    ((∀ j < 16, s.byte (byteAddr s.regs.ivptr j) = 0#8) → (t.slot h).counter = (s.slot h).offset)

/-- R63, R51: SET_IV and CONTEXT_INIT with a request the platform does not admit: the command never completes and no
value or code comes of it. The requests are those of the rules' pseudocode: the IV; the salt, then the key, of a slot
that owns a primitive handle or gets one first (`u`: R91 answered ok). That the effects before the request stay, offset
and counter zeroed among them, is log entry 12 (DEDUCED). -/
def Obligations.UnadmittedReadIsStuck : Prop :=
  ∀ (s : State) (h : Nat) (d : Dir), s.ctxOk h = true →
    let c := s.slot h
    let u : State :=
      if c.prim = true then s
      else { s with
        port := s.port ++ [.create h], answers := s.answers.tail, prims := s.prims.set (h - 1) .created }
    let salt := saltBlock (s.bytes (byteAddr s.regs.kptr c.keySize) 14)
    (s.hitsRegFile s.ivRange = false → s.admits .read s.regs.ivptr 16 = false →
      exec (.setIv h d) s = .next { s with busy := true, hung := true }) ∧
    (c.prim = true ∨ s.answers.head? = some .ok → s.hitsRegFile (s.keySaltRange c.keySize) = false →
      (s.admits .read (byteAddr s.regs.kptr c.keySize) 14 = false →
        exec (.contextInit h d) s = .next { u.setSlot h { c with prim := true, counter := 0#128, offset := 0#128 }
          with busy := true, hung := true }) ∧
      (s.admits .read (byteAddr s.regs.kptr c.keySize) 14 = true → c.keySize = 16 ∨ c.keySize = 24 ∨ c.keySize = 32 →
        s.admits .read s.regs.kptr c.keySize = false →
        exec (.contextInit h d) s = .next { u.setSlot h { c with prim := true, counter := salt, offset := salt }
          with busy := true, hung := true }))

/-! ### The keystream, ENCRYPT and DECRYPT (spec/44_keystream.md) -/

/-- R130: the increment adds 1 modulo 65536 to the big-endian field in bytes 14 and 15 and changes no other byte; `m`
of them add `m`, so 65536 of them are none. -/
def Obligations.CounterIncrementWraps : Prop :=
  ∀ (c : Block) (m : Nat),
    let field := fun v : Block => (byteAt v 14).toNat * 256 + (byteAt v 15).toNat
    field (inc16 c) = (field c + 1) % 65536 ∧ (∀ j < 14, byteAt (inc16 c) j = byteAt c j) ∧
    field (inc16Iter m c) = (field c + m) % 65536 ∧ (∀ j < 14, byteAt (inc16Iter m c) j = byteAt c j) ∧
    inc16Iter 65536 c = c

/-- R131: keystream block j is `E(k, inc16^j(c))`, and the blocks have period 65536. -/
def Obligations.KeystreamHasPeriod65536 : Prop :=
  ∀ (e : Cipher) (k : List Byte) (c : Block) (j : Nat),
    keystreamBlock e k c j = cipherFn e k (inc16Iter j c) ∧
    keystreamBlock e k c (j + 65536) = keystreamBlock e k c j

/-- R135, R171: the errors of ENCRYPT and DECRYPT before any access: BufferSmall when `DLEN < SLEN`, then CipherFail
when the context is not READY; nothing else changes. -/
def Obligations.CryptErrorsBeforeAccess : Prop :=
  ∀ (i : Instr) (h : Nat) (s : State), IsCrypt i h → s.ctxOk h = true →
    (s.regs.dlen.toNat < s.regs.slen.toNat →
      exec i s = .next { s with code := .bufferSmall, busy := false, hung := false }) ∧
    (s.regs.slen.toNat ≤ s.regs.dlen.toNat → (s.slot h).phase ≠ .ready →
      exec i s = .next { s with code := .cipherFail, busy := false, hung := false })

/-- R138, R141: the closed form of a successful ENCRYPT or DECRYPT. Also when source and destination overlap in part
the command completes, with every effect but the destination bytes, which are then free values (R57, the model's choice
of log entry 9). -/
def Obligations.CryptClosedForm : Prop :=
  ∀ (i : Instr) (h : Nat) (s : State), IsCrypt i h → s.Inv → s.hung = false → s.cryptAdmitted h →
    let n := s.regs.slen.toNat
    let c := s.slot h
    let m := blocksNeeded n c.kavail.toNat
    s.primOks m →
    ∃ t, exec i s = .next t ∧ t.code = .ok ∧ t.busy = false ∧ t.hung = false ∧
      t.regs = { s.regs with dlen := s.regs.slen } ∧ t.slot h = c.afterKeystream s.plat.cipher n ∧
      t.port = s.port ++ c.blockTxns h m ∧
      (∀ a, s.dstRange.covers a = false → t.byte a = s.byte a) ∧
      (partialOverlap s.regs.src s.regs.dst n = false → ∀ j < n,
        t.byte (byteAddr s.regs.dst j) =
          s.byte (byteAddr s.regs.src j) ^^^ c.keystreamByte s.plat.cipher j)

/-- R136: DECRYPT is ENCRYPT in every state. -/
def Obligations.DecryptIsEncrypt : Prop :=
  ∀ (h : Nat) (d d' : Dir) (s : State), exec (.decrypt h d) s = exec (.encrypt h d') s

/-- R139: a successful command on `n1` bytes and then a successful one on the next `n2` write the same memory and leave
the same slot as one successful command on all of them. -/
def Obligations.StreamingLaw : Prop :=
  ∀ (i j k : Instr) (h n1 n2 : Nat) (src dst : Addr) (s t t1 t2 : State),
    IsCrypt i h → IsCrypt j h → IsCrypt k h → s.Inv → s.hung = false → n1 + n2 < 2 ^ 32 →
    partialOverlap src dst (n1 + n2) = false →
    exec i (s.withBuffers src (n1 + n2) dst (n1 + n2)) = .next t → t.busy = false → t.code = .ok →
    exec j (s.withBuffers src n1 dst n1) = .next t1 → t1.busy = false → t1.code = .ok →
    exec k (t1.withBuffers (byteAddr src n1) n2 (byteAddr dst n1) n2) = .next t2 → t2.busy = false → t2.code = .ok →
    t2.slot h = t.slot h ∧ ∀ a, t2.byte a = t.byte a

/-- R140: for every context, IV and message: SET_IV, ENCRYPT of the message, SET_IV with the same IV and ENCRYPT or
DECRYPT of the result, all four successful, give back the message. The IV stands outside the destination of the first
transform, so that it is the same IV both times. -/
def Obligations.InvolutionLaw : Prop :=
  ∀ (i j : Instr) (h n : Nat) (d1 d2 : Dir) (src mid dst : Addr) (s s1 s2 s3 s4 : State),
    IsCrypt i h → IsCrypt j h → s.Inv → s.hung = false → n < 2 ^ 32 →
    partialOverlap src mid n = false → partialOverlap mid dst n = false → s.ivRange.overlaps ⟨mid, n⟩ = false →
    exec (.setIv h d1) s = .next s1 → s1.busy = false → s1.code = .ok →
    exec i (s1.withBuffers src n mid n) = .next s2 → s2.busy = false → s2.code = .ok →
    exec (.setIv h d2) s2 = .next s3 → s3.busy = false → s3.code = .ok →
    exec j (s3.withBuffers mid n dst n) = .next s4 → s4.busy = false → s4.code = .ok →
    ∀ k < n, s4.byte (byteAddr dst k) = s.byte (byteAddr src k)

/-- R137: when the primitive answers `q` block requests and fails the next, the first `p` destination bytes are
written, the counter counts the `q` blocks, the residue is cleared, the phase is INITED and the code CipherFail; of
DLEN nothing is stated. -/
def Obligations.MidStreamCipherFail : Prop :=
  ∀ (i : Instr) (h q : Nat) (s : State) (rest : List PrimAnswer), IsCrypt i h → s.Inv → s.hung = false →
    s.cryptAdmitted h →
    let n := s.regs.slen.toNat
    let c := s.slot h
    let p := min n c.kavail.toNat + 16 * q
    partialOverlap s.regs.src s.regs.dst n = false → q < blocksNeeded n c.kavail.toNat →
    s.answers = List.replicate q .ok ++ .fail :: rest →
    ∃ t, exec i s = .next t ∧ t.code = .cipherFail ∧ t.busy = false ∧ t.hung = false ∧
      t.regs = { s.regs with dlen := t.regs.dlen } ∧
      t.slot h = { c with counter := inc16Iter q c.counter, ksbuf := 0#128, kavail := 0#4, phase := .inited } ∧
      t.port = s.port ++ c.blockTxns h (q + 1) ∧
      (∀ j < p, t.byte (byteAddr s.regs.dst j) =
        s.byte (byteAddr s.regs.src j) ^^^ c.keystreamByte s.plat.cipher j) ∧
      (∀ a, Range.covers ⟨s.regs.dst, p⟩ a = false → t.byte a = s.byte a)

/-! ### SET_AAD (spec/45_set_aad_descriptors.md) -/

/-- R150: SET_AAD completes with Ok in every state and changes nothing else. -/
def Obligations.SetAadIsANoOp : Prop :=
  ∀ (ctx : Nat) (d : Dir) (s : State),
    exec (.setAad ctx d) s = .next { s with code := .ok, busy := false, hung := false }

/-! ### Memory (spec/20_memory.md) -/

/-- R51, R52: a byte stored is read back, every other byte reads as before, addresses are taken modulo 2^32, and the
canonical form stays. -/
def Obligations.MemoryReadAfterWrite : Prop :=
  ∀ (s : State) (base : Addr) (i : Nat) (b : Byte), Memory.wf s.mem = true →
    let t := s.storeByte (byteAddr base i) b
    (∀ a, t.byte a = if a = byteAddr base i then b else s.byte a) ∧ Memory.wf t.mem = true ∧
    (byteAddr base i).toNat = (base.toNat + i) % 2 ^ 32

/-- R57: two ranges overlap exactly when an address belongs to both, a range being the set of addresses it covers modulo
2^32; an empty range overlaps none. -/
def Obligations.RangesAreAddressSets : Prop :=
  ∀ (r q : Range), r.len ≤ 2 ^ 32 → q.len ≤ 2 ^ 32 →
    (r.overlaps q = true ↔ ∃ i j, i < r.len ∧ j < q.len ∧ byteAddr r.base i = byteAddr q.base j)

/-! ### The ordering points of spec/20_memory.md R58 and the held buffers of R197 -/

/-- R58, R59: the CMD write and the STATUS read that returns BUSY = 0 are the only ordering points. A step adds the
buffers of a launched command to those held, clears them at such a STATUS read, and changes them in no other way: not at
the completion of the command, not at another access, not at reset (log entry 15). -/
def Obligations.HeldBuffersChangeOnlyThere : Prop :=
  ∀ s t : State, step s = .next t →
    t.held =
      match s.sched with
      | .host (.regWrite off _ w) :: _ =>
        if off = 0x00#8 ∧ s.busy = false then
          { reads := s.held.reads ++ (s.buffersOf w).reads, writes := s.held.writes ++ (s.buffersOf w).writes }
        else s.held
      | .host (.regRead off _) :: _ =>
        if off = 0x04#8 ∧ s.busy = false then { reads := [], writes := [] } else s.held
      | _ => s.held

/-- R58 (b): once a host read of STATUS has returned BUSY = 0, a host read of any byte of memory outside the register
file returns what the commands so far have left there. -/
def Obligations.StatusReadIsTheAcquire : Prop :=
  ∀ (s : State) (a : Addr) (rest : List Event), s.busy = false → s.hitsRegFile ⟨a, 1⟩ = false →
    s.sched = .host (.regRead 0x04#8 .word) :: .host (.memRead a) :: rest →
    ∃ t, step s = .next t ∧ t.rdata.toNat % 2 = 0 ∧
      step t = .next { t with sched := rest, rdata := (s.byte a).setWidth 32 }

/-- R60, R197: while a command runs, the ranges R56 gives it (`State.buffersOf`, spelt out in CmdWriteLaunches) are held, whatever steps were taken since its launch, so
that BufferHazardIsRefused speaks of them: an invariant of every step. -/
def Obligations.RunningCommandHoldsItsBuffers : Prop :=
  ∀ s t : State, s.Inv → s.HeldOk → step s = .next t → t.HeldOk

/-! ### Where a command is refused or stuck -/

/-- R50: a command that finds its context and would touch the register file, where the platform shows it in memory, is
refused by name. That the check comes after those that need no memory, and after PrimCreate, is log entry 14 (the
model's choice). -/
def Obligations.RegisterFileOverlapIsRefused : Prop :=
  ∀ (s : State) (h : Nat) (d : Dir),
    (s.ctxOk h = true → s.hitsRegFile s.ivRange = true → exec (.setIv h d) s = .refused .registerFileOverlap) ∧
    (s.ctxOk h = true → (s.slot h).prim = true ∨ s.answers.head? = some .ok →
      s.hitsRegFile (s.keySaltRange (s.slot h).keySize) = true →
      exec (.contextInit h d) s = .refused .registerFileOverlap) ∧
    (∀ i, IsCrypt i h → s.cryptRuns h = true → s.hitsRegFile s.srcRange = true ∨ s.hitsRegFile s.dstRange = true →
      exec i s = .refused .registerFileOverlap)

/-- R180, R91, R92: CONTEXT_INIT and SET_IV whose transaction on the primitive port is never answered are stuck. That
the effects before the transaction stay, and that no handle of the primitive changes, are log entries 12 and 5
(DEDUCED). -/
def Obligations.SilentTransactionIsStuck : Prop :=
  ∀ (s : State) (h : Nat) (d : Dir), s.answers.head? = some .silent →
    (s.ctxOk h = true → (s.slot h).prim = false →
      exec (.contextInit h d) s = .next { s with
        port := s.port ++ [.create h], answers := s.answers.tail, busy := true, hung := true }) ∧
    (s.ivAdmitted h → (s.slot h).prim = true →
      let c := { s.slot h with counter := (s.slot h).offset ^^^ s.iv, ksbuf := 0#128, kavail := 0#4 }
      exec (.setIv h d) s = .next { s.setSlot h c with
        port := s.port ++ [.program h c.keyBytes c.keySize c.counter .enc], answers := s.answers.tail
        busy := true, hung := true })

/-- R63, R135: ENCRYPT and DECRYPT whose byte `p` is the first the platform does not admit, to read or to write: stuck
with the first `p` bytes transformed, no register and no code written, the keystream byte of `p` used up. That these
effects stay is log entry 12 (DEDUCED). When source and destination overlap in part the destination is free (R57, log
entry 9). -/
def Obligations.UnadmittedByteIsStuck : Prop :=
  ∀ (i : Instr) (h p : Nat) (s : State), IsCrypt i h → s.Inv → s.hung = false → s.cryptRuns h = true →
    s.hitsRegFile s.srcRange = false → s.hitsRegFile s.dstRange = false →
    let n := s.regs.slen.toNat
    let c := s.slot h
    p < n → s.admitsBytes .read s.regs.src p = true → s.admitsBytes .write s.regs.dst p = true →
    (s.admits .read (byteAddr s.regs.src p) 1 = false ∨ s.admits .write (byteAddr s.regs.dst p) 1 = false) →
    s.primOks (blocksNeeded (p + 1) c.kavail.toNat) →
    ∃ t, exec i s = .next t ∧ t.busy = true ∧ t.hung = true ∧ t.code = s.code ∧ t.regs = s.regs ∧
      t.slot h = c.afterKeystream s.plat.cipher (p + 1) ∧
      t.port = s.port ++ c.blockTxns h (blocksNeeded (p + 1) c.kavail.toNat) ∧
      (∀ a, s.dstRange.covers a = false → t.byte a = s.byte a) ∧
      (partialOverlap s.regs.src s.regs.dst n = false →
        (∀ j < p, t.byte (byteAddr s.regs.dst j) =
          s.byte (byteAddr s.regs.src j) ^^^ c.keystreamByte s.plat.cipher j) ∧
        (∀ a, Range.covers ⟨s.regs.dst, p⟩ a = false → t.byte a = s.byte a))

/-- R180, R135: ENCRYPT and DECRYPT whose block request number `q + 1` is never answered are stuck with the bytes of the
residue and of `q` blocks transformed and no register and no code written. That these effects stay is log entry 12
(DEDUCED). -/
def Obligations.SilentBlockRequestIsStuck : Prop :=
  ∀ (i : Instr) (h q : Nat) (s : State) (rest : List PrimAnswer), IsCrypt i h → s.Inv → s.hung = false →
    s.cryptAdmitted h →
    let n := s.regs.slen.toNat
    let c := s.slot h
    let p := min n c.kavail.toNat + 16 * q
    q < blocksNeeded n c.kavail.toNat → s.answers = List.replicate q .ok ++ .silent :: rest →
    ∃ t, exec i s = .next t ∧ t.busy = true ∧ t.hung = true ∧ t.code = s.code ∧ t.regs = s.regs ∧
      t.slot h = c.afterKeystream s.plat.cipher p ∧ t.port = s.port ++ c.blockTxns h (q + 1) ∧
      (∀ a, s.dstRange.covers a = false → t.byte a = s.byte a) ∧
      (partialOverlap s.regs.src s.regs.dst n = false →
        (∀ j < p, t.byte (byteAddr s.regs.dst j) =
          s.byte (byteAddr s.regs.src j) ^^^ c.keystreamByte s.plat.cipher j) ∧
        (∀ a, Range.covers ⟨s.regs.dst, p⟩ a = false → t.byte a = s.byte a))
end

