-- ==== Sys2Proof/Laws/Bytes.lean ====
section
/-! SUPPORT. The bytes of wide values (spec/00_scope.md R7), the XOR unit (spec/43_set_iv.md R122) and the counter
increment (spec/44_keystream.md R130). -/

namespace Sys2Proof.Machine

theorem byteAt_eq_ofNat {w : Nat} (v : BitVec w) (j : Nat) :
    byteAt v j = BitVec.ofNat 8 (v.toNat / 256 ^ (w / 8 - (j + 1))) ∨ w % 8 ≠ 0 ∨ w < 8 * (j + 1) := by
  by_cases h : w % 8 = 0 ∧ 8 * (j + 1) ≤ w
  · left
    have e : w - 8 * (j + 1) = 8 * (w / 8 - (j + 1)) := by omega
    simp only [byteAt, BitVec.extractLsb', e, Nat.shiftRight_eq_div_pow, Nat.pow_mul]
  · right; omega

/-- XOR is byte-wise: 128 independent bits (R7, R122). -/
theorem byteAt_xor {w : Nat} (a b : BitVec w) (j : Nat) : byteAt (a ^^^ b) j = byteAt a j ^^^ byteAt b j := by
  apply BitVec.eq_of_getLsbD_eq
  intro i hi
  simp [byteAt, BitVec.getLsbD_xor, hi]

theorem natOfBytes_append (l : List Byte) (b : Byte) : natOfBytes (l ++ [b]) = natOfBytes l * 256 + b.toNat := by
  simp [natOfBytes, List.foldl_append]

theorem natOfBytes_lt (l : List Byte) : natOfBytes l < 256 ^ l.length := by
  induction l using List.reverseRecOn with
  | nil => simp [natOfBytes]
  | append_singleton l b ih =>
    rw [natOfBytes_append, List.length_append, List.length_singleton, Nat.pow_succ]
    have := b.isLt
    omega

/-- Byte `j` of the number a byte sequence spells, the first byte the most significant. -/
theorem natOfBytes_byte (l : List Byte) (j : Nat) (hj : j < l.length) :
    BitVec.ofNat 8 (natOfBytes l / 256 ^ (l.length - (j + 1))) = l[j] := by
  induction l using List.reverseRecOn with
  | nil => simp at hj
  | append_singleton l b ih =>
    rw [natOfBytes_append]
    simp only [List.length_append, List.length_singleton] at hj ⊢
    have hb := b.isLt
    by_cases h : j < l.length
    · rw [List.getElem_append_left h, ← ih h]
      have e : l.length + 1 - (j + 1) = (l.length - (j + 1)) + 1 := by omega
      rw [e, Nat.pow_succ, Nat.mul_comm (256 ^ _) 256, ← Nat.div_div_eq_div_mul]
      congr 2
      omega
    · have e : j = l.length := by omega
      subst e
      apply BitVec.eq_of_toNat_eq
      simp
      omega

/-- Byte `j` of the value whose bytes are `l` is the `j`-th of them (R7). -/
theorem byteAt_ofBytes {w : Nat} (l : List Byte) (hw : w = 8 * l.length) (j : Nat) (hj : j < l.length) :
    byteAt (ofBytes w l) j = l[j] := by
  have hlt : natOfBytes l < 2 ^ w := by
    have := natOfBytes_lt l
    rw [hw, Nat.pow_mul]
    exact this
  rcases byteAt_eq_ofNat (ofBytes w l) j with h | h | h
  · rw [h, ofBytes, BitVec.toNat_ofNat, Nat.mod_eq_of_lt hlt]
    have e : w / 8 = l.length := by omega
    rw [e, natOfBytes_byte l j hj]
  · omega
  · omega

@[simp] theorem bytesOf_length {w : Nat} (v : BitVec w) : (bytesOf v).length = w / 8 := by simp [bytesOf]

theorem bytesOf_getElem {w : Nat} (v : BitVec w) (j : Nat) (hj : j < (bytesOf v).length) :
    (bytesOf v)[j] = byteAt v j := by
  simp [bytesOf]

/-- The bytes of the value that `l` spells are `l` (R7). -/
theorem bytesOf_ofBytes {w : Nat} (l : List Byte) (hw : w = 8 * l.length) : bytesOf (ofBytes w l) = l := by
  apply List.ext_getElem
  · simp; omega
  · intro j h1 h2
    rw [bytesOf_getElem, byteAt_ofBytes l hw j h2]

/-- Bit `i` of a value stands in its byte `w/8 - 1 - i/8`. -/
theorem getLsbD_byteAt {w : Nat} (v : BitVec w) (i : Nat) (hw : w % 8 = 0) (hi : i < w) :
    v.getLsbD i = (byteAt v (w / 8 - 1 - i / 8)).getLsbD (i % 8) := by
  have e : w - 8 * (w / 8 - 1 - i / 8 + 1) + i % 8 = i := by omega
  simp only [byteAt, BitVec.getLsbD_extractLsb', e]
  simp [Nat.mod_lt]

/-- Two values with the same bytes are equal (R7). -/
theorem eq_of_byteAt_eq {w : Nat} (a b : BitVec w) (hw : w % 8 = 0)
    (h : ∀ j < w / 8, byteAt a j = byteAt b j) : a = b := by
  apply BitVec.eq_of_getLsbD_eq
  intro i hi
  rw [getLsbD_byteAt a i hw hi, getLsbD_byteAt b i hw hi, h _ (by omega)]

/-- The value that the bytes of `v` spell is `v` (R7). -/
theorem ofBytes_bytesOf {w : Nat} (v : BitVec w) (hw : w % 8 = 0) : ofBytes w (bytesOf v) = v := by
  apply eq_of_byteAt_eq _ _ hw
  intro j hj
  have hl : (bytesOf v).length = w / 8 := bytesOf_length v
  rw [byteAt_ofBytes (bytesOf v) (by omega) j (by omega), bytesOf_getElem]

/-- The bytes of the salt block: the salt, then two zero bytes (R111 steps 2 and 3). -/
theorem bytesOf_saltBlock (salt : List Byte) (h : salt.length = 14) : bytesOf (saltBlock salt) = salt ++ [0#8, 0#8] :=
  bytesOf_ofBytes _ (by simp [h])

/-- The bytes of a key buffer after a key is stored (R111 step 5). -/
theorem bytesOf_storeKey (old : KeyBuf) (kb : List Byte) (h : kb.length ≤ 32) :
    bytesOf (storeKey old kb) = kb ++ (bytesOf old).drop kb.length :=
  bytesOf_ofBytes _ (by simp; omega)

/-- The block-counter field after `inc16` (R130). -/
theorem inc16_low (c : Block) : (inc16 c).extractLsb' 0 16 = c.extractLsb' 0 16 + 1#16 := by
  apply BitVec.eq_of_getLsbD_eq
  intro i hi
  simp only [inc16, BitVec.getLsbD_extractLsb', Nat.zero_add]
  rw [BitVec.getLsbD_append]
  simp [hi]

/-- Bytes 0 to 13 after `inc16` (R130). -/
theorem inc16_high (c : Block) : (inc16 c).extractLsb' 16 112 = c.extractLsb' 16 112 := by
  apply BitVec.eq_of_getLsbD_eq
  intro i hi
  simp only [inc16, BitVec.getLsbD_extractLsb']
  rw [BitVec.getLsbD_append]
  simp [hi]

/-- A block is its bytes 0 to 13 and its block-counter field. -/
theorem block_ext (a b : Block) (hh : a.extractLsb' 16 112 = b.extractLsb' 16 112)
    (hl : a.extractLsb' 0 16 = b.extractLsb' 0 16) : a = b := by
  apply BitVec.eq_of_getLsbD_eq
  intro i hi
  by_cases h : i < 16
  · simpa [h] using congrArg (fun v => v.getLsbD i) hl
  · have := congrArg (fun v => v.getLsbD (i - 16)) hh
    simpa [show i - 16 < 112 by omega, show 16 + (i - 16) = i by omega] using this

theorem inc16Iter_high (m : Nat) (c : Block) : (inc16Iter m c).extractLsb' 16 112 = c.extractLsb' 16 112 := by
  induction m generalizing c with
  | zero => rfl
  | succ m ih => rw [inc16Iter, ih, inc16_high]

/-- `inc16^m` adds `m` to the field modulo 2^16 (R130). -/
theorem inc16Iter_low (m : Nat) (c : Block) :
    (inc16Iter m c).extractLsb' 0 16 = c.extractLsb' 0 16 + BitVec.ofNat 16 m := by
  induction m generalizing c with
  | zero => simp [inc16Iter]
  | succ m ih =>
    rw [inc16Iter, ih, inc16_low, BitVec.add_assoc]
    congr 1
    apply BitVec.eq_of_toNat_eq
    simp [Nat.add_comm]

theorem inc16Iter_succ (m : Nat) (c : Block) : inc16Iter (m + 1) c = inc16 (inc16Iter m c) := by
  induction m generalizing c with
  | zero => rfl
  | succ m ih => rw [inc16Iter, ih, inc16Iter]

theorem inc16Iter_add (m n : Nat) (c : Block) : inc16Iter (m + n) c = inc16Iter n (inc16Iter m c) := by
  induction m generalizing c with
  | zero => simp [inc16Iter]
  | succ m ih => rw [Nat.succ_add, inc16Iter, ih, inc16Iter]

end Sys2Proof.Machine
end

