-- ==== Sys2Proof/Laws/State.lean ====
section
/-! SUPPORT. What each named update of the state does to each field, so that no proof unfolds a record update. -/

namespace Sys2Proof.Machine

variable (s : State)

@[simp] theorem State.regs_setSlot (h : Nat) (c : Slot) : (s.setSlot h c).regs = s.regs := by cases h <;> rfl
@[simp] theorem State.busy_setSlot (h : Nat) (c : Slot) : (s.setSlot h c).busy = s.busy := by cases h <;> rfl
@[simp] theorem State.code_setSlot (h : Nat) (c : Slot) : (s.setSlot h c).code = s.code := by cases h <;> rfl
@[simp] theorem State.latch_setSlot (h : Nat) (c : Slot) : (s.setSlot h c).latch = s.latch := by cases h <;> rfl
@[simp] theorem State.held_setSlot (h : Nat) (c : Slot) : (s.setSlot h c).held = s.held := by cases h <;> rfl
@[simp] theorem State.hung_setSlot (h : Nat) (c : Slot) : (s.setSlot h c).hung = s.hung := by cases h <;> rfl
@[simp] theorem State.prims_setSlot (h : Nat) (c : Slot) : (s.setSlot h c).prims = s.prims := by cases h <;> rfl
@[simp] theorem State.mem_setSlot (h : Nat) (c : Slot) : (s.setSlot h c).mem = s.mem := by cases h <;> rfl
@[simp] theorem State.plat_setSlot (h : Nat) (c : Slot) : (s.setSlot h c).plat = s.plat := by cases h <;> rfl
@[simp] theorem State.port_setSlot (h : Nat) (c : Slot) : (s.setSlot h c).port = s.port := by cases h <;> rfl
@[simp] theorem State.rdata_setSlot (h : Nat) (c : Slot) : (s.setSlot h c).rdata = s.rdata := by cases h <;> rfl
@[simp] theorem State.sched_setSlot (h : Nat) (c : Slot) : (s.setSlot h c).sched = s.sched := by cases h <;> rfl
@[simp] theorem State.answers_setSlot (h : Nat) (c : Slot) : (s.setSlot h c).answers = s.answers := by cases h <;> rfl
@[simp] theorem State.draws_setSlot (h : Nat) (c : Slot) : (s.setSlot h c).draws = s.draws := by cases h <;> rfl

@[simp] theorem State.regs_setPrim (h : Nat) (p : PrimHandle) : (s.setPrim h p).regs = s.regs := by cases h <;> rfl
@[simp] theorem State.busy_setPrim (h : Nat) (p : PrimHandle) : (s.setPrim h p).busy = s.busy := by cases h <;> rfl
@[simp] theorem State.code_setPrim (h : Nat) (p : PrimHandle) : (s.setPrim h p).code = s.code := by cases h <;> rfl
@[simp] theorem State.latch_setPrim (h : Nat) (p : PrimHandle) : (s.setPrim h p).latch = s.latch := by cases h <;> rfl
@[simp] theorem State.held_setPrim (h : Nat) (p : PrimHandle) : (s.setPrim h p).held = s.held := by cases h <;> rfl
@[simp] theorem State.hung_setPrim (h : Nat) (p : PrimHandle) : (s.setPrim h p).hung = s.hung := by cases h <;> rfl
@[simp] theorem State.slots_setPrim (h : Nat) (p : PrimHandle) : (s.setPrim h p).slots = s.slots := by cases h <;> rfl
@[simp] theorem State.mem_setPrim (h : Nat) (p : PrimHandle) : (s.setPrim h p).mem = s.mem := by cases h <;> rfl
@[simp] theorem State.plat_setPrim (h : Nat) (p : PrimHandle) : (s.setPrim h p).plat = s.plat := by cases h <;> rfl
@[simp] theorem State.port_setPrim (h : Nat) (p : PrimHandle) : (s.setPrim h p).port = s.port := by cases h <;> rfl
@[simp] theorem State.rdata_setPrim (h : Nat) (p : PrimHandle) : (s.setPrim h p).rdata = s.rdata := by cases h <;> rfl
@[simp] theorem State.sched_setPrim (h : Nat) (p : PrimHandle) : (s.setPrim h p).sched = s.sched := by cases h <;> rfl
@[simp] theorem State.answers_setPrim (h : Nat) (p : PrimHandle) : (s.setPrim h p).answers = s.answers := by cases h <;> rfl
@[simp] theorem State.draws_setPrim (h : Nat) (p : PrimHandle) : (s.setPrim h p).draws = s.draws := by cases h <;> rfl

@[simp] theorem State.regs_setHandle (h : Nat) : (s.setHandle h).regs = { s.regs with handle := BitVec.ofNat 8 h } := rfl
@[simp] theorem State.busy_setHandle (h : Nat) : (s.setHandle h).busy = s.busy := rfl
@[simp] theorem State.code_setHandle (h : Nat) : (s.setHandle h).code = s.code := rfl
@[simp] theorem State.latch_setHandle (h : Nat) : (s.setHandle h).latch = s.latch := rfl
@[simp] theorem State.held_setHandle (h : Nat) : (s.setHandle h).held = s.held := rfl
@[simp] theorem State.hung_setHandle (h : Nat) : (s.setHandle h).hung = s.hung := rfl
@[simp] theorem State.slots_setHandle (h : Nat) : (s.setHandle h).slots = s.slots := rfl
@[simp] theorem State.prims_setHandle (h : Nat) : (s.setHandle h).prims = s.prims := rfl
@[simp] theorem State.mem_setHandle (h : Nat) : (s.setHandle h).mem = s.mem := rfl
@[simp] theorem State.plat_setHandle (h : Nat) : (s.setHandle h).plat = s.plat := rfl
@[simp] theorem State.port_setHandle (h : Nat) : (s.setHandle h).port = s.port := rfl
@[simp] theorem State.rdata_setHandle (h : Nat) : (s.setHandle h).rdata = s.rdata := rfl
@[simp] theorem State.sched_setHandle (h : Nat) : (s.setHandle h).sched = s.sched := rfl
@[simp] theorem State.answers_setHandle (h : Nat) : (s.setHandle h).answers = s.answers := rfl
@[simp] theorem State.draws_setHandle (h : Nat) : (s.setHandle h).draws = s.draws := rfl

@[simp] theorem State.regs_setDlen (v : Word) : (s.setDlen v).regs = { s.regs with dlen := v } := rfl
@[simp] theorem State.busy_setDlen (v : Word) : (s.setDlen v).busy = s.busy := rfl
@[simp] theorem State.code_setDlen (v : Word) : (s.setDlen v).code = s.code := rfl
@[simp] theorem State.latch_setDlen (v : Word) : (s.setDlen v).latch = s.latch := rfl
@[simp] theorem State.held_setDlen (v : Word) : (s.setDlen v).held = s.held := rfl
@[simp] theorem State.hung_setDlen (v : Word) : (s.setDlen v).hung = s.hung := rfl
@[simp] theorem State.slots_setDlen (v : Word) : (s.setDlen v).slots = s.slots := rfl
@[simp] theorem State.prims_setDlen (v : Word) : (s.setDlen v).prims = s.prims := rfl
@[simp] theorem State.mem_setDlen (v : Word) : (s.setDlen v).mem = s.mem := rfl
@[simp] theorem State.plat_setDlen (v : Word) : (s.setDlen v).plat = s.plat := rfl
@[simp] theorem State.port_setDlen (v : Word) : (s.setDlen v).port = s.port := rfl
@[simp] theorem State.rdata_setDlen (v : Word) : (s.setDlen v).rdata = s.rdata := rfl
@[simp] theorem State.sched_setDlen (v : Word) : (s.setDlen v).sched = s.sched := rfl
@[simp] theorem State.answers_setDlen (v : Word) : (s.setDlen v).answers = s.answers := rfl
@[simp] theorem State.draws_setDlen (v : Word) : (s.setDlen v).draws = s.draws := rfl

@[simp] theorem State.regs_complete (c : Code) : (s.complete c).regs = s.regs := rfl
@[simp] theorem State.busy_complete (c : Code) : (s.complete c).busy = false := rfl
@[simp] theorem State.code_complete (c : Code) : (s.complete c).code = c := rfl
@[simp] theorem State.latch_complete (c : Code) : (s.complete c).latch = s.latch := rfl
@[simp] theorem State.held_complete (c : Code) : (s.complete c).held = s.held := rfl
@[simp] theorem State.hung_complete (c : Code) : (s.complete c).hung = false := rfl
@[simp] theorem State.slots_complete (c : Code) : (s.complete c).slots = s.slots := rfl
@[simp] theorem State.prims_complete (c : Code) : (s.complete c).prims = s.prims := rfl
@[simp] theorem State.mem_complete (c : Code) : (s.complete c).mem = s.mem := rfl
@[simp] theorem State.plat_complete (c : Code) : (s.complete c).plat = s.plat := rfl
@[simp] theorem State.port_complete (c : Code) : (s.complete c).port = s.port := rfl
@[simp] theorem State.rdata_complete (c : Code) : (s.complete c).rdata = s.rdata := rfl
@[simp] theorem State.sched_complete (c : Code) : (s.complete c).sched = s.sched := rfl
@[simp] theorem State.answers_complete (c : Code) : (s.complete c).answers = s.answers := rfl
@[simp] theorem State.draws_complete (c : Code) : (s.complete c).draws = s.draws := rfl

@[simp] theorem State.regs_hang : s.hang.regs = s.regs := rfl
@[simp] theorem State.busy_hang : s.hang.busy = true := rfl
@[simp] theorem State.code_hang : s.hang.code = s.code := rfl
@[simp] theorem State.latch_hang : s.hang.latch = s.latch := rfl
@[simp] theorem State.held_hang : s.hang.held = s.held := rfl
@[simp] theorem State.hung_hang : s.hang.hung = true := rfl
@[simp] theorem State.slots_hang : s.hang.slots = s.slots := rfl
@[simp] theorem State.prims_hang : s.hang.prims = s.prims := rfl
@[simp] theorem State.mem_hang : s.hang.mem = s.mem := rfl
@[simp] theorem State.plat_hang : s.hang.plat = s.plat := rfl
@[simp] theorem State.port_hang : s.hang.port = s.port := rfl
@[simp] theorem State.rdata_hang : s.hang.rdata = s.rdata := rfl
@[simp] theorem State.sched_hang : s.hang.sched = s.sched := rfl
@[simp] theorem State.answers_hang : s.hang.answers = s.answers := rfl
@[simp] theorem State.draws_hang : s.hang.draws = s.draws := rfl

@[simp] theorem State.regs_drawn : s.drawn.regs = s.regs := rfl
@[simp] theorem State.busy_drawn : s.drawn.busy = s.busy := rfl
@[simp] theorem State.code_drawn : s.drawn.code = s.code := rfl
@[simp] theorem State.latch_drawn : s.drawn.latch = s.latch := rfl
@[simp] theorem State.held_drawn : s.drawn.held = s.held := rfl
@[simp] theorem State.hung_drawn : s.drawn.hung = s.hung := rfl
@[simp] theorem State.slots_drawn : s.drawn.slots = s.slots := rfl
@[simp] theorem State.prims_drawn : s.drawn.prims = s.prims := rfl
@[simp] theorem State.mem_drawn : s.drawn.mem = s.mem := rfl
@[simp] theorem State.plat_drawn : s.drawn.plat = s.plat := rfl
@[simp] theorem State.port_drawn : s.drawn.port = s.port := rfl
@[simp] theorem State.rdata_drawn : s.drawn.rdata = s.rdata := rfl
@[simp] theorem State.sched_drawn : s.drawn.sched = s.sched := rfl
@[simp] theorem State.answers_drawn : s.drawn.answers = s.answers := rfl
@[simp] theorem State.draws_drawn : s.drawn.draws = s.draws + 1 := rfl

@[simp] theorem State.regs_storeByte (a : Addr) (b : Byte) : (s.storeByte a b).regs = s.regs := rfl
@[simp] theorem State.busy_storeByte (a : Addr) (b : Byte) : (s.storeByte a b).busy = s.busy := rfl
@[simp] theorem State.code_storeByte (a : Addr) (b : Byte) : (s.storeByte a b).code = s.code := rfl
@[simp] theorem State.latch_storeByte (a : Addr) (b : Byte) : (s.storeByte a b).latch = s.latch := rfl
@[simp] theorem State.held_storeByte (a : Addr) (b : Byte) : (s.storeByte a b).held = s.held := rfl
@[simp] theorem State.hung_storeByte (a : Addr) (b : Byte) : (s.storeByte a b).hung = s.hung := rfl
@[simp] theorem State.slots_storeByte (a : Addr) (b : Byte) : (s.storeByte a b).slots = s.slots := rfl
@[simp] theorem State.prims_storeByte (a : Addr) (b : Byte) : (s.storeByte a b).prims = s.prims := rfl
@[simp] theorem State.mem_storeByte (a : Addr) (b : Byte) : (s.storeByte a b).mem = Memory.write s.mem a.toNat b := rfl
@[simp] theorem State.plat_storeByte (a : Addr) (b : Byte) : (s.storeByte a b).plat = s.plat := rfl
@[simp] theorem State.port_storeByte (a : Addr) (b : Byte) : (s.storeByte a b).port = s.port := rfl
@[simp] theorem State.rdata_storeByte (a : Addr) (b : Byte) : (s.storeByte a b).rdata = s.rdata := rfl
@[simp] theorem State.sched_storeByte (a : Addr) (b : Byte) : (s.storeByte a b).sched = s.sched := rfl
@[simp] theorem State.answers_storeByte (a : Addr) (b : Byte) : (s.storeByte a b).answers = s.answers := rfl
@[simp] theorem State.draws_storeByte (a : Addr) (b : Byte) : (s.storeByte a b).draws = s.draws := rfl

@[simp] theorem State.regs_issue (t : PrimTxn) : (s.issue t).regs = s.regs := rfl
@[simp] theorem State.busy_issue (t : PrimTxn) : (s.issue t).busy = s.busy := rfl
@[simp] theorem State.code_issue (t : PrimTxn) : (s.issue t).code = s.code := rfl
@[simp] theorem State.latch_issue (t : PrimTxn) : (s.issue t).latch = s.latch := rfl
@[simp] theorem State.held_issue (t : PrimTxn) : (s.issue t).held = s.held := rfl
@[simp] theorem State.hung_issue (t : PrimTxn) : (s.issue t).hung = s.hung := rfl
@[simp] theorem State.slots_issue (t : PrimTxn) : (s.issue t).slots = s.slots := rfl
@[simp] theorem State.prims_issue (t : PrimTxn) : (s.issue t).prims = s.prims := rfl
@[simp] theorem State.mem_issue (t : PrimTxn) : (s.issue t).mem = s.mem := rfl
@[simp] theorem State.plat_issue (t : PrimTxn) : (s.issue t).plat = s.plat := rfl
@[simp] theorem State.port_issue (t : PrimTxn) : (s.issue t).port = s.port ++ [t] := rfl
@[simp] theorem State.rdata_issue (t : PrimTxn) : (s.issue t).rdata = s.rdata := rfl
@[simp] theorem State.sched_issue (t : PrimTxn) : (s.issue t).sched = s.sched := rfl
@[simp] theorem State.answers_issue (t : PrimTxn) : (s.issue t).answers = s.answers := rfl
@[simp] theorem State.draws_issue (t : PrimTxn) : (s.issue t).draws = s.draws := rfl

@[simp] theorem State.regs_answered : s.answered.regs = s.regs := by unfold State.answered; split <;> rfl
@[simp] theorem State.busy_answered : s.answered.busy = s.busy := by unfold State.answered; split <;> rfl
@[simp] theorem State.code_answered : s.answered.code = s.code := by unfold State.answered; split <;> rfl
@[simp] theorem State.latch_answered : s.answered.latch = s.latch := by unfold State.answered; split <;> rfl
@[simp] theorem State.held_answered : s.answered.held = s.held := by unfold State.answered; split <;> rfl
@[simp] theorem State.hung_answered : s.answered.hung = s.hung := by unfold State.answered; split <;> rfl
@[simp] theorem State.slots_answered : s.answered.slots = s.slots := by unfold State.answered; split <;> rfl
@[simp] theorem State.prims_answered : s.answered.prims = s.prims := by unfold State.answered; split <;> rfl
@[simp] theorem State.mem_answered : s.answered.mem = s.mem := by unfold State.answered; split <;> rfl
@[simp] theorem State.plat_answered : s.answered.plat = s.plat := by unfold State.answered; split <;> rfl
@[simp] theorem State.port_answered : s.answered.port = s.port := by unfold State.answered; split <;> rfl
@[simp] theorem State.rdata_answered : s.answered.rdata = s.rdata := by unfold State.answered; split <;> rfl
@[simp] theorem State.sched_answered : s.answered.sched = s.sched := by unfold State.answered; split <;> rfl

@[simp] theorem State.regs_setRdata (v : Word) : (s.setRdata v).regs = s.regs := rfl
@[simp] theorem State.busy_setRdata (v : Word) : (s.setRdata v).busy = s.busy := rfl
@[simp] theorem State.code_setRdata (v : Word) : (s.setRdata v).code = s.code := rfl
@[simp] theorem State.latch_setRdata (v : Word) : (s.setRdata v).latch = s.latch := rfl
@[simp] theorem State.held_setRdata (v : Word) : (s.setRdata v).held = s.held := rfl
@[simp] theorem State.hung_setRdata (v : Word) : (s.setRdata v).hung = s.hung := rfl
@[simp] theorem State.slots_setRdata (v : Word) : (s.setRdata v).slots = s.slots := rfl
@[simp] theorem State.prims_setRdata (v : Word) : (s.setRdata v).prims = s.prims := rfl
@[simp] theorem State.mem_setRdata (v : Word) : (s.setRdata v).mem = s.mem := rfl
@[simp] theorem State.plat_setRdata (v : Word) : (s.setRdata v).plat = s.plat := rfl
@[simp] theorem State.port_setRdata (v : Word) : (s.setRdata v).port = s.port := rfl
@[simp] theorem State.rdata_setRdata (v : Word) : (s.setRdata v).rdata = v := rfl
@[simp] theorem State.sched_setRdata (v : Word) : (s.setRdata v).sched = s.sched := rfl
@[simp] theorem State.answers_setRdata (v : Word) : (s.setRdata v).answers = s.answers := rfl
@[simp] theorem State.draws_setRdata (v : Word) : (s.setRdata v).draws = s.draws := rfl

@[simp] theorem State.regs_launch (w : Word) : (s.launch w).regs = s.regs := rfl
@[simp] theorem State.busy_launch (w : Word) : (s.launch w).busy = true := rfl
@[simp] theorem State.code_launch (w : Word) : (s.launch w).code = s.code := rfl
@[simp] theorem State.latch_launch (w : Word) : (s.launch w).latch = w := rfl
@[simp] theorem State.held_launch (w : Word) : (s.launch w).held = s.held.add (s.buffersOf w) := rfl
@[simp] theorem State.hung_launch (w : Word) : (s.launch w).hung = false := rfl
@[simp] theorem State.slots_launch (w : Word) : (s.launch w).slots = s.slots := rfl
@[simp] theorem State.prims_launch (w : Word) : (s.launch w).prims = s.prims := rfl
@[simp] theorem State.mem_launch (w : Word) : (s.launch w).mem = s.mem := rfl
@[simp] theorem State.plat_launch (w : Word) : (s.launch w).plat = s.plat := rfl
@[simp] theorem State.port_launch (w : Word) : (s.launch w).port = s.port := rfl
@[simp] theorem State.rdata_launch (w : Word) : (s.launch w).rdata = s.rdata := rfl
@[simp] theorem State.sched_launch (w : Word) : (s.launch w).sched = s.sched := rfl
@[simp] theorem State.answers_launch (w : Word) : (s.launch w).answers = s.answers := rfl
@[simp] theorem State.draws_launch (w : Word) : (s.launch w).draws = s.draws := rfl

end Sys2Proof.Machine
end

