-- ==== Sys2Proof/Laws/Memory.lean ====
section
/-! SUPPORT. Reads after writes, the canonical form of memory, and buffer addresses (spec/20_memory.md R51, R52, R57). -/

namespace Sys2Proof.Machine

/-- No byte is listed below the address the canonical form starts at. -/
theorem Memory.read_below (m : Memory) (lo a : Nat) (hm : Memory.wfFrom lo m = true) (ha : a < lo) :
    Memory.read m a = 0#8 := by
  induction m generalizing lo with
  | nil => rfl
  | cons c rest ih =>
    obtain ⟨k, v⟩ := c
    simp only [Memory.wfFrom, Bool.and_eq_true, decide_eq_true_eq] at hm
    rw [Memory.read, if_neg (by omega)]
    exact ih (k + 1) hm.2 (by omega)

/-- What an address reads after a write, in the canonical form. -/
theorem Memory.read_write_from (m : Memory) (lo a b : Nat) (v : Byte) (hm : Memory.wfFrom lo m = true) :
    Memory.read (Memory.write m a v) b = if b = a then v else Memory.read m b := by
  induction m generalizing lo with
  | nil =>
    by_cases hv : v = 0#8 <;> simp [Memory.write, Memory.read, hv, eq_comm]
  | cons c rest ih =>
    obtain ⟨k, x⟩ := c
    simp only [Memory.wfFrom, Bool.and_eq_true, decide_eq_true_eq] at hm
    have below := Memory.read_below rest (k + 1)
    rcases Nat.lt_trichotomy k a with h | rfl | h
    · rw [Memory.write, if_pos h, Memory.read, Memory.read, ih (k + 1) hm.2]
      split_ifs <;> first | rfl | omega
    · rw [Memory.write, if_neg (Nat.lt_irrefl k), if_pos rfl, Memory.read]
      by_cases hv : v = 0#8
      · rw [if_pos hv]
        by_cases hb : b = k
        · rw [if_pos hb, hb, hv, below k hm.2 (by omega)]
        · rw [if_neg hb, if_neg (Ne.symm hb)]
      · rw [if_neg hv, Memory.read]
        split_ifs <;> first | rfl | omega
    · rw [Memory.write, if_neg (by omega), if_neg (by omega)]
      by_cases hv : v = 0#8
      · rw [if_pos hv]
        by_cases hb : b = a
        · rw [if_pos hb, hb, hv, Memory.read, if_neg (by omega), below a hm.2 (by omega)]
        · rw [if_neg hb]
      · rw [if_neg hv, Memory.read]
        split_ifs <;> first | rfl | omega

/-- The canonical form from an address on is one from any lower address on. -/
theorem Memory.wfFrom_mono {m : Memory} {lo hi : Nat} (hm : Memory.wfFrom hi m = true) (h : lo ≤ hi) :
    Memory.wfFrom lo m = true := by
  cases m with
  | nil => rfl
  | cons c rest =>
    obtain ⟨k, x⟩ := c
    simp only [Memory.wfFrom, Bool.and_eq_true, decide_eq_true_eq] at hm ⊢
    exact ⟨⟨⟨by omega, hm.1.1.2⟩, hm.1.2⟩, hm.2⟩

/-- A write keeps the canonical form. -/
theorem Memory.wfFrom_write (m : Memory) (lo a : Nat) (v : Byte) (hm : Memory.wfFrom lo m = true) (hlo : lo ≤ a)
    (ha : a < Config.addrSpace) : Memory.wfFrom lo (Memory.write m a v) = true := by
  induction m generalizing lo with
  | nil => by_cases hv : v = 0#8 <;> simp [Memory.write, Memory.wfFrom, hv, hlo, ha]
  | cons c rest ih =>
    obtain ⟨k, x⟩ := c
    have h0 := hm
    simp only [Memory.wfFrom, Bool.and_eq_true, decide_eq_true_eq] at hm
    unfold Memory.write
    split_ifs with h1 h2 h3 h4
    · simp only [Memory.wfFrom, Bool.and_eq_true, decide_eq_true_eq]
      exact ⟨hm.1, ih (k + 1) hm.2 (by omega)⟩
    · exact Memory.wfFrom_mono hm.2 (by omega)
    · subst h2
      simp only [Memory.wfFrom, Bool.and_eq_true, decide_eq_true_eq]
      exact ⟨⟨⟨hm.1.1.1, hm.1.1.2⟩, h3⟩, hm.2⟩
    · exact h0
    · simp only [Memory.wfFrom, Bool.and_eq_true, decide_eq_true_eq]
      exact ⟨⟨⟨hlo, ha⟩, h4⟩, ⟨⟨⟨by omega, hm.1.1.2⟩, hm.1.2⟩, hm.2⟩⟩

/-- A byte of memory after one is stored. -/
theorem State.byte_storeByte (s : State) (hm : Memory.wf s.mem = true) (a b : Addr) (v : Byte) :
    (s.storeByte a v).byte b = if b = a then v else s.byte b := by
  simp only [State.byte, State.mem_storeByte, Memory.read_write_from s.mem 0 a.toNat b.toNat v hm, BitVec.toNat_inj]

/-- Storing a byte keeps the canonical form. -/
theorem State.wf_storeByte (s : State) (hm : Memory.wf s.mem = true) (a : Addr) (v : Byte) :
    Memory.wf (s.storeByte a v).mem = true :=
  Memory.wfFrom_write s.mem 0 a.toNat v hm (Nat.zero_le _) a.isLt

theorem State.byte_congr {s t : State} (h : t.mem = s.mem) (a : Addr) : t.byte a = s.byte a := by
  simp only [State.byte, h]

theorem State.bytes_congr {s t : State} (h : t.mem = s.mem) (a : Addr) (n : Nat) : t.bytes a n = s.bytes a n := by
  simp only [State.bytes, State.byte, h]

theorem State.admits_congr {s t : State} (h : t.plat = s.plat) (k : Access) (a : Addr) (n : Nat) :
    t.admits k a n = s.admits k a n := by
  simp only [State.admits, h]

theorem State.admitsBytes_congr {s t : State} (h : t.plat = s.plat) (k : Access) (a : Addr) (n : Nat) :
    t.admitsBytes k a n = s.admitsBytes k a n := by
  simp only [State.admitsBytes, State.admits, h]

theorem State.memRead_congr {s t : State} (hm : t.mem = s.mem) (hp : t.plat = s.plat) (a : Addr) (n : Nat) :
    t.memRead a n = s.memRead a n := by
  simp only [State.memRead, State.bytes_congr hm, State.admits_congr hp]

theorem State.hitsRegFile_congr {s t : State} (hp : t.plat = s.plat) (r : Range) :
    t.hitsRegFile r = s.hitsRegFile r := by
  simp only [State.hitsRegFile, hp]

/-- What a MemRead answers: the bytes of an admitted range, nothing otherwise (R51, R63). -/
theorem State.memRead_eq_some {s : State} {a : Addr} {n : Nat} {l : List Byte} (h : s.memRead a n = some l) :
    s.admits .read a n = true ∧ l = s.bytes a n := by
  simp only [State.memRead] at h
  split_ifs at h with hr
  exact ⟨hr, by simpa using h.symm⟩

@[simp] theorem State.bytes_length (s : State) (a : Addr) (n : Nat) : (s.bytes a n).length = n := by
  simp [State.bytes]

/-- Two bytes of one buffer lie at different addresses. -/
theorem byteAddr_inj {base : Addr} {i j : Nat} (hi : i < 2 ^ 32) (hj : j < 2 ^ 32)
    (h : byteAddr base i = byteAddr base j) : i = j := by
  have h2 : BitVec.ofNat 32 i = BitVec.ofNat 32 j := by simpa [byteAddr] using h
  have h3 := congrArg BitVec.toNat h2
  rw [BitVec.toNat_ofNat, BitVec.toNat_ofNat, Nat.mod_eq_of_lt hi, Nat.mod_eq_of_lt hj] at h3
  exact h3

/-- The addresses of a range are those of its bytes. -/
theorem Range.covers_iff (base : Addr) (n : Nat) (hn : n ≤ 2 ^ 32) (a : Addr) :
    (Range.covers ⟨base, n⟩ a = true) ↔ ∃ i < n, a = byteAddr base i := by
  simp only [Range.covers, decide_eq_true_eq, byteAddr]
  constructor
  · intro h
    refine ⟨(a - base).toNat, h, ?_⟩
    rw [BitVec.ofNat_toNat, BitVec.setWidth_eq, BitVec.add_comm, BitVec.sub_add_cancel]
  · rintro ⟨i, hi, rfl⟩
    have : (base + BitVec.ofNat 32 i - base) = BitVec.ofNat 32 i := by
      rw [BitVec.add_comm, BitVec.add_sub_cancel]
    rw [this, BitVec.toNat_ofNat, Nat.mod_eq_of_lt (by omega)]
    exact hi

/-- Two ranges overlap exactly when some address belongs to both (R57). -/
theorem Range.overlaps_iff (r q : Range) (hr : r.len ≤ 2 ^ 32) (hq : q.len ≤ 2 ^ 32) :
    r.overlaps q = true ↔ ∃ a, r.covers a = true ∧ q.covers a = true := by
  obtain ⟨b1, n1⟩ := r
  obtain ⟨b2, n2⟩ := q
  simp only [Range.overlaps, Range.covers, Bool.and_eq_true, Bool.or_eq_true, decide_eq_true_eq] at *
  constructor
  · rintro ⟨⟨h1, h2⟩, h | h⟩
    · exact ⟨b2, h, by simpa using h2⟩
    · exact ⟨b1, by simpa using h1, h⟩
  · rintro ⟨a, h1, h2⟩
    refine ⟨⟨by omega, by omega⟩, ?_⟩
    bv_omega

end Sys2Proof.Machine
end

