-- ==== Sys2Proof/Laws/Slots.lean ====
section
/-! SUPPORT. Reading a slot or a primitive handle after an update of the state. -/

namespace Sys2Proof.Machine

variable (s : State)

theorem State.nctx_setSlot (h : Nat) (c : Slot) : (s.setSlot h c).nctx = s.nctx := by
  cases h <;> simp [State.setSlot, State.nctx]

/-- A slot depends on the list of slots alone. -/
theorem State.slot_congr {s t : State} (hs : t.slots = s.slots) (h : Nat) : t.slot h = s.slot h := by
  cases h <;> simp [State.slot, hs]

/-- A primitive handle depends on the list of handles alone. -/
theorem State.primOf_congr {s t : State} (hs : t.prims = s.prims) (h : Nat) : t.primOf h = s.primOf h := by
  cases h <;> simp [State.primOf, hs]

/-- Writing a slot that exists and reading it back. -/
theorem State.slot_setSlot_same {h : Nat} (h1 : 1 ≤ h) (h2 : h ≤ s.nctx) (c : Slot) :
    (s.setSlot h c).slot h = c := by
  obtain ⟨k, rfl⟩ := Nat.exists_eq_add_of_le' h1
  have hk : k < s.slots.length := h2
  simp [State.slot, State.setSlot, List.getD, hk]

/-- Writing a slot leaves every other slot alone. -/
theorem State.slot_setSlot_ne {h j : Nat} (hne : j ≠ h) (c : Slot) : (s.setSlot h c).slot j = s.slot j := by
  cases h with
  | zero => rfl
  | succ k =>
    cases j with
    | zero => rfl
    | succ l =>
      have : k ≠ l := fun e => hne (by rw [e])
      simp [State.slot, State.setSlot, List.getD, this]

/-- Updating a handle that exists and reading it back. -/
theorem State.primOf_setPrim_same {h : Nat} (h1 : 1 ≤ h) (h2 : h ≤ s.prims.length) (p : PrimHandle) :
    (s.setPrim h p).primOf h = p := by
  obtain ⟨k, rfl⟩ := Nat.exists_eq_add_of_le' h1
  have hk : k < s.prims.length := h2
  simp [State.primOf, State.setPrim, List.getD, hk]

/-- Updating a handle leaves every other handle alone. -/
theorem State.primOf_setPrim_ne {h j : Nat} (hne : j ≠ h) (p : PrimHandle) :
    (s.setPrim h p).primOf j = s.primOf j := by
  cases h with
  | zero => rfl
  | succ k =>
    cases j with
    | zero => rfl
    | succ l =>
      have : k ≠ l := fun e => hne (by rw [e])
      simp [State.primOf, State.setPrim, List.getD, this]

/-- Two writes of one slot: the second stays. -/
theorem State.setSlot_setSlot_same (h : Nat) (c d : Slot) : (s.setSlot h c).setSlot h d = s.setSlot h d := by
  cases h <;> simp [State.setSlot]

/-- Writes of two slots commute. -/
theorem State.setSlot_comm {h j : Nat} (hne : h ≠ j) (c d : Slot) :
    (s.setSlot h c).setSlot j d = (s.setSlot j d).setSlot h c := by
  cases h with
  | zero => rfl
  | succ k =>
    cases j with
    | zero => rfl
    | succ l =>
      have : k ≠ l := fun e => hne (by rw [e])
      simp [State.setSlot, List.set_comm _ _ this]

/-- What it takes for a handle to pass `CheckCtx` (R102). -/
theorem State.ctxOk_iff (h : Nat) : s.ctxOk h = true ↔ 1 ≤ h ∧ h ≤ s.nctx ∧ (s.slot h).phase ≠ .free := by
  simp [State.ctxOk, Nat.one_le_iff_ne_zero, and_assoc]

@[simp] theorem State.slot_setPrim (h : Nat) (p : PrimHandle) (j : Nat) : (s.setPrim h p).slot j = s.slot j :=
  State.slot_congr (by simp) j

@[simp] theorem State.slot_setHandle (h j : Nat) : (s.setHandle h).slot j = s.slot j := State.slot_congr rfl j

@[simp] theorem State.slot_setDlen (v : Word) (j : Nat) : (s.setDlen v).slot j = s.slot j := State.slot_congr rfl j

@[simp] theorem State.slot_complete (c : Code) (j : Nat) : (s.complete c).slot j = s.slot j := State.slot_congr rfl j

@[simp] theorem State.slot_hang (j : Nat) : s.hang.slot j = s.slot j := State.slot_congr rfl j

@[simp] theorem State.slot_drawn (j : Nat) : s.drawn.slot j = s.slot j := State.slot_congr rfl j

@[simp] theorem State.slot_storeByte (a : Addr) (b : Byte) (j : Nat) : (s.storeByte a b).slot j = s.slot j :=
  State.slot_congr rfl j

@[simp] theorem State.slot_issue (t : PrimTxn) (j : Nat) : (s.issue t).slot j = s.slot j := State.slot_congr rfl j

@[simp] theorem State.slot_answered (j : Nat) : s.answered.slot j = s.slot j := State.slot_congr (by simp) j

@[simp] theorem State.primOf_setSlot (h : Nat) (c : Slot) (j : Nat) : (s.setSlot h c).primOf j = s.primOf j :=
  State.primOf_congr (by simp) j

@[simp] theorem State.primOf_complete (c : Code) (j : Nat) : (s.complete c).primOf j = s.primOf j :=
  State.primOf_congr rfl j

@[simp] theorem State.primOf_drawn (j : Nat) : s.drawn.primOf j = s.primOf j := State.primOf_congr rfl j

@[simp] theorem State.primOf_storeByte (a : Addr) (b : Byte) (j : Nat) : (s.storeByte a b).primOf j = s.primOf j :=
  State.primOf_congr rfl j

@[simp] theorem State.primOf_issue (t : PrimTxn) (j : Nat) : (s.issue t).primOf j = s.primOf j :=
  State.primOf_congr rfl j

@[simp] theorem State.primOf_answered (j : Nat) : s.answered.primOf j = s.primOf j := State.primOf_congr (by simp) j

end Sys2Proof.Machine
end

