-- ==== Sys2Proof/Laws/Port.lean ====
section
/-! SUPPORT. Everything a transaction on the primitive port can do (spec/40_primitive_port.md R91 to R94). -/

namespace Sys2Proof.Machine

/-- Everything `PrimCreate` can do (R91). -/
theorem State.primCreate_cases (s : State) (h : Nat) :
    let t := (s.issue (.create h)).answered
    ((s.issue (.create h)).answer = .ok ∧ s.primCreate h = .ok () (t.setPrim h .created)) ∨
    ((s.issue (.create h)).answer = .fail ∧ s.primCreate h = .fail t) ∨
    ((s.issue (.create h)).answer = .silent ∧ s.primCreate h = .silent t) := by
  simp only [State.primCreate]
  cases (s.issue (.create h)).answer <;> simp

/-- Everything `PrimProgram` can do (R92). -/
theorem State.primProgram_cases (s : State) (h : Nat) (key : List Byte) (n : Nat) (c : Block) :
    let u := s.issue (.program h key n c .enc)
    (u.answer = .ok ∧ s.primProgram h key n c = .ok () (u.answered.setPrim h (.programmed key))) ∨
    (u.answer = .fail ∧ s.primProgram h key n c = .fail u.answered) ∨
    (u.answer = .silent ∧ s.primProgram h key n c = .silent u.answered) := by
  simp only [State.primProgram]
  cases (s.issue (.program h key n c .enc)).answer <;> simp

/-- Everything `PrimBlock` can do on a programmed handle (R93). -/
theorem State.primBlock_cases {s : State} {h : Nat} {key : List Byte} (hk : s.primOf h = .programmed key) (c : Block) :
    let u := s.issue (.block h c)
    (u.answer = .ok ∧ s.primBlock h c = some (.ok (cipherFn s.plat.cipher key c) u.answered)) ∨
    (u.answer = .fail ∧ s.primBlock h c = some (.fail u.answered)) ∨
    (u.answer = .silent ∧ s.primBlock h c = some (.silent u.answered)) := by
  simp only [State.primBlock, hk]
  cases (s.issue (.block h c)).answer <;> simp

/-- `PrimBlock` has no meaning on a handle that is not programmed, and only there (R93). -/
theorem State.primBlock_eq_none {s : State} {h : Nat} {c : Block} :
    s.primBlock h c = none ↔ ∀ key, s.primOf h ≠ .programmed key := by
  unfold State.primBlock
  cases hp : s.primOf h with
  | absent => simp
  | created => simp
  | programmed key =>
    simp only [ne_eq, PrimHandle.programmed.injEq, forall_eq', iff_false]
    cases (s.issue (.block h c)).answer <;> simp

/-- The answer when one is listed (R96). -/
theorem State.answer_cons {s : State} {a : PrimAnswer} {rest : List PrimAnswer} (h : s.answers = a :: rest) :
    s.answer = a := by
  simp [State.answer, h]

/-- The answers left when one is listed. -/
theorem State.answered_cons {s : State} {a : PrimAnswer} {rest : List PrimAnswer} (h : s.answers = a :: rest) :
    s.answered.answers = rest ∧ s.answered.draws = s.draws := by
  simp [State.answered, h]

end Sys2Proof.Machine
end

