-- ==== Sys2Proof/Laws/Loop.lean ====
section
/-! SUPPORT. Everything the keystream loop of ENCRYPT and DECRYPT can do (spec/44_keystream.md R133, R135, R138). -/

namespace Sys2Proof.Machine

/-- What a piece of the loop on context `h` leaves alone, whichever way it ends: `dst`, `i` and `n` say which
destination bytes it may store to. -/
structure LoopKeeps (h : Nat) (dst : Addr) (i n : Nat) (s t : State) : Prop where
  regs  : t.regs = s.regs
  busy  : t.busy = s.busy
  code  : t.code = s.code
  latch : t.latch = s.latch
  held  : t.held = s.held
  hung  : t.hung = s.hung
  plat  : t.plat = s.plat
  rdata : t.rdata = s.rdata
  sched : t.sched = s.sched
  prims : t.prims = s.prims
  nctx  : t.nctx = s.nctx
  slots : ∀ j, j ≠ h → t.slot j = s.slot j
  slot  : ∃ k b a, t.slot h = { s.slot h with counter := k, ksbuf := b, kavail := a }
  wf    : Memory.wf t.mem = true
  byte  : ∀ a, (∀ j, i ≤ j → j < i + n → a ≠ byteAddr dst j) → t.byte a = s.byte a

theorem LoopKeeps.refl {h : Nat} {dst : Addr} {i n : Nat} {s : State} (hm : Memory.wf s.mem = true) :
    LoopKeeps h dst i n s s :=
  ⟨rfl, rfl, rfl, rfl, rfl, rfl, rfl, rfl, rfl, rfl, rfl, fun _ _ => rfl, ⟨_, _, _, rfl⟩, hm, fun _ _ => rfl⟩

theorem LoopKeeps.trans {h : Nat} {dst : Addr} {i n i₁ n₁ i₂ n₂ : Nat} {s t u : State}
    (a : LoopKeeps h dst i₁ n₁ s t) (b : LoopKeeps h dst i₂ n₂ t u)
    (h₁ : i ≤ i₁ ∧ i₁ + n₁ ≤ i + n) (h₂ : i ≤ i₂ ∧ i₂ + n₂ ≤ i + n) : LoopKeeps h dst i n s u where
  regs := b.regs.trans a.regs
  busy := b.busy.trans a.busy
  code := b.code.trans a.code
  latch := b.latch.trans a.latch
  held := b.held.trans a.held
  hung := b.hung.trans a.hung
  plat := b.plat.trans a.plat
  rdata := b.rdata.trans a.rdata
  sched := b.sched.trans a.sched
  prims := b.prims.trans a.prims
  nctx := b.nctx.trans a.nctx
  slots := fun j hj => (b.slots j hj).trans (a.slots j hj)
  slot := by
    obtain ⟨k, x, v, ha⟩ := a.slot
    obtain ⟨k', x', v', hb⟩ := b.slot
    exact ⟨k', x', v', by rw [hb, ha]⟩
  wf := b.wf
  byte := fun x hx =>
    (b.byte x fun j h1 h2 => hx j (by omega) (by omega)).trans (a.byte x fun j h1 h2 => hx j (by omega) (by omega))

/-- A state that differs from `s` in the slot `h`, the port, the answers and the draws only. -/
theorem LoopKeeps.of_slot {h : Nat} {dst : Addr} {i n : Nat} {s t : State} (h1 : 1 ≤ h) (h2 : h ≤ s.nctx)
    (hm : Memory.wf s.mem = true) (k : Block) (b : Block) (a : BitVec 4)
    (hs : t.slots = (s.setSlot h { s.slot h with counter := k, ksbuf := b, kavail := a }).slots)
    (hregs : t.regs = s.regs) (hbusy : t.busy = s.busy) (hcode : t.code = s.code) (hlatch : t.latch = s.latch) (hheld : t.held = s.held)
    (hhung : t.hung = s.hung) (hplat : t.plat = s.plat) (hrdata : t.rdata = s.rdata) (hsched : t.sched = s.sched)
    (hprims : t.prims = s.prims) (hmem : t.mem = s.mem) : LoopKeeps h dst i n s t where
  regs := hregs
  busy := hbusy
  code := hcode
  latch := hlatch
  held := hheld
  hung := hhung
  plat := hplat
  rdata := hrdata
  sched := hsched
  prims := hprims
  nctx := by rw [State.nctx, hs]; exact State.nctx_setSlot s h _
  slots := fun j hj => (State.slot_congr hs j).trans (State.slot_setSlot_ne s hj _)
  slot := ⟨k, b, a, (State.slot_congr hs h).trans (State.slot_setSlot_same s h1 h2 _)⟩
  wf := by rw [hmem]; exact hm
  byte := fun x _ => State.byte_congr hmem x

/-- A block request that ends without a byte changes the port, the answers and the draws only. -/
theorem LoopKeeps.of_answered {h : Nat} {dst : Addr} {i n : Nat} {s : State} (hm : Memory.wf s.mem = true)
    (t : PrimTxn) : LoopKeeps h dst i n s (s.issue t).answered :=
  ⟨by simp, by simp, by simp, by simp, by simp, by simp, by simp, by simp, by simp, by simp, by simp [State.nctx],
    fun j _ => by simp, ⟨(s.slot h).counter, (s.slot h).ksbuf, (s.slot h).kavail, by simp⟩, by simp [hm], fun a _ => State.byte_congr (by simp) a⟩

/-- Everything `NextKs` can do (R133). -/
theorem nextKs_keeps {h : Nat} {dst : Addr} {i n : Nat} {s : State} (h1 : 1 ≤ h) (h2 : h ≤ s.nctx)
    (hm : Memory.wf s.mem = true) :
    match nextKs h s with
    | some (.ok _ t) => LoopKeeps h dst i n s t
    | some (.fail t) => LoopKeeps h dst i n s t
    | some (.silent t) => LoopKeeps h dst i n s t
    | none => ∀ key, s.primOf h ≠ .programmed key := by
  unfold nextKs
  by_cases hk : (s.slot h).kavail = 0#4
  · simp only [hk, if_true]
    by_cases hp : ∃ key, s.primOf h = .programmed key
    · obtain ⟨key, hp⟩ := hp
      rcases State.primBlock_cases hp (s.slot h).counter with ⟨-, e⟩ | ⟨-, e⟩ | ⟨-, e⟩
      · rw [e]
        refine LoopKeeps.of_slot h1 h2 hm (inc16 (s.slot h).counter) (cipherFn s.plat.cipher key (s.slot h).counter)
          15#4 ?_ ?_ ?_ ?_ ?_ ?_ ?_ ?_ ?_ ?_ ?_ ?_ <;> try (simp; done)
        cases h <;> simp [State.setSlot, Slot.takeBlock]
      · rw [e]; exact LoopKeeps.of_answered hm _
      · rw [e]; exact LoopKeeps.of_answered hm _
    · have hp' : ∀ key, s.primOf h ≠ .programmed key := fun key e => hp ⟨key, e⟩
      rw [State.primBlock_eq_none.mpr hp']
      exact hp'
  · simp only [hk, if_false]
    refine LoopKeeps.of_slot h1 h2 hm (s.slot h).counter (s.slot h).ksbuf ((s.slot h).kavail - 1#4) ?_ ?_ ?_ ?_ ?_ ?_ ?_ ?_ ?_ ?_ ?_ ?_ <;> try (simp; done)
    cases h <;> simp [State.setSlot, Slot.useResidue]

/-- Everything the body of the loop can do with its keystream byte (R135). -/
theorem xorByte_keeps {h : Nat} {src dst a : Addr} {i : Nat} {k : Byte} {s t : State} (hm : Memory.wf s.mem = true)
    (ha : a = byteAddr dst i) (e : xorByte src a k s = some t) : LoopKeeps h dst i 1 s t := by
  simp only [xorByte, State.memWrite1] at e
  split at e
  · cases e
  · split_ifs at e
    cases e
    refine ⟨rfl, rfl, rfl, rfl, rfl, rfl, rfl, rfl, rfl, rfl, rfl, fun j _ => by simp, ⟨(s.slot h).counter, (s.slot h).ksbuf, (s.slot h).kavail, by simp⟩,
      State.wf_storeByte s hm _ _, fun x hx => ?_⟩
    rw [State.byte_storeByte s hm, if_neg]
    exact fun he => hx i (le_refl i) (by omega) (he.trans ha)

/-- The loop over `m + n` bytes is the loop over the first `m` and, when that is done, over the next `n` (R135). -/
theorem xorLoop_add (h : Nat) (src dst : Addr) (m n i : Nat) (s : State) :
    xorLoop h src dst (m + n) i s =
      match xorLoop h src dst m i s with
      | .done t => xorLoop h src dst n (i + m) t
      | e => e := by
  induction m generalizing i s with
  | zero => simp [xorLoop]
  | succ m ih =>
    rw [Nat.succ_add, xorLoop, xorLoop]
    cases nextKs h s with
    | none => rfl
    | some r =>
      cases r with
      | fail t => rfl
      | silent t => rfl
      | ok k t =>
        simp only
        cases xorByte (byteAddr src i) (byteAddr dst i) k t with
        | none => rfl
        | some u => simp only [ih, Nat.add_assoc, Nat.add_comm 1 m]

/-- Everything the loop can do, whichever way it ends (R135); it ends with no byte's meaning only on a handle that is
not programmed. -/
theorem xorLoop_keeps {h : Nat} {src dst : Addr} (n i : Nat) {s : State} (h1 : 1 ≤ h) (h2 : h ≤ s.nctx)
    (hm : Memory.wf s.mem = true) :
    match xorLoop h src dst n i s with
    | .done t => LoopKeeps h dst i n s t
    | .failed t => LoopKeeps h dst i n s t
    | .stuck t => LoopKeeps h dst i n s t
    | .broken => ∀ key, s.primOf h ≠ .programmed key := by
  induction n generalizing i s with
  | zero => exact LoopKeeps.refl hm
  | succ n ih =>
    have hk := nextKs_keeps (dst := dst) (i := i) (n := n + 1) h1 h2 hm
    unfold xorLoop
    cases e : nextKs h s with
    | none => simpa [e] using hk
    | some r =>
      cases r with
      | fail t => simpa [e] using hk
      | silent t => simpa [e] using hk
      | ok k t =>
        simp only [e] at hk ⊢
        cases e2 : xorByte (byteAddr src i) (byteAddr dst i) k t with
        | none => exact hk
        | some u =>
          have hx := xorByte_keeps (h := h) hk.wf rfl e2
          have hu : LoopKeeps h dst i (n + 1) s u := hk.trans hx (by omega) (by omega)
          have hr := ih (i + 1) (s := u) (by rw [hu.nctx]; exact h2) hu.wf
          simp only
          cases e3 : xorLoop h src dst n (i + 1) u with
          | done v => simp only [e3] at hr; exact hu.trans hr (by omega) (by omega)
          | failed v => simp only [e3] at hr; exact hu.trans hr (by omega) (by omega)
          | stuck v => simp only [e3] at hr; exact hu.trans hr (by omega) (by omega)
          | broken =>
            simp only [e3] at hr
            intro key
            rw [← State.primOf_congr hu.prims h]
            exact hr key

end Sys2Proof.Machine
end

