-- ==== Sys2Proof/Laws/ClosedForm.lean ====
section
/-! SUPPORT. The keystream loop in closed form (spec/44_keystream.md R138): where it stands after `i` bytes. -/

namespace Sys2Proof.Machine

theorem blocksNeeded_le {n a : Nat} (h : n ≤ a) : blocksNeeded n a = 0 := by
  simp only [blocksNeeded]; omega

theorem blocksNeeded_mono {n m a : Nat} (h : n ≤ m) : blocksNeeded n a ≤ blocksNeeded m a := by
  simp only [blocksNeeded]; omega

/-- A slot from which no byte was taken. -/
@[simp] theorem Slot.afterKeystream_zero (e : Cipher) (c : Slot) : c.afterKeystream e 0 = c := by
  simp [Slot.afterKeystream]

/-- The fields the keystream does not touch (R34, R36). -/
theorem Slot.afterKeystream_fields (e : Cipher) (c : Slot) (n : Nat) :
    (c.afterKeystream e n).phase = c.phase ∧ (c.afterKeystream e n).keySize = c.keySize ∧
    (c.afterKeystream e n).key = c.key ∧ (c.afterKeystream e n).offset = c.offset ∧
    (c.afterKeystream e n).prim = c.prim := by
  unfold Slot.afterKeystream
  split_ifs <;> exact ⟨rfl, rfl, rfl, rfl, rfl⟩

/-- `i` bytes leave no residue exactly when the next one needs a block. -/
theorem Slot.afterKeystream_kavail (e : Cipher) (c : Slot) (i : Nat) :
    (c.afterKeystream e i).kavail = 0#4 ↔ c.kavail.toNat ≤ i ∧ (i - c.kavail.toNat) % 16 = 0 := by
  have ha := c.kavail.isLt
  unfold Slot.afterKeystream blocksNeeded
  rw [← BitVec.toNat_inj]
  split_ifs with h
  · simp only [BitVec.toNat_ofNat]; omega
  · simp only [BitVec.toNat_ofNat]; omega

theorem blocksNeeded_succ (i a : Nat) :
    blocksNeeded (i + 1) a = blocksNeeded i a + if a ≤ i ∧ (i - a) % 16 = 0 then 1 else 0 := by
  simp only [blocksNeeded]; split_ifs <;> omega

/-- The counter after `i` bytes: one increment for each block (R34, R133). -/
theorem Slot.afterKeystream_counter (e : Cipher) (c : Slot) (i : Nat) :
    (c.afterKeystream e i).counter = inc16Iter (blocksNeeded i c.kavail.toNat) c.counter := by
  unfold Slot.afterKeystream
  split_ifs with h
  · rw [blocksNeeded_le h]; rfl
  · rfl

theorem Slot.afterKeystream_takeBlock (e : Cipher) (c : Slot) (i : Nat) (h : c.kavail.toNat ≤ i)
    (h16 : (i - c.kavail.toNat) % 16 = 0) :
    (c.afterKeystream e i).takeBlock (keystreamBlock e c.keyBytes c.counter (blocksNeeded i c.kavail.toNat)) =
      c.afterKeystream e (i + 1) ∧
    byteAt (keystreamBlock e c.keyBytes c.counter (blocksNeeded i c.kavail.toNat)) 0 = c.keystreamByte e i := by
  have hb : blocksNeeded i c.kavail.toNat = (i - c.kavail.toNat) / 16 := by simp only [blocksNeeded]; omega
  have hs : blocksNeeded (i + 1) c.kavail.toNat = blocksNeeded i c.kavail.toNat + 1 := by
    rw [blocksNeeded_succ, if_pos ⟨h, h16⟩]
  constructor
  · obtain ⟨f1, f2, f3, f4, f5⟩ := Slot.afterKeystream_fields e c i
    have hc := Slot.afterKeystream_counter e c i
    have hk : c.kavail.toNat + 16 * (blocksNeeded i c.kavail.toNat + 1) - (i + 1) = 15 := by rw [hb]; omega
    simp only [Slot.takeBlock, f1, f2, f3, f4, f5, hc]
    rw [Slot.afterKeystream, if_neg (by omega)]
    simp only [hs, hk, inc16Iter_succ, Nat.add_sub_cancel]
  · rw [Slot.keystreamByte, if_neg (by omega), hb, h16]

theorem Slot.afterKeystream_useResidue (e : Cipher) (c : Slot) (i : Nat)
    (h : ¬(c.kavail.toNat ≤ i ∧ (i - c.kavail.toNat) % 16 = 0)) :
    (c.afterKeystream e i).useResidue = c.afterKeystream e (i + 1) ∧
    (c.afterKeystream e i).residueByte = c.keystreamByte e i := by
  have ha := c.kavail.isLt
  have hs : blocksNeeded (i + 1) c.kavail.toNat = blocksNeeded i c.kavail.toNat := by
    rw [blocksNeeded_succ, if_neg h, Nat.add_zero]
  by_cases hi : i < c.kavail.toNat
  · constructor
    · rw [Slot.afterKeystream, if_pos (by omega), Slot.afterKeystream, if_pos (by omega)]
      simp only [Slot.useResidue, Slot.mk.injEq, true_and]
      rw [← BitVec.toNat_inj]
      simp only [BitVec.toNat_sub, BitVec.toNat_ofNat]
      omega
    · rw [Slot.afterKeystream, if_pos (by omega), Slot.keystreamByte, if_pos hi]
      simp only [Slot.residueByte, BitVec.toNat_ofNat]
      congr 1
      omega
  · have hb : blocksNeeded i c.kavail.toNat = (i - c.kavail.toNat) / 16 + 1 := by simp only [blocksNeeded]; omega
    constructor
    · rw [Slot.afterKeystream, if_neg (by omega), Slot.afterKeystream, if_neg (by omega)]
      simp only [Slot.useResidue, hs, Slot.mk.injEq, true_and]
      rw [← BitVec.toNat_inj]
      simp only [BitVec.toNat_sub, BitVec.toNat_ofNat, hb]
      omega
    · rw [Slot.afterKeystream, if_neg (by omega), Slot.keystreamByte, if_neg hi]
      simp only [Slot.residueByte, BitVec.toNat_ofNat, hb, Nat.add_sub_cancel]
      congr 1
      omega

/-- Where a command on context `h`, launched in `s`, stands after `i` of its `n` bytes. -/
structure LoopAt (h : Nat) (src dst : Addr) (n : Nat) (s : State) (i : Nat) (t : State) : Prop where
  keeps   : LoopKeeps h dst 0 i s t
  slot    : t.slot h = (s.slot h).afterKeystream s.plat.cipher i
  port    : t.port = s.port ++ (s.slot h).blockTxns h (blocksNeeded i (s.slot h).kavail.toNat)
  answers : (∀ a ∈ s.answers.take (blocksNeeded i (s.slot h).kavail.toNat), a = .ok) ∧
    t.answers = s.answers.drop (blocksNeeded i (s.slot h).kavail.toNat)
  written : partialOverlap src dst n = false → ∀ j < i,
    t.byte (byteAddr dst j) = s.byte (byteAddr src j) ^^^ (s.slot h).keystreamByte s.plat.cipher j
  unread  : partialOverlap src dst n = false → ∀ j, i ≤ j → j < n → t.byte (byteAddr src j) = s.byte (byteAddr src j)

theorem LoopAt.start {h : Nat} {src dst : Addr} {n : Nat} {s : State} (hm : Memory.wf s.mem = true) :
    LoopAt h src dst n s 0 s where
  keeps := LoopKeeps.refl hm
  slot := by simp
  port := by simp [blocksNeeded, Slot.blockTxns]
  answers := by simp [blocksNeeded]
  written := fun _ j hj => absurd hj (Nat.not_lt_zero j)
  unread := fun _ _ _ _ => rfl

theorem Slot.blockTxns_succ (h : Nat) (c : Slot) (m : Nat) :
    c.blockTxns h (m + 1) = c.blockTxns h m ++ [.block h (inc16Iter m c.counter)] := by
  simp [Slot.blockTxns, List.range_succ]

/-- The answer to the block request number `m` is the `m`-th of the answers to come. -/
theorem answer_ok_of_take {s : State} {m k : Nat} (hk : s.answers.take k = List.replicate k .ok) (hmk : m < k) :
    ∃ rest, s.answers.drop m = .ok :: rest ∧ s.answers.drop (m + 1) = rest := by
  have hl : k ≤ s.answers.length := by
    have := congrArg List.length hk
    simp only [List.length_take, List.length_replicate] at this
    omega
  have hm : m < s.answers.length := by omega
  refine ⟨s.answers.drop (m + 1), ?_, rfl⟩
  have hg : s.answers[m] = .ok := by
    have h2 : (s.answers.take k)[m]'(by simp; omega) = .ok := by simp [hk]
    simpa using h2
  rw [List.drop_eq_getElem_cons hm, hg]

/-- That many answers are listed. -/
theorem State.primOks_length {s : State} {k : Nat} (hk : s.primOks k) : k ≤ s.answers.length := by
  have := congrArg List.length hk
  simp only [List.length_take, List.length_replicate] at this
  omega

/-- Fewer answers `ok` are needed for fewer blocks. -/
theorem State.primOks_mono {s : State} {m k : Nat} (hk : s.primOks k) (h : m ≤ k) : s.primOks m := by
  have := congrArg (List.take m) hk
  simpa [State.primOks, List.take_take, Nat.min_eq_left h] using this

/-- An answer `ok` is used up: one more of the listed answers is known to be `ok`, if one was listed. -/
theorem answers_after_ok {s : State} {l : List PrimAnswer} {m : Nat}
    (h : (∀ a ∈ l.take m, a = .ok) ∧ s.answers = l.drop m) {t : State} (ht : t.answers = s.answers)
    (hok : t.answer = .ok) : (∀ a ∈ l.take (m + 1), a = .ok) ∧ t.answered.answers = l.drop (m + 1) := by
  by_cases hm : m < l.length
  · have ha : t.answers = l[m] :: l.drop (m + 1) := by rw [ht, h.2, List.drop_eq_getElem_cons hm]
    rw [State.answer_cons ha] at hok
    rw [List.take_succ_eq_append_getElem hm, hok]
    refine ⟨fun a hmem => ?_, (State.answered_cons ha).1⟩
    rcases List.mem_append.mp hmem with hmem | hmem
    · exact h.1 a hmem
    · exact List.mem_singleton.mp hmem
  · have hl : l.length ≤ m := Nat.le_of_not_lt hm
    have ha : t.answers = [] := by rw [ht, h.2, List.drop_eq_nil_of_le hl]
    rw [List.take_of_length_le (by omega), List.drop_eq_nil_of_le (by omega)]
    rw [List.take_of_length_le hl] at h
    exact ⟨h.1, by simp [State.answered, ha, State.drawn]⟩

/-- Byte `i` needs a new block: no residue is left (R133). -/
abbrev needsBlock (i a : Nat) : Prop := a ≤ i ∧ (i - a) % 16 = 0

/-- The state once `NextKs` has given byte `i` (R133). -/
structure KsTaken (h : Nat) (s : State) (i : Nat) (t u : State) : Prop where
  keeps   : ∀ dst n, LoopKeeps h dst 0 n t u
  slot    : u.slot h = (s.slot h).afterKeystream s.plat.cipher (i + 1)
  port    : u.port = s.port ++ (s.slot h).blockTxns h (blocksNeeded (i + 1) (s.slot h).kavail.toNat)
  answers : (∀ a ∈ s.answers.take (blocksNeeded (i + 1) (s.slot h).kavail.toNat), a = .ok) ∧
    u.answers = s.answers.drop (blocksNeeded (i + 1) (s.slot h).kavail.toNat)
  mem     : u.mem = t.mem

/-- Everything `NextKs` can do after `i` bytes (R133, R138): give byte `i` of the keystream, or pass on that the block
it needs was not given. -/
theorem LoopAt.nextKs_cases {h : Nat} {src dst : Addr} {n i : Nat} {s t : State} (at_ : LoopAt h src dst n s i t)
    (h1 : 1 ≤ h) (h2 : h ≤ s.nctx) (hp : s.primOf h = .programmed (s.slot h).keyBytes) :
    let b := t.issue (.block h (t.slot h).counter)
    (∃ u, nextKs h t = some (.ok ((s.slot h).keystreamByte s.plat.cipher i) u) ∧ KsTaken h s i t u) ∨
    (needsBlock i (s.slot h).kavail.toNat ∧ b.answer = .fail ∧ nextKs h t = some (.fail b.answered)) ∨
    (needsBlock i (s.slot h).kavail.toNat ∧ b.answer = .silent ∧ nextKs h t = some (.silent b.answered)) := by
  have h2t : h ≤ t.nctx := by rw [at_.keeps.nctx]; exact h2
  have hpt : t.primOf h = .programmed (s.slot h).keyBytes := by rw [State.primOf_congr at_.keeps.prims]; exact hp
  have hkeep := fun dst n => nextKs_keeps (dst := dst) (i := 0) (n := n) h1 h2t at_.keeps.wf
  have hkav := Slot.afterKeystream_kavail s.plat.cipher (s.slot h) i
  have hcnt := Slot.afterKeystream_counter s.plat.cipher (s.slot h) i
  have hsucc := blocksNeeded_succ i (s.slot h).kavail.toNat
  by_cases hc : needsBlock i (s.slot h).kavail.toNat
  · rw [if_pos hc] at hsucc
    obtain ⟨hblk, hbyte⟩ := Slot.afterKeystream_takeBlock s.plat.cipher (s.slot h) i hc.1 hc.2
    have hz : (t.slot h).kavail = 0#4 := by rw [at_.slot]; exact hkav.mpr hc
    have hcip : cipherFn t.plat.cipher (s.slot h).keyBytes (t.slot h).counter =
        keystreamBlock s.plat.cipher (s.slot h).keyBytes (s.slot h).counter
          (blocksNeeded i (s.slot h).kavail.toNat) := by
      rw [keystreamBlock, at_.slot, hcnt, at_.keeps.plat]
    rcases State.primBlock_cases hpt (t.slot h).counter with ⟨hok, e⟩ | ⟨hok, e⟩ | ⟨hok, e⟩
    · left
      have hn : nextKs h t = some (.ok ((s.slot h).keystreamByte s.plat.cipher i)
          ((t.issue (.block h (t.slot h).counter)).answered.setSlot h
            ((s.slot h).afterKeystream s.plat.cipher (i + 1)))) := by
        simp only [nextKs, hz, if_true, e, hcip, hbyte]
        rw [at_.slot, hblk]
      refine ⟨_, hn, ⟨fun dst n => by simpa [hn] using hkeep dst n, ?_, ?_, ?_, by simp⟩⟩
      · rw [State.slot_setSlot_same _ h1 (by simpa [State.nctx] using h2t)]
      · rw [State.port_setSlot, State.port_answered, State.port_issue, at_.port, hsucc, Slot.blockTxns_succ,
          at_.slot, hcnt, List.append_assoc]
      · rw [hsucc, State.answers_setSlot]
        exact answers_after_ok at_.answers (State.answers_issue t _) hok
    · right; left
      exact ⟨hc, hok, by simp only [nextKs, hz, if_true, e]⟩
    · right; right
      exact ⟨hc, hok, by simp only [nextKs, hz, if_true, e]⟩
  · simp only [hc, if_false, Nat.add_zero] at hsucc
    left
    obtain ⟨hres, hbyte⟩ := Slot.afterKeystream_useResidue s.plat.cipher (s.slot h) i hc
    have hz : ¬(t.slot h).kavail = 0#4 := by rw [at_.slot]; exact fun e => hc (hkav.mp e)
    have hn : nextKs h t = some (.ok ((s.slot h).keystreamByte s.plat.cipher i)
        (t.setSlot h ((s.slot h).afterKeystream s.plat.cipher (i + 1)))) := by
      simp only [nextKs, hz, if_false]
      rw [at_.slot, hres, hbyte]
    refine ⟨_, hn, ⟨fun dst n => by simpa [hn] using hkeep dst n, ?_, ?_, ?_, by simp⟩⟩
    · rw [State.slot_setSlot_same _ h1 h2t]
    · rw [State.port_setSlot, at_.port, hsucc]
    · rw [State.answers_setSlot, hsucc]
      exact at_.answers

/-- Two different bytes of the buffers share no address unless source and destination overlap in part (R57). -/
theorem byteAddr_ne_of_disjoint {src dst : Addr} {n i j : Nat} (hn : n ≤ 2 ^ 32)
    (hov : partialOverlap src dst n = false) (hi : i < n) (hj : j < n) (hij : i ≠ j) :
    byteAddr src j ≠ byteAddr dst i := by
  by_cases he : src = dst
  · subst he
    exact fun e => hij (byteAddr_inj (by omega) (by omega) e).symm
  · intro e
    have hno : ¬Range.overlaps ⟨src, n⟩ ⟨dst, n⟩ = true := by
      simpa [partialOverlap, he] using hov
    exact hno ((Range.overlaps_iff ⟨src, n⟩ ⟨dst, n⟩ hn hn).mpr
      ⟨byteAddr src j, (Range.covers_iff src n hn _).mpr ⟨j, hj, rfl⟩, (Range.covers_iff dst n hn _).mpr ⟨i, hi, e⟩⟩)

/-- The body of the loop, once its keystream byte is there, goes from byte `i` to byte `i + 1` when the platform
admits the two bytes, and stops for good when it does not (R63, R135). -/
theorem LoopAt.body {h : Nat} {src dst : Addr} {n i : Nat} {s t u : State} (at_ : LoopAt h src dst n s i t)
    (hn : n ≤ 2 ^ 32) (hi : i < n) (ks : KsTaken h s i t u) :
    let k := (s.slot h).keystreamByte s.plat.cipher i
    (s.admits .read (byteAddr src i) 1 = true → s.admits .write (byteAddr dst i) 1 = true →
      ∃ v, xorByte (byteAddr src i) (byteAddr dst i) k u = some v) ∧
    (∀ v, xorByte (byteAddr src i) (byteAddr dst i) k u = some v → LoopAt h src dst n s (i + 1) v) := by
  have hkeep := ks.keeps dst 0
  have hplat : u.plat = s.plat := hkeep.plat.trans at_.keeps.plat
  have hone : s.admits .read (byteAddr src i) 1 = true →
      u.memRead (byteAddr src i) 1 = some (u.bytes (byteAddr src i) 1) := by
    intro hr
    rw [State.memRead, if_pos]
    simpa [State.admits_congr hplat, byteAddr] using hr
  refine ⟨fun hr hw => ?_, fun v hv => ?_⟩
  · refine ⟨u.storeByte (byteAddr dst i)
      (u.byte (byteAddr src i) ^^^ (s.slot h).keystreamByte s.plat.cipher i), ?_⟩
    simp only [xorByte, hone hr, if_true, State.memWrite1, State.admits_congr hplat, hw]
  · have hxk := xorByte_keeps (h := h) hkeep.wf rfl hv
    have hsu : LoopKeeps h dst 0 i s u := at_.keeps.trans hkeep (by omega) (by omega)
    have hv' : v = u.storeByte (byteAddr dst i)
        (u.byte (byteAddr src i) ^^^ (s.slot h).keystreamByte s.plat.cipher i) := by
      simp only [xorByte, State.memWrite1] at hv
      split at hv
      · cases hv
      · split_ifs at hv
        exact (Option.some.inj hv).symm
    refine ⟨hsu.trans hxk (by omega) (by omega), ?_, ?_, ?_, ?_, ?_⟩
    · rw [hv', State.slot_storeByte, ks.slot]
    · rw [hv', State.port_storeByte, ks.port]
    · rw [hv', State.answers_storeByte]
      exact ks.answers
    · intro hov j hj
      rw [hv', State.byte_storeByte u hkeep.wf]
      by_cases hji : j = i
      · subst hji
        rw [if_pos rfl, State.byte_congr ks.mem, at_.unread hov j (le_refl j) hi]
      · rw [if_neg (fun e => hji (byteAddr_inj (by omega) (by omega) e)), State.byte_congr ks.mem]
        exact at_.written hov j (by omega)
    · intro hov j hj hjn
      rw [hv', State.byte_storeByte u hkeep.wf, if_neg (byteAddr_ne_of_disjoint hn hov hi hjn (by omega)),
        State.byte_congr ks.mem]
      exact at_.unread hov j (by omega) hjn

/-- How the loop of a command launched in `s` can end (R135, R137, R138, R180), with where it stood. -/
def LoopOutcome (h : Nat) (src dst : Addr) (n : Nat) (s : State) : LoopEnd → Prop
  | .done w => LoopAt h src dst n s n w
  | .failed w => ∃ p < n, ∃ t, LoopAt h src dst n s p t ∧ needsBlock p (s.slot h).kavail.toNat ∧
      (t.issue (.block h (t.slot h).counter)).answer = .fail ∧ w = (t.issue (.block h (t.slot h).counter)).answered
  | .stuck w => ∃ p < n, ∃ t, LoopAt h src dst n s p t ∧
      ((needsBlock p (s.slot h).kavail.toNat ∧ (t.issue (.block h (t.slot h).counter)).answer = .silent ∧
        w = (t.issue (.block h (t.slot h).counter)).answered) ∨
      (KsTaken h s p t w ∧
        (s.admits .read (byteAddr src p) 1 = false ∨ s.admits .write (byteAddr dst p) 1 = false)))
  | .broken => False

/-- Everything the loop can do from byte `i` on, on a programmed handle. -/
theorem LoopAt.xorLoop_outcome {h : Nat} {src dst : Addr} {n i : Nat} {s t : State} (m : Nat)
    (at_ : LoopAt h src dst n s i t) (h1 : 1 ≤ h) (h2 : h ≤ s.nctx) (hn : n ≤ 2 ^ 32) (him : i + m = n)
    (hp : s.primOf h = .programmed (s.slot h).keyBytes) :
    LoopOutcome h src dst n s (xorLoop h src dst m i t) := by
  induction m generalizing i t with
  | zero =>
    have e : i = n := by omega
    subst e
    exact at_
  | succ m ih =>
    rcases at_.nextKs_cases h1 h2 hp with ⟨u, e, ks⟩ | ⟨hb, ha, e⟩ | ⟨hb, ha, e⟩
    · rw [xorLoop, e]
      obtain ⟨hgo, hnext⟩ := at_.body hn (by omega) ks
      simp only
      cases ex : xorByte (byteAddr src i) (byteAddr dst i) ((s.slot h).keystreamByte s.plat.cipher i) u with
      | some v => exact ih (hnext v ex) (by omega)
      | none =>
        refine ⟨i, by omega, t, at_, Or.inr ⟨ks, ?_⟩⟩
        by_contra hcon
        rw [not_or, Bool.not_eq_false, Bool.not_eq_false] at hcon
        obtain ⟨v, hv⟩ := hgo hcon.1 hcon.2
        rw [ex] at hv
        cases hv
    · rw [xorLoop, e]
      exact ⟨i, by omega, t, at_, hb, ha, rfl⟩
    · rw [xorLoop, e]
      exact ⟨i, by omega, t, at_, Or.inl ⟨hb, ha, rfl⟩⟩

/-- Everything the loop of ENCRYPT and DECRYPT can do from launch (R135). -/
theorem xorLoop_outcome {h : Nat} {s : State} (src dst : Addr) (n : Nat) (h1 : 1 ≤ h) (h2 : h ≤ s.nctx)
    (hm : Memory.wf s.mem = true) (hn : n ≤ 2 ^ 32) (hp : s.primOf h = .programmed (s.slot h).keyBytes) :
    LoopOutcome h src dst n s (xorLoop h src dst n 0 s) :=
  (LoopAt.start hm).xorLoop_outcome n h1 h2 hn (Nat.zero_add n) hp

/-- With every byte admitted and every block answered the loop runs to its end (R138). -/
theorem xorLoop_done {h : Nat} {s : State} {src dst : Addr} {n : Nat} (h1 : 1 ≤ h) (h2 : h ≤ s.nctx)
    (hm : Memory.wf s.mem = true) (hn : n ≤ 2 ^ 32) (hp : s.primOf h = .programmed (s.slot h).keyBytes)
    (hr : s.admitsBytes .read src n = true) (hw : s.admitsBytes .write dst n = true)
    (ho : s.primOks (blocksNeeded n (s.slot h).kavail.toNat)) :
    ∃ w, xorLoop h src dst n 0 s = .done w ∧ LoopAt h src dst n s n w := by
  simp only [State.admitsBytes, List.all_eq_true, List.mem_range] at hr hw
  have hx := xorLoop_outcome src dst n h1 h2 hm hn hp
  have hans : ∀ p < n, ∀ t, LoopAt h src dst n s p t → needsBlock p (s.slot h).kavail.toNat →
      (t.issue (.block h (t.slot h).counter)).answer = .ok := by
    intro p hpn t ht hb
    have hlt : blocksNeeded p (s.slot h).kavail.toNat < blocksNeeded n (s.slot h).kavail.toNat := by
      have e := blocksNeeded_succ p (s.slot h).kavail.toNat
      rw [if_pos hb] at e
      have := blocksNeeded_mono (a := (s.slot h).kavail.toNat) (show p + 1 ≤ n by omega)
      omega
    obtain ⟨rest, hr1, -⟩ := answer_ok_of_take ho hlt
    have ha : (t.issue (.block h (t.slot h).counter)).answers = .ok :: rest := by
      rw [State.answers_issue, ht.answers.2, hr1]
    exact State.answer_cons ha
  cases e : xorLoop h src dst n 0 s with
  | done w => rw [e] at hx; exact ⟨w, rfl, hx⟩
  | failed w =>
    rw [e] at hx
    obtain ⟨p, hpn, t, ht, hb, ha, -⟩ := hx
    rw [hans p hpn t ht hb] at ha
    cases ha
  | stuck w =>
    rw [e] at hx
    obtain ⟨p, hpn, t, ht, ⟨hb, ha, -⟩ | ⟨-, ha | ha⟩⟩ := hx
    · rw [hans p hpn t ht hb] at ha
      cases ha
    · rw [hr p hpn] at ha
      cases ha
    · rw [hw p hpn] at ha
      cases ha
  | broken => rw [e] at hx; exact hx.elim

end Sys2Proof.Machine
end

