-- ==== Sys2Proof/Laws/Free.lean ====
section
/-! SUPPORT. Storing free bytes over a range (spec/20_memory.md R57, spec/70_reset_and_hazards.md R187). -/

namespace Sys2Proof.Machine

/-- What storing a free byte does to one byte of memory. -/
theorem State.byte_storeFree (s : State) (hm : Memory.wf s.mem = true) (a b : Addr) :
    (s.storeFree a).byte b = if b = a then Config.freeByte s.draws else s.byte b :=
  State.byte_storeByte s hm a b _

@[simp] theorem State.draws_storeFree (s : State) (a : Addr) : (s.storeFree a).draws = s.draws + 1 := rfl

/-- Storing a free byte keeps the canonical form. -/
theorem State.wf_storeFree (s : State) (hm : Memory.wf s.mem = true) (a : Addr) :
    Memory.wf (s.storeFree a).mem = true :=
  State.wf_storeByte s hm a _

/-- Storing free bytes changes memory and the count of drawn values, nothing else. -/
theorem State.storeFreeRange_eq (base : Addr) (n i : Nat) (s : State) :
    ∃ m d, State.storeFreeRange base n i s = { s with mem := m, draws := d } := by
  induction n generalizing i s with
  | zero => exact ⟨s.mem, s.draws, rfl⟩
  | succ n ih =>
    obtain ⟨m, d, e⟩ := ih (i + 1) (s.storeFree (byteAddr base i))
    exact ⟨m, d, by rw [State.storeFreeRange, e]; rfl⟩

/-- Storing free bytes keeps the canonical form and every byte outside the range. -/
theorem State.storeFreeRange_mem (base : Addr) (n i : Nat) (s : State) (hm : Memory.wf s.mem = true) :
    Memory.wf (State.storeFreeRange base n i s).mem = true ∧
    ∀ a, (∀ j, i ≤ j → j < i + n → a ≠ byteAddr base j) → (State.storeFreeRange base n i s).byte a = s.byte a := by
  induction n generalizing i s with
  | zero => exact ⟨hm, fun _ _ => rfl⟩
  | succ n ih =>
    obtain ⟨h1, h2⟩ := ih (i + 1) _ (s.wf_storeFree hm (byteAddr base i))
    refine ⟨h1, fun a ha => ?_⟩
    rw [State.storeFreeRange, h2 a (fun j hj1 hj2 => ha j (by omega) (by omega)), State.byte_storeFree s hm,
      if_neg (ha i (le_refl i) (by omega))]

/-- Every byte of the range is a free value of its own afterwards (R57, R187). -/
theorem State.byte_storeFreeRange (base : Addr) (n i : Nat) (s : State) (hm : Memory.wf s.mem = true)
    (hn : i + n ≤ 2 ^ 32) (j : Nat) (hj : j < n) :
    (State.storeFreeRange base n i s).byte (byteAddr base (i + j)) = Config.freeByte (s.draws + j) := by
  induction n generalizing i s j with
  | zero => omega
  | succ n ih =>
    have hw := s.wf_storeFree hm (byteAddr base i)
    rw [State.storeFreeRange]
    cases j with
    | zero =>
      simp only [Nat.add_zero]
      rw [(State.storeFreeRange_mem base n (i + 1) _ hw).2, State.byte_storeFree s hm, if_pos rfl]
      intro k hk1 hk2 e
      have := byteAddr_inj (by omega) (by omega) e
      omega
    | succ j =>
      have := ih (i + 1) _ hw (by omega) j (by omega)
      rwa [Nat.add_assoc, Nat.add_comm 1 j, State.draws_storeFree, Nat.add_assoc, Nat.add_comm 1 j] at this

/-- Settling an overlap changes memory and the count of drawn values, nothing else; not even those when source and
destination are identical or disjoint (R57). -/
theorem State.settleOverlap_eq (s : State) (src dst : Addr) (n : Nat) :
    ∃ m d, s.settleOverlap src dst n = { s with mem := m, draws := d } := by
  unfold State.settleOverlap
  split_ifs
  · exact State.storeFreeRange_eq dst n 0 s
  · exact ⟨s.mem, s.draws, rfl⟩

theorem State.settleOverlap_of_not {s : State} {src dst : Addr} {n : Nat} (h : partialOverlap src dst n = false) :
    s.settleOverlap src dst n = s := by
  simp [State.settleOverlap, h]

/-- Settling an overlap keeps the canonical form and every byte outside the destination. -/
theorem State.settleOverlap_mem (s : State) (src dst : Addr) (n : Nat) (hm : Memory.wf s.mem = true) :
    Memory.wf (s.settleOverlap src dst n).mem = true ∧
    ∀ a, (∀ j < n, a ≠ byteAddr dst j) → (s.settleOverlap src dst n).byte a = s.byte a := by
  unfold State.settleOverlap
  split_ifs
  · obtain ⟨h1, h2⟩ := State.storeFreeRange_mem dst n 0 s hm
    exact ⟨h1, fun a ha => h2 a fun j _ hj => ha j (by omega)⟩
  · exact ⟨hm, fun _ _ => rfl⟩

end Sys2Proof.Machine
end

