-- ==== Sys2Proof/Laws/Exec.lean ====
section
/-! SUPPORT. What each meaning can do, said once: the equations of the commands under the conditions their rules name
(spec/41_lifecycle.md to spec/45_set_aad_descriptors.md). -/

namespace Sys2Proof.Machine

variable {s t : State} {h : Nat} {d : Dir}

/-- A handle that fails `CheckCtx` (R102). -/
theorem State.ctxOk_eq_false (s : State) (h : Nat) :
    s.ctxOk h = false ↔ h = 0 ∨ s.nctx < h ∨ (s.slot h).phase = .free := by
  rw [← Bool.not_eq_true, State.ctxOk_iff]
  constructor
  · intro hn
    by_cases h1 : 1 ≤ h
    · by_cases h2 : h ≤ s.nctx
      · exact Or.inr (Or.inr (by_contra fun h3 => hn ⟨h1, h2, h3⟩))
      · exact Or.inr (Or.inl (by omega))
    · exact Or.inl (by omega)
  · rintro (h0 | h0 | h0) ⟨h1, h2, h3⟩
    · omega
    · omega
    · exact h3 h0

/-- Whatever outcome a command has on a handle that fails `CheckCtx`, it is BadParam (R102). -/
theorem exec_of_not_ctxOk {i : Instr} (hi : IsOnContext i h) (hc : s.ctxOk h = false) :
    exec i s = .next (s.complete .badParam) := by
  obtain ⟨d, rfl | rfl | rfl | rfl | rfl⟩ := hi <;>
    simp [exec, execDeallocate, execContextInit, execSetIv, execEncrypt, execDecrypt, crypt, hc]

/-- ENCRYPT and DECRYPT are the one function `crypt` (R136). -/
theorem exec_of_isCrypt {i : Instr} (hi : IsCrypt i h) : exec i s = crypt h s := by
  obtain ⟨d, rfl | rfl⟩ := hi <;> rfl

/-- What it takes for ENCRYPT and DECRYPT to reach their transform (R135). -/
theorem State.cryptRuns_iff (s : State) (h : Nat) : s.cryptRuns h = true ↔
    s.ctxOk h = true ∧ s.regs.slen.toNat ≤ s.regs.dlen.toNat ∧ (s.slot h).phase = .ready := by
  simp [State.cryptRuns, and_assoc]

/-- ENCRYPT and DECRYPT past their checks (R135). -/
theorem crypt_of_runs (hr : s.cryptRuns h = true) (h1 : s.hitsRegFile s.srcRange = false)
    (h2 : s.hitsRegFile s.dstRange = false) : crypt h s = transform h s := by
  obtain ⟨a, b, c⟩ := (s.cryptRuns_iff h).mp hr
  simp [crypt, a, c, h1, h2, Nat.not_lt.mpr b]

/-- Everything ENCRYPT and DECRYPT can do: stop at a check, be refused, or run the transform (R135). -/
theorem crypt_cases (s : State) (h : Nat) :
    (s.ctxOk h = false ∧ crypt h s = .next (s.complete .badParam)) ∨
    (s.ctxOk h = true ∧ s.regs.dlen.toNat < s.regs.slen.toNat ∧ crypt h s = .next (s.complete .bufferSmall)) ∨
    (s.ctxOk h = true ∧ s.regs.slen.toNat ≤ s.regs.dlen.toNat ∧ (s.slot h).phase ≠ .ready ∧
      crypt h s = .next (s.complete .cipherFail)) ∨
    (s.cryptRuns h = true ∧ crypt h s = .refused .registerFileOverlap) ∨
    (s.cryptRuns h = true ∧ crypt h s = transform h s) := by
  simp only [State.cryptRuns_iff]
  unfold crypt
  by_cases a : s.ctxOk h = true
  · by_cases b : s.regs.dlen.toNat < s.regs.slen.toNat
    · simp [a, b]
    · by_cases c : (s.slot h).phase = .ready
      · simp only [a, b, c, if_true, if_false, true_and, ne_eq, not_true_eq_false]
        split_ifs <;> simp [Nat.le_of_not_lt b]
      · simp [a, b, c, Nat.le_of_not_lt b]
  · simp [Bool.not_eq_true _ ▸ a]

/-- What the transform leaves alone, whichever way it ends (R26, R30, R56). -/
structure TransformKeeps (h : Nat) (s t : State) : Prop where
  regs  : t.regs = { s.regs with dlen := t.regs.dlen }
  latch : t.latch = s.latch
  held  : t.held = s.held
  plat  : t.plat = s.plat
  rdata : t.rdata = s.rdata
  sched : t.sched = s.sched
  prims : t.prims = s.prims
  nctx  : t.nctx = s.nctx
  slots : ∀ j, j ≠ h → t.slot j = s.slot j
  wf    : Memory.wf t.mem = true
  byte  : ∀ a, s.dstRange.covers a = false → t.byte a = s.byte a

/-- Everything the transform of a slot can do whose handle is programmed with its key (R135, R137, R138, R180). -/
theorem transform_cases (h1 : 1 ≤ h) (h2 : h ≤ s.nctx) (hm : Memory.wf s.mem = true)
    (hp : s.primOf h = .programmed (s.slot h).keyBytes) :
    ∃ t, transform h s = .next t ∧ TransformKeeps h s t ∧
      ((t.busy = false ∧ t.hung = false ∧ t.code = .ok ∧ t.regs.dlen = s.regs.slen ∧
          ∃ w, xorLoop h s.regs.src s.regs.dst s.regs.slen.toNat 0 s = .done w ∧
            LoopAt h s.regs.src s.regs.dst s.regs.slen.toNat s s.regs.slen.toNat w ∧
            t.slot h = w.slot h ∧ t.port = w.port ∧ t.answers = w.answers ∧
            (partialOverlap s.regs.src s.regs.dst s.regs.slen.toNat = false → t.mem = w.mem)) ∨
        (t.busy = false ∧ t.hung = false ∧ t.code = .cipherFail ∧
          ∃ w, xorLoop h s.regs.src s.regs.dst s.regs.slen.toNat 0 s = .failed w ∧
            t.slot h = { w.slot h with ksbuf := 0#128, kavail := 0#4, phase := .inited } ∧ t.port = w.port ∧
            (partialOverlap s.regs.src s.regs.dst s.regs.slen.toNat = false → t.mem = w.mem)) ∨
        (t.busy = true ∧ t.hung = true ∧ t.code = s.code ∧
          ∃ w, xorLoop h s.regs.src s.regs.dst s.regs.slen.toNat 0 s = .stuck w ∧ t.slot h = w.slot h ∧
            t.port = w.port)) := by
  have hn : s.regs.slen.toNat ≤ 2 ^ 32 := by have := s.regs.slen.isLt; omega
  have hk := xorLoop_keeps (src := s.regs.src) (dst := s.regs.dst) s.regs.slen.toNat 0 h1 h2 hm
  have ho := xorLoop_outcome s.regs.src s.regs.dst s.regs.slen.toNat h1 h2 hm hn hp
  have hcov : ∀ a, s.dstRange.covers a = false → ∀ j < s.regs.slen.toNat, a ≠ byteAddr s.regs.dst j := by
    intro a ha j hj e
    have := (Range.covers_iff s.regs.dst s.regs.slen.toNat hn a).mpr ⟨j, hj, e⟩
    rw [State.dstRange] at ha
    rw [ha] at this
    cases this
  cases e : xorLoop h s.regs.src s.regs.dst s.regs.slen.toNat 0 s with
  | broken => rw [e] at ho; exact ho.elim
  | done w =>
    rw [e] at hk ho
    obtain ⟨m, dr, es⟩ := State.settleOverlap_eq w s.regs.src s.regs.dst s.regs.slen.toNat
    obtain ⟨hwf, hby⟩ := State.settleOverlap_mem w s.regs.src s.regs.dst s.regs.slen.toNat hk.wf
    have ht : transform h s = .next
        (((w.settleOverlap s.regs.src s.regs.dst s.regs.slen.toNat).setDlen s.regs.slen).complete .ok) := by
      simp only [transform, e]
    refine ⟨_, ht, ?_, Or.inl ⟨rfl, rfl, rfl, rfl, w, rfl, ho, ?_, ?_, ?_, ?_⟩⟩
    · refine ⟨?_, ?_, ?_, ?_, ?_, ?_, ?_, ?_, fun j hj => ?_, hwf, fun a ha => ?_⟩
      · simp [es, State.setDlen, State.complete, hk.regs]
      · simpa [es] using hk.latch
      · simpa [es] using hk.held
      · simpa [es] using hk.plat
      · simpa [es] using hk.rdata
      · simpa [es] using hk.sched
      · simpa [es] using hk.prims
      · simpa [es, State.nctx] using hk.nctx
      · rw [State.slot_complete, State.slot_setDlen, es]
        exact hk.slots j hj
      · exact (hby a (hcov a ha)).trans (hk.byte a fun j _ hj => hcov a ha j (by omega))
    · rw [State.slot_complete, State.slot_setDlen, es]; rfl
    · simp [es]
    · simp [es]
    · intro hov
      rw [State.settleOverlap_of_not hov]
      rfl
  | failed w =>
    rw [e] at hk ho
    obtain ⟨m, dr, es⟩ := State.settleOverlap_eq w s.regs.src s.regs.dst s.regs.slen.toNat
    obtain ⟨hwf, hby⟩ := State.settleOverlap_mem w s.regs.src s.regs.dst s.regs.slen.toNat hk.wf
    have h2w : h ≤ w.nctx := by rw [hk.nctx]; exact h2
    have ht : transform h s = .next
        (cipherFailMidStream h (w.settleOverlap s.regs.src s.regs.dst s.regs.slen.toNat)) := by
      simp only [transform, e]
    refine ⟨_, ht, ?_, Or.inr (Or.inl ⟨rfl, rfl, rfl, w, rfl, ?_, ?_, ?_⟩)⟩
    · refine ⟨?_, ?_, ?_, ?_, ?_, ?_, ?_, ?_, fun j hj => ?_, ?_, fun a ha => ?_⟩
      · simp [cipherFailMidStream, es, hk.regs]
      · simpa [cipherFailMidStream, es] using hk.latch
      · simpa [cipherFailMidStream, es] using hk.held
      · simpa [cipherFailMidStream, es] using hk.plat
      · simpa [cipherFailMidStream, es] using hk.rdata
      · simpa [cipherFailMidStream, es] using hk.sched
      · simpa [cipherFailMidStream, es] using hk.prims
      · have hc : (cipherFailMidStream h (w.settleOverlap s.regs.src s.regs.dst s.regs.slen.toNat)).nctx = w.nctx := by
          rw [es]
          exact State.nctx_setSlot _ h _
        rw [hc, hk.nctx]
      · rw [cipherFailMidStream, State.slot_complete, State.slot_setSlot_ne _ hj, State.slot_drawn, State.slot_setDlen,
          es]
        exact hk.slots j hj
      · simpa [cipherFailMidStream] using hwf
      · have hb : (cipherFailMidStream h (w.settleOverlap s.regs.src s.regs.dst s.regs.slen.toNat)).byte a =
            (w.settleOverlap s.regs.src s.regs.dst s.regs.slen.toNat).byte a :=
          State.byte_congr (by simp [cipherFailMidStream]) a
        rw [hb]
        exact (hby a (hcov a ha)).trans (hk.byte a fun j _ hj => hcov a ha j (by omega))
    · rw [cipherFailMidStream, State.slot_complete, State.slot_setSlot_same _ h1 (by rw [es]; exact h2w),
        State.slot_drawn, State.slot_setDlen, es]
      rfl
    · simp [cipherFailMidStream, es]
    · intro hov
      rw [State.settleOverlap_of_not hov]
      simp [cipherFailMidStream]
  | stuck w =>
    rw [e] at hk ho
    obtain ⟨m, dr, es⟩ := State.settleOverlap_eq w s.regs.src s.regs.dst s.regs.slen.toNat
    obtain ⟨hwf, hby⟩ := State.settleOverlap_mem w s.regs.src s.regs.dst s.regs.slen.toNat hk.wf
    have ht : transform h s = .next (w.settleOverlap s.regs.src s.regs.dst s.regs.slen.toNat).hang := by
      simp only [transform, e]
    refine ⟨_, ht, ?_, Or.inr (Or.inr ⟨rfl, rfl, ?_, w, rfl, ?_, ?_⟩)⟩
    · refine ⟨?_, ?_, ?_, ?_, ?_, ?_, ?_, ?_, fun j hj => ?_, hwf, fun a ha => ?_⟩
      · simp [es, hk.regs]
      · simpa [es] using hk.latch
      · simpa [es] using hk.held
      · simpa [es] using hk.plat
      · simpa [es] using hk.rdata
      · simpa [es] using hk.sched
      · simpa [es] using hk.prims
      · simpa [es, State.nctx] using hk.nctx
      · rw [State.slot_hang, es]
        exact hk.slots j hj
      · exact (hby a (hcov a ha)).trans (hk.byte a fun j _ hj => hcov a ha j (by omega))
    · simpa [es] using hk.code
    · rw [State.slot_hang, es]; rfl
    · simp [es]

end Sys2Proof.Machine
end

