-- ==== Sys2Proof/Laws/Streaming.lean ====
section
/-! SUPPORT. A successful ENCRYPT or DECRYPT, and the keystream taken up where a command left it
(spec/44_keystream.md R132, R138). -/

namespace Sys2Proof.Machine

/-- The invariant of a slot, while no command is stuck (R38). -/
theorem State.Inv.slotOk {s : State} {h : Nat} (hinv : s.Inv) (hh : s.hung = false) (h1 : 1 ≤ h) (h2 : h ≤ s.nctx) :
    SlotOk (s.slot h) (s.primOf h) := by
  have hok := hinv.2.2.2.2.2.2 (h-1) (by omega)
  rw [show h - 1 + 1 = h by omega] at hok
  rcases hok with hst | hok
  · exact absurd hst.1 (by simp [hh])
  · exact hok

/-- A successful ENCRYPT or DECRYPT, whatever the answers were (R135, R138). -/
theorem crypt_success {i : Instr} {h : Nat} {s t : State} (hi : IsCrypt i h) (hm : Memory.wf s.mem = true)
    (hp : (s.slot h).phase = .ready → s.primOf h = .programmed (s.slot h).keyBytes)
    (he : exec i s = .next t) (hb : t.busy = false) (hc : t.code = .ok) :
    1 ≤ h ∧ h ≤ s.nctx ∧ (s.slot h).phase = .ready ∧ TransformKeeps h s t ∧
    t.slot h = (s.slot h).afterKeystream s.plat.cipher s.regs.slen.toNat ∧
    (partialOverlap s.regs.src s.regs.dst s.regs.slen.toNat = false → ∀ j < s.regs.slen.toNat,
      t.byte (byteAddr s.regs.dst j) = s.byte (byteAddr s.regs.src j) ^^^ (s.slot h).keystreamByte s.plat.cipher j) := by
  rw [exec_of_isCrypt hi] at he
  rcases crypt_cases s h with ⟨-, e⟩ | ⟨-, -, e⟩ | ⟨-, -, -, e⟩ | ⟨-, e⟩ | ⟨hr, e⟩
  · rw [e] at he; cases he; cases hc
  · rw [e] at he; cases he; cases hc
  · rw [e] at he; cases he; cases hc
  · rw [e] at he; cases he
  · obtain ⟨hctx, hle, hrdy⟩ := (s.cryptRuns_iff h).mp hr
    obtain ⟨h1, h2, hf⟩ := (s.ctxOk_iff h).mp hctx
    obtain ⟨t', ht, hk, hcs⟩ := transform_cases h1 h2 hm (hp hrdy)
    rw [e, ht] at he; cases he
    refine ⟨h1, h2, hrdy, hk, ?_⟩
    rcases hcs with ⟨b, hu, co, hdl, w', hw', hat', hsl, hpo, han, hmem⟩ | ⟨b, hu, co, w', hw', -⟩ | ⟨b, hu, co, w', hw', -⟩
    · refine ⟨by rw [hsl, hat'.slot], fun hov j hj => by rw [State.byte_congr (hmem hov), hat'.written hov j hj]⟩
    · rw [hc] at co; cases co
    · rw [hb] at b; cases b

/-- The keystream leaves the key (R32). -/
theorem Slot.keyBytes_afterKeystream (e : Cipher) (c : Slot) (n : Nat) : (c.afterKeystream e n).keyBytes = c.keyBytes := by
  obtain ⟨-, f2, f3, -, -⟩ := Slot.afterKeystream_fields e c n
  simp only [Slot.keyBytes, f2, f3]

/-- The residue after `n` bytes (R138). -/
theorem Slot.kavail_afterKeystream (e : Cipher) (c : Slot) (n : Nat) : ((c.afterKeystream e n).kavail.toNat =
    if n ≤ c.kavail.toNat then c.kavail.toNat - n else c.kavail.toNat + 16 * blocksNeeded n c.kavail.toNat - n) := by
  have ha := c.kavail.isLt
  unfold Slot.afterKeystream
  split_ifs with h
  · simp only [BitVec.toNat_ofNat]; omega
  · simp only [BitVec.toNat_ofNat, blocksNeeded]; omega

/-- Taking `n` bytes and then `m`: the slot and the keystream of `n + m` (R132, R138). -/
theorem Slot.afterKeystream_add (e : Cipher) (c : Slot) (n m : Nat) :
    (c.afterKeystream e n).afterKeystream e m = c.afterKeystream e (n + m) ∧
    ∀ i, (c.afterKeystream e n).keystreamByte e i = c.keystreamByte e (n + i) := by
  have ha := c.kavail.isLt
  have hk := Slot.kavail_afterKeystream e c n
  have hkb := Slot.keyBytes_afterKeystream e c n
  have hcnt := Slot.afterKeystream_counter e c n
  by_cases hn : n ≤ c.kavail.toNat
  · rw [if_pos hn] at hk
    have hc' : (c.afterKeystream e n).counter = c.counter := by rw [hcnt, blocksNeeded_le hn]; rfl
    have hks : (c.afterKeystream e n).ksbuf = c.ksbuf := by rw [Slot.afterKeystream, if_pos hn]
    constructor
    · by_cases hm : n + m ≤ c.kavail.toNat
      · rw [Slot.afterKeystream, hk, if_pos (by omega)]
        rw [Slot.afterKeystream, if_pos hn, Slot.afterKeystream, if_pos hm]
        simp only [Slot.mk.injEq, true_and]
        congr 1; omega
      · rw [Slot.afterKeystream, hk, if_neg (by omega)]
        rw [Slot.afterKeystream.eq_def e c (n+m), if_neg hm]
        have hb : blocksNeeded m (c.kavail.toNat - n) = blocksNeeded (n + m) c.kavail.toNat := by
          simp only [blocksNeeded]; omega
        simp only [hb, hc', hkb]
        obtain ⟨f1, f2, f3, f4, f5⟩ := Slot.afterKeystream_fields e c n
        simp only [f1, f2, f3, f4, f5, Slot.mk.injEq, true_and]
        congr 1; omega
    · intro i
      unfold Slot.keystreamByte
      rw [hk, hks, hc', hkb]
      by_cases hi : i < c.kavail.toNat - n
      · rw [if_pos hi, if_pos (by omega)]; congr 1; omega
      · rw [if_neg hi, if_neg (by omega)]
        have : i - (c.kavail.toNat - n) = n + i - c.kavail.toNat := by omega
        rw [this]
  · rw [if_neg hn] at hk
    have hks : (c.afterKeystream e n).ksbuf = keystreamBlock e c.keyBytes c.counter (blocksNeeded n c.kavail.toNat - 1) := by
      rw [Slot.afterKeystream, if_neg hn]
    obtain ⟨f1, f2, f3, f4, f5⟩ := Slot.afterKeystream_fields e c n
    have hbn : n ≤ c.kavail.toNat + 16 * blocksNeeded n c.kavail.toNat ∧ c.kavail.toNat + 16 * blocksNeeded n c.kavail.toNat < n + 16 ∧ 1 ≤ blocksNeeded n c.kavail.toNat := by
      simp only [blocksNeeded]; omega
    generalize hB : blocksNeeded n c.kavail.toNat = B at *
    constructor
    · by_cases hm : m ≤ c.kavail.toNat + 16 * B - n
      · rw [Slot.afterKeystream, hk, if_pos hm]
        rw [Slot.afterKeystream.eq_def e c (n+m), if_neg (by omega)]
        have hb : blocksNeeded (n + m) c.kavail.toNat = B := by simp only [blocksNeeded]; omega
        simp only [f1,f2,f3,f4,f5, hcnt, hks, hb, Slot.mk.injEq, true_and]
        congr 1; omega
      · rw [Slot.afterKeystream, hk, if_neg hm]
        rw [Slot.afterKeystream.eq_def e c (n+m), if_neg (by omega)]
        have hb : blocksNeeded (n + m) c.kavail.toNat = B + blocksNeeded m (c.kavail.toNat + 16 * B - n) := by simp only [blocksNeeded]; omega
        have hb1 : 1 ≤ blocksNeeded m (c.kavail.toNat + 16 * B - n) := by simp only [blocksNeeded]; omega
        simp only [f1,f2,f3,f4,f5, hcnt, hb, hkb, keystreamBlock, ← inc16Iter_add, Slot.mk.injEq, true_and]
        refine ⟨?_, ?_⟩
        · congr 2; omega
        · congr 1; omega
    · intro i
      unfold Slot.keystreamByte
      rw [hk, hks, hcnt, hkb]
      by_cases hi : i < c.kavail.toNat + 16 * B - n
      · rw [if_pos hi, if_neg (by omega)]
        have e1 : (n + i - c.kavail.toNat) / 16 = B - 1 := by omega
        rw [e1]; congr 1; omega
      · rw [if_neg hi, if_neg (by omega)]
        simp only [keystreamBlock, ← inc16Iter_add]
        have e1 : (n + i - c.kavail.toNat) / 16 = B + (i - (c.kavail.toNat + 16 * B - n)) / 16 := by omega
        rw [e1]; congr 1; omega

/-- Address `j` of a buffer that starts at address `n` of another (R73). -/
theorem byteAddr_byteAddr (a : Addr) (n j : Nat) : byteAddr (byteAddr a n) j = byteAddr a (n + j) := by
  simp [byteAddr, BitVec.add_assoc, BitVec.ofNat_add]

/-- Equal parts of two buffers that are identical or disjoint are identical or disjoint (R57). -/
theorem partialOverlap_part {src dst : Addr} {N n k : Nat} (hN : N ≤ 2^32) (h : partialOverlap src dst N = false) (hk : k + n ≤ N) :
    partialOverlap (byteAddr src k) (byteAddr dst k) n = false := by
  by_contra hc
  rw [Bool.not_eq_false, partialOverlap, Bool.and_eq_true, decide_eq_true_eq,
    Range.overlaps_iff _ _ (by simp; omega) (by simp; omega)] at hc
  obtain ⟨hne, a, ha, hb⟩ := hc
  obtain ⟨i, hi, rfl⟩ := (Range.covers_iff _ n (by omega) a).mp ha
  obtain ⟨j, hj, e⟩ := (Range.covers_iff _ n (by omega) _).mp hb
  have hne' : src ≠ dst := fun e => hne (by rw [e])
  rw [byteAddr_byteAddr] at e; rw [byteAddr_byteAddr] at e
  have : Range.overlaps ⟨src, N⟩ ⟨dst, N⟩ = true := (Range.overlaps_iff _ _ hN hN).mpr
    ⟨byteAddr src (k+i), (Range.covers_iff _ _ hN _).mpr ⟨k+i, by omega, rfl⟩, (Range.covers_iff _ _ hN _).mpr ⟨k+j, by omega, e⟩⟩
  simp [partialOverlap, hne', this] at h

@[simp] theorem byteAddr_zero (a : Addr) : byteAddr a 0 = a := by simp [byteAddr]

end Sys2Proof.Machine
end

