-- ==== Sys2Proof/Laws/Commands.lean ====
section
/-! SUPPORT. Everything SET_IV and CONTEXT_INIT can do, each said once (spec/43_set_iv.md R121, spec/42_context_init.md
R111). -/

namespace Sys2Proof.Machine

variable (s : State) (h : Nat) (d : Dir)

/-- The key bytes are not touched by steps 1 and 2 of SET_IV. -/
@[simp] theorem Slot.keyBytes_withIv (c : Slot) (iv : Block) : (c.withIv iv).keyBytes = c.keyBytes := rfl

/-- Everything SET_IV can do past its checks: the primitive is missing, or it answers ok, fail or not at all (R121). -/
theorem setIvProgram_cases (h1 : 1 ≤ h) (h2 : h ≤ s.nctx) (c : Slot) :
    let u := (s.setSlot h c).issue (.program h c.keyBytes c.keySize c.counter .enc)
    (c.prim = false ∧ setIvProgram h (s.setSlot h c) = .next ((s.setSlot h c).complete .fail)) ∨
    (c.prim = true ∧ u.answer = .ok ∧ setIvProgram h (s.setSlot h c) =
      .next (((u.answered.setPrim h (.programmed c.keyBytes)).setSlot h { c with phase := .ready }).complete .ok)) ∨
    (c.prim = true ∧ u.answer = .fail ∧ setIvProgram h (s.setSlot h c) =
      .next ((u.answered.setSlot h { c with phase := .inited }).complete .fail)) ∨
    (c.prim = true ∧ u.answer = .silent ∧ setIvProgram h (s.setSlot h c) = .next u.answered.hang) := by
  have hs := State.slot_setSlot_same s h1 h2 c
  unfold setIvProgram
  simp only [hs]
  cases hp : c.prim with
  | false => simp
  | true =>
    simp only [if_true]
    rcases State.primProgram_cases (s.setSlot h c) h c.keyBytes c.keySize c.counter with ⟨a, e⟩ | ⟨a, e⟩ | ⟨a, e⟩ <;>
      simp [a, e]

/-- Everything SET_IV can do (R121). -/
theorem execSetIv_cases :
    (s.ctxOk h = false ∧ execSetIv h d s = .next (s.complete .badParam)) ∨
    (s.ctxOk h = true ∧ s.hitsRegFile s.ivRange = true ∧ execSetIv h d s = .refused .registerFileOverlap) ∨
    (s.ctxOk h = true ∧ s.hitsRegFile s.ivRange = false ∧ s.admits .read s.regs.ivptr 16 = false ∧
      execSetIv h d s = .next s.hang) ∨
    (s.ivAdmitted h ∧ execSetIv h d s = setIvProgram h (s.setSlot h ((s.slot h).withIv s.iv))) := by
  unfold execSetIv State.ivAdmitted
  cases a : s.ctxOk h with
  | false => simp
  | true =>
    cases b : s.hitsRegFile s.ivRange with
    | true => simp
    | false =>
      cases c : s.admits .read s.regs.ivptr 16 <;> simp [State.memRead, Config.blockBytes, c, State.iv]

/-- A successful SET_IV, whatever the answers were (R121, R122). -/
theorem setIv_success {t : State} (hp : s.prims.length = s.nctx) (he : exec (.setIv h d) s = .next t)
    (hb : t.busy = false) (hc : t.code = .ok) :
    1 ≤ h ∧ h ≤ s.nctx ∧ t.slot h = { (s.slot h).withIv s.iv with phase := .ready } ∧
    t.primOf h = .programmed (s.slot h).keyBytes ∧ t.mem = s.mem ∧ t.plat = s.plat ∧ t.regs = s.regs ∧
    t.hung = false ∧ t.prims.length = s.prims.length ∧ t.nctx = s.nctx := by
  have he' : execSetIv h d s = .next t := he
  rcases execSetIv_cases s h d with ⟨-, e⟩ | ⟨-, -, e⟩ | ⟨-, -, -, e⟩ | ⟨hadm, e⟩
  · rw [e] at he'; cases he'; cases hc
  · rw [e] at he'; cases he'
  · rw [e] at he'; cases he'; cases hb
  · obtain ⟨h1, h2, -⟩ := (s.ctxOk_iff h).mp hadm.1
    rw [e] at he'
    rcases setIvProgram_cases s h h1 h2 ((s.slot h).withIv s.iv) with ⟨-, e⟩ | ⟨-, -, e⟩ | ⟨-, -, e⟩ | ⟨-, -, e⟩
    · rw [e] at he'; cases he'; cases hc
    · rw [e] at he'
      cases he'
      refine ⟨h1, h2, ?_, ?_, by simp, by simp, by simp, rfl, ?_, ?_⟩
      · rw [State.slot_complete, State.slot_setSlot_same _ h1]
        have := State.nctx_setSlot s h ((s.slot h).withIv s.iv)
        simp only [State.nctx, State.slots_setPrim, State.slots_answered, State.slots_issue] at this h2 ⊢
        omega
      · rw [State.primOf_complete, State.primOf_setSlot, State.primOf_setPrim_same _ h1]
        · rfl
        · simpa [hp] using h2
      · cases h <;> simp [State.setPrim]
      · cases h <;> simp [State.setSlot, State.nctx]
    · rw [e] at he'; cases he'; cases hc
    · rw [e] at he'; cases he'; cases hb

/-- Everything CONTEXT_INIT can do past its checks and its primitive handle, on a slot with a legal key size (R111):
be refused, be stuck at the salt or at the key, or load both. -/
theorem contextInitLoad_cases (h1 : 1 ≤ h) (h2 : h ≤ s.nctx)
    (hk : (s.slot h).keySize = 16 ∨ (s.slot h).keySize = 24 ∨ (s.slot h).keySize = 32) :
    let c := s.slot h
    let salt := saltBlock (s.bytes (byteAddr s.regs.kptr c.keySize) 14)
    let key := s.bytes s.regs.kptr c.keySize
    (s.admits .read (byteAddr s.regs.kptr c.keySize) 14 = false ∧ contextInitLoad h s =
      .next (s.setSlot h { c with prim := true, counter := 0#128, offset := 0#128 }).hang) ∨
    (s.admits .read (byteAddr s.regs.kptr c.keySize) 14 = true ∧
      s.admits .read s.regs.kptr c.keySize = false ∧ contextInitLoad h s =
      .next (s.setSlot h { c with prim := true, counter := salt, offset := salt }).hang) ∨
    (s.admits .read (byteAddr s.regs.kptr c.keySize) 14 = true ∧
      s.admits .read s.regs.kptr c.keySize = true ∧ contextInitLoad h s =
      .next ((s.setSlot h { c with
        prim := true, counter := salt, offset := salt, key := storeKey c.key key, ksbuf := 0#128, kavail := 0#4,
        phase := .inited }).complete .ok)) := by
  have hne : ¬((s.slot h).keySize ≠ 16 ∧ (s.slot h).keySize ≠ 24 ∧ (s.slot h).keySize ≠ 32) := by omega
  have hcap : ¬Config.keyCap < (s.slot h).keySize := by simp only [Config.keyCap]; omega
  have hmem : ∀ c, (s.setSlot h c).mem = s.mem := fun c => by simp
  have hplat : ∀ c, (s.setSlot h c).plat = s.plat := fun c => by simp
  have hread : ∀ c a n, (s.setSlot h c).memRead a n = s.memRead a n := fun c a n =>
    State.memRead_congr (hmem c) (hplat c) a n
  simp only [contextInitLoad, contextInitKey, State.setSlot_setSlot_same, State.slot_setSlot_same s h1 h2, hread,
    State.regs_setSlot, hne, hcap, if_false, Config.saltLen]
  simp only [State.memRead]
  cases a : s.admits .read (byteAddr s.regs.kptr (s.slot h).keySize) 14 <;>
    cases b : s.admits .read s.regs.kptr (s.slot h).keySize <;> simp

/-- Everything CONTEXT_INIT can do up to its primitive handle (R91, R111). -/
theorem execContextInit_cases :
    let u := s.issue (.create h)
    let load := fun t : State =>
      if t.hitsRegFile (t.keySaltRange (t.slot h).keySize) then .refused .registerFileOverlap else contextInitLoad h t
    (s.ctxOk h = false ∧ execContextInit h s = .next (s.complete .badParam)) ∨
    (s.ctxOk h = true ∧ (s.slot h).prim = true ∧ execContextInit h s = load s) ∨
    (s.ctxOk h = true ∧ (s.slot h).prim = false ∧ u.answer = .ok ∧
      execContextInit h s = load (u.answered.setPrim h .created)) ∨
    (s.ctxOk h = true ∧ (s.slot h).prim = false ∧ u.answer = .fail ∧
      execContextInit h s = .next (u.answered.complete .initFail)) ∨
    (s.ctxOk h = true ∧ (s.slot h).prim = false ∧ u.answer = .silent ∧
      execContextInit h s = .next u.answered.hang) := by
  unfold execContextInit State.createIfAbsent
  cases a : s.ctxOk h with
  | false => simp
  | true =>
    cases b : (s.slot h).prim with
    | true => simp
    | false =>
      simp only [if_true, Bool.false_eq_true, if_false]
      rcases State.primCreate_cases s h with ⟨c, e⟩ | ⟨c, e⟩ | ⟨c, e⟩ <;> simp [c, e]

end Sys2Proof.Machine
end

