-- ==== Sys2Proof/Laws/HostPort.lean ====
section
/-! SUPPORT. Everything an access of the host can do, said once (spec/10_state.md R23 to R42, R196; spec/20_memory.md R58,
R60), and the ranges a word claims (R56). -/

namespace Sys2Proof.Machine

variable (s : State)

@[simp] theorem State.regs_acquire : s.acquire.regs = s.regs := by unfold State.acquire; split <;> rfl
@[simp] theorem State.busy_acquire : s.acquire.busy = s.busy := by unfold State.acquire; split <;> rfl
@[simp] theorem State.code_acquire : s.acquire.code = s.code := by unfold State.acquire; split <;> rfl
@[simp] theorem State.latch_acquire : s.acquire.latch = s.latch := by unfold State.acquire; split <;> rfl
@[simp] theorem State.held_acquire : s.acquire.held = if s.busy then s.held else Buffers.none := by
  unfold State.acquire; split <;> rfl
@[simp] theorem State.hung_acquire : s.acquire.hung = s.hung := by unfold State.acquire; split <;> rfl
@[simp] theorem State.slots_acquire : s.acquire.slots = s.slots := by unfold State.acquire; split <;> rfl
@[simp] theorem State.prims_acquire : s.acquire.prims = s.prims := by unfold State.acquire; split <;> rfl
@[simp] theorem State.mem_acquire : s.acquire.mem = s.mem := by unfold State.acquire; split <;> rfl
@[simp] theorem State.plat_acquire : s.acquire.plat = s.plat := by unfold State.acquire; split <;> rfl
@[simp] theorem State.port_acquire : s.acquire.port = s.port := by unfold State.acquire; split <;> rfl
@[simp] theorem State.rdata_acquire : s.acquire.rdata = s.rdata := by unfold State.acquire; split <;> rfl
@[simp] theorem State.sched_acquire : s.acquire.sched = s.sched := by unfold State.acquire; split <;> rfl
@[simp] theorem State.answers_acquire : s.acquire.answers = s.answers := by unfold State.acquire; split <;> rfl
@[simp] theorem State.draws_acquire : s.acquire.draws = s.draws := by unfold State.acquire; split <;> rfl

/-- The offsets without a register are the reserved ones (R41). -/
theorem regAt_eq_none_iff : ∀ off : BitVec 8, off.toNat % 4 = 0 → (regAt off.toNat = none ↔ IsReserved off) := by decide

/-- STATUS and CMD stand at their offsets alone (R23). -/
theorem regAt_status_iff : ∀ off : BitVec 8, regAt off.toNat = some .status ↔ off = 0x04#8 := by decide

theorem regAt_cmd_iff : ∀ off : BitVec 8, regAt off.toNat = some .cmd ↔ off = 0x00#8 := by decide

/-- Everything a read of a register can change: the read data, the held buffers, the count of drawn values. -/
theorem State.readReg_eq (r : Reg) :
    ∃ v n, s.readReg r = { s with
      rdata := v, held := if r = .status ∧ s.busy = false then Buffers.none else s.held, draws := n } := by
  cases hb : s.busy <;> by_cases hr : r = .status <;>
    simp only [State.readReg, State.acquire, State.setRdata, State.drawn, hb, hr, if_true, if_false, and_true, and_false,
      Bool.false_eq_true, reduceCtorEq] <;> exact ⟨_, _, rfl⟩

/-- Everything a host read of the register file can do (R41, R42, R196). -/
theorem hostRegRead_cases (off : BitVec 8) (width : Width) :
    (alignedWord off width = false ∧ hostRegRead off width s = .refused .narrowAccess) ∨
    (alignedWord off width = true ∧ ∃ r, regAt off.toNat = some r ∧ hostRegRead off width s = .next (s.readReg r)) ∨
    (alignedWord off width = true ∧ regAt off.toNat = none ∧ hostRegRead off width s = .next (s.setRdata 0#32)) := by
  unfold hostRegRead
  cases alignedWord off width <;> cases regAt off.toNat <;> simp

/-- A host write of a register other than CMD changes the registers alone (R23). -/
theorem State.regWrite_eq {r : Reg} (hr : r ≠ .cmd) (v : Word) : ∃ g, s.regWrite r v = { s with regs := g } := by
  cases r <;> first | exact absurd rfl hr | exact ⟨_, rfl⟩

/-- Everything a host write of the register file can do (R24, R41, R42, R196). -/
theorem hostRegWrite_cases (off : BitVec 8) (width : Width) (v : Word) :
    (alignedWord off width = false ∧ hostRegWrite off width v s = .refused .narrowAccess) ∨
    (alignedWord off width = true ∧ (s.busy = true ∨ regAt off.toNat = none) ∧ hostRegWrite off width v s = .next s) ∨
    (alignedWord off width = true ∧ s.busy = false ∧ regAt off.toNat = some .cmd ∧
      hostRegWrite off width v s = .next (s.launch v)) ∨
    (alignedWord off width = true ∧ s.busy = false ∧ ∃ r g, r ≠ .cmd ∧ regAt off.toNat = some r ∧
      hostRegWrite off width v s = .next { s with regs := g }) := by
  unfold hostRegWrite
  cases alignedWord off width with
  | false => simp
  | true =>
    cases hb : s.busy with
    | true => simp
    | false =>
      cases hr : regAt off.toNat with
      | none => simp
      | some r =>
        by_cases hc : r = .cmd
        · subst hc; simp [State.regWrite]
        · obtain ⟨g, e⟩ := s.regWrite_eq hc v
          exact Or.inr (Or.inr (Or.inr ⟨rfl, rfl, r, g, hc, rfl, by simp [e, hb]⟩))

/-- The ranges of a word depend on the operand registers, the number of slots, and the phase and key size of the slot it
names (R56). -/
theorem State.buffersOf_congr {s t : State} (w : Word) (hr : t.regs = s.regs) (hn : t.nctx = s.nctx)
    (hp : ∀ h, (t.slot h).phase = (s.slot h).phase) (hk : ∀ h, (t.slot h).keySize = (s.slot h).keySize) :
    t.buffersOf w = s.buffersOf w := by
  have hc : ∀ h, t.ctxOk h = s.ctxOk h := fun h => by simp only [State.ctxOk, hn, hp]
  have hx : ∀ h, t.cryptRuns h = s.cryptRuns h := fun h => by simp only [State.cryptRuns, hc, hr, hp]
  unfold State.buffersOf
  cases decode w with
  | illegal r => rfl
  | instr i =>
    cases i <;> simp only [State.cmdReads, State.cmdWrites, State.keySaltRange, State.ivRange, State.srcRange,
      State.dstRange, hc, hx, hk, hr]

end Sys2Proof.Machine
end

