-- ==== Sys2Proof/Laws/PerInstr.lean ====
section
/-! SUPPORT. The per-instruction family: the command word of every well-formed instruction selects its own row of the
opcode table (spec/30_encoding.md R72). -/

/-- R72: `w AND mask = match` for the word of a well-formed instruction. -/
def Sys2Proof.Laws.WordInItsRow.Statement (i : Sys2Proof.Instr) : Prop :=
  i.wellFormed = true → Sys2Proof.encode i &&& Sys2Proof.tableMask = Sys2Proof.tableMatch i

namespace Sys2Proof.Laws.WordInItsRow

/-- CTX and DIR lie outside the mask of R72. -/
theorem cmdWord_and_mask :
    ∀ op < 8, ∀ h < 256, cmdWord op h .encrypt &&& tableMask = BitVec.ofNat 32 op ∧
      cmdWord op h .decrypt &&& tableMask = BitVec.ofNat 32 op := by decide +kernel

theorem word_and_mask (op h : Nat) (d : Dir) (hop : op < 8) (hh : h < 256) :
    cmdWord op h d &&& tableMask = BitVec.ofNat 32 op := by
  cases d with
  | encrypt => exact (cmdWord_and_mask op hop h hh).1
  | decrypt => exact (cmdWord_and_mask op hop h hh).2

theorem allocate (ctx : Nat) (dir : Dir) : Statement (.allocate ctx dir) :=
  fun h => word_and_mask 1 ctx dir (by decide) (of_decide_eq_true h)

theorem deallocate (ctx : Nat) (dir : Dir) : Statement (.deallocate ctx dir) :=
  fun h => word_and_mask 2 ctx dir (by decide) (of_decide_eq_true h)

theorem contextInit (ctx : Nat) (dir : Dir) : Statement (.contextInit ctx dir) :=
  fun h => word_and_mask 3 ctx dir (by decide) (of_decide_eq_true h)

theorem setIv (ctx : Nat) (dir : Dir) : Statement (.setIv ctx dir) :=
  fun h => word_and_mask 4 ctx dir (by decide) (of_decide_eq_true h)

theorem encrypt (ctx : Nat) (dir : Dir) : Statement (.encrypt ctx dir) :=
  fun h => word_and_mask 5 ctx dir (by decide) (of_decide_eq_true h)

theorem decrypt (ctx : Nat) (dir : Dir) : Statement (.decrypt ctx dir) :=
  fun h => word_and_mask 6 ctx dir (by decide) (of_decide_eq_true h)

theorem setAad (ctx : Nat) (dir : Dir) : Statement (.setAad ctx dir) :=
  fun h => word_and_mask 7 ctx dir (by decide) (of_decide_eq_true h)

end Sys2Proof.Laws.WordInItsRow
end

