-- ==== Sys2Proof/Tests/Slice0.lean ====
section
/-! SUPPORT. Tests of the model against the spec's own examples and vectors (spec/95_test_vectors.md), the WellFormed
smoke test, and a witness for the hypotheses of every statement. -/

namespace Sys2Proof.Tests

open Sys2Proof Sys2Proof.Machine

/-! ### Small states -/

/-- A next state for which `p` holds. -/
def nextWith (o : Host.Outcome State Fault Refusal) (p : State → Bool) : Bool :=
  match o with
  | .next t => p t
  | .fault _ => false
  | .refused _ => false

/-- The outcome is that refusal. -/
def refusedFor (o : Host.Outcome State Fault Refusal) (r : Refusal) : Bool :=
  match o with
  | .next _ => false
  | .fault _ => false
  | .refused q => decide (q = r)

theorem nextWith_exists {o : Host.Outcome State Fault Refusal} {p : State → Bool} (h : nextWith o p = true) :
    ∃ t, o = .next t ∧ p t = true := by
  cases o with
  | next t => exact ⟨t, rfl, h⟩
  | fault r => exact absurd h (by simp [nextWith])
  | refused r => exact absurd h (by simp [nextWith])

/-- Memory with bytes laid from an address on. -/
def lay (base : Addr) (l : List Byte) (m : Memory) : Memory :=
  (l.foldl (fun (acc : Nat × Memory) b => (acc.1 + 1, Memory.write acc.2 (byteAddr base acc.1).toNat b)) (0, m)).2

/-- A platform that admits everything, built with a test primitive of spec/95_test_vectors.md section 0. -/
def testPlat (e : Cipher) : Platform := { Platform.admitAll with cipher := e }

/-- An idle engine with NCTX = 2 and the identity primitive. -/
def idle : State := State.resetOf 2 (testPlat .identity)

/-- Slot 1 and its primitive handle given, slot 2 FREE. -/
def withSlot (c : Slot) (p : PrimHandle) (s : State) : State :=
  { s with slots := [c, Slot.zero], prims := [p, .absent] }

/-- ALLOCATED with the given key size. -/
def allocatedSlot (ks : Nat) : Slot := { Slot.zero with phase := .allocated, keySize := ks }

/-- V1: INITED, key of 16 zero bytes, salt 00 to 0d. -/
def initedSlot : Slot :=
  { Slot.zero with
    phase := .inited, keySize := 16, offset := 0x000102030405060708090a0b0c0d0000#128,
    counter := 0x000102030405060708090a0b0c0d0000#128, prim := true }

/-- V1 after SET_IV with the zero IV. -/
def readySlot : Slot := { initedSlot with phase := .ready }

/-- V27 after (a): READY with a residue of 12 bytes. -/
def residueSlot : Slot :=
  { Slot.zero with
    phase := .ready, keySize := 16, key := 0x101112131415161718191a1b1c1d1e1f00000000000000000000000000000000#256,
    offset := 0xa0a1a2a3a4a5a6a7a8a9aaabacad0000#128, counter := 0xa0a1a2a37a081848a8a9aaabbe990002#128,
    prim := true, ksbuf := 0xa0a1a2a37a081848a8a9aaabbe990001#128, kavail := 12#4 }

/-- V1 READY, three answers `ok` to come, 40 source bytes ff at 0x2000. -/
def ready : State :=
  { withSlot readySlot (.programmed (List.replicate 16 0#8)) idle with
    mem := lay 0x2000#32 (List.replicate 40 0xff#8) [], answers := [.ok, .ok, .ok] }

/-- V1 INITED. -/
def inited : State := { withSlot initedSlot .created idle with answers := [.ok, .ok, .ok] }

/-- ALLOCATED with key size 16. -/
def allocated : State := { withSlot (allocatedSlot 16) .absent idle with answers := [.ok, .ok, .ok] }

/-- V27 after (a), 14 source bytes ff at 0x2020. -/
def residue : State :=
  { withSlot residueSlot (.programmed residueSlot.keyBytes) idle with
    mem := lay 0x2020#32 (List.replicate 14 0xff#8) [], answers := [.ok, .ok, .ok] }

/-- A platform that admits nothing. -/
def closed (s : State) : State := { s with plat := { s.plat with windows := [] } }

/-! ### WellFormed -/

theorem test_wellFormed_accepts_ctx_255 : (Instr.encrypt 255 .decrypt).wellFormed = true := by decide

theorem test_wellFormed_refuses_ctx_256 : (Instr.encrypt 256 .encrypt).wellFormed = false := by decide

theorem test_ctxFits_refuses_ctx_256 : (Instr.deallocate 256 .encrypt).ctxFits = false := by decide

/-! ### Decoding: words written out from spec/30_encoding.md R70 and R72, fields Z1, DIR, CTX, Z0, OP -/

theorem test_decode_allocate : decode 0b000000000000000_0_00000000_0000_0001#32 = .instr (.allocate 0 .encrypt) := by
  decide

theorem test_decode_deallocate :
    decode 0b000000000000000_0_00000010_0000_0010#32 = .instr (.deallocate 2 .encrypt) := by decide

theorem test_decode_contextInit :
    decode 0b000000000000000_0_10000000_0000_0011#32 = .instr (.contextInit 128 .encrypt) := by decide

theorem test_decode_setIv : decode 0b000000000000000_1_00000001_0000_0100#32 = .instr (.setIv 1 .decrypt) := by decide

theorem test_decode_encrypt : decode 0b000000000000000_0_11111111_0000_0101#32 = .instr (.encrypt 255 .encrypt) := by
  decide

theorem test_decode_decrypt : decode 0b000000000000000_1_00000010_0000_0110#32 = .instr (.decrypt 2 .decrypt) := by
  decide

/-- V10: 0x0001FF07 is SET_AAD. -/
theorem test_decode_setAad : decode 0x0001FF07#32 = .instr (.setAad 255 .decrypt) := by decide

/-- V10: 0x0000000F, 0x80000001 and 0x00000015 are illegal. -/
theorem test_decode_illegal :
    decode 0x0000000F#32 = .illegal .noSuchOpcode ∧ decode 0x80000001#32 = .illegal .reservedBits ∧
    decode 0x00000015#32 = .illegal .reservedBits := by decide

/-- V11: `cmdword` values. -/
theorem test_encode_words :
    encode (.deallocate 2 .encrypt) = 0x00000202#32 ∧ encode (.setIv 2 .decrypt) = 0x00010204#32 ∧
    encode (.encrypt 255 .encrypt) = 0x0000FF05#32 ∧ encode (.setAad 0 .encrypt) = 0x00000007#32 := by decide

theorem test_decodeTableWord :
    decodeTableWord 32 0x00000106 = some (.decrypt 1 .encrypt) ∧ decodeTableWord 32 0x00020005 = none ∧
    decodeTableWord 16 0x00020005 = some (.encrypt 0 .encrypt) := by decide

/-! ### One step of each command -/

/-- V13 step 2: slot 1 ALLOCATED with key_size 32, HANDLE 1, code 0. -/
theorem test_allocate_46 :
    nextWith (exec (.allocate 0 .encrypt) { idle with regs := { Regs.zero with klen := 46#32 } })
      (fun t => decide (t.regs.handle = 1#8 ∧ t.code = .ok ∧ t.slots = [allocatedSlot 32, Slot.zero])) = true := by
  decide

/-- V13 step 5: BadParam is checked before AllocFail. -/
theorem test_allocate_bad_length_no_slot :
    nextWith
      (exec (.allocate 0 .encrypt)
        { idle with
          regs := { Regs.zero with klen := 16#32, handle := 2#8 }, slots := [allocatedSlot 32, allocatedSlot 32] })
      (fun t => decide (t.regs.handle = 0#8 ∧ t.code = .badParam)) = true := by decide

/-- V14: one PrimDispose(1), the slot wiped. -/
theorem test_deallocate_wipes :
    nextWith (exec (.deallocate 1 .encrypt) residue)
      (fun t => decide (t.slots = [Slot.zero, Slot.zero] ∧ t.port = [.dispose 1] ∧ t.code = .ok ∧
        t.primOf 1 = .absent)) = true := by decide

/-- V13 step 11: 3 > NCTX. -/
theorem test_deallocate_out_of_range :
    nextWith (exec (.deallocate 3 .encrypt) residue)
      (fun t => decide (t.slots = residue.slots ∧ t.port = [] ∧ t.code = .badParam)) = true := by decide

/-- V17: the salt of a 24-byte key starts at byte 24. -/
theorem test_contextInit_192 :
    nextWith
      (exec (.contextInit 1 .encrypt)
        { withSlot (allocatedSlot 24) .absent idle with
          regs := { Regs.zero with kptr := 0x1000#32 }, answers := [.ok]
          mem := lay 0x1000#32
            ((List.range 32).map (BitVec.ofNat 8) ++ (List.range 14).map fun j => BitVec.ofNat 8 (0xc0 + j)) [] })
      (fun t => decide (t.code = .ok ∧ (t.slot 1).offset = 0x18191a1b1c1d1e1fc0c1c2c3c4c50000#128 ∧
        (t.slot 1).counter = 0x18191a1b1c1d1e1fc0c1c2c3c4c50000#128 ∧
        (t.slot 1).key = 0x000102030405060708090a0b0c0d0e0f10111213141516170000000000000000#256 ∧
        cxInfoWord (t.slot 1) = 0x00001218#32)) = true := by decide

/-- V20: PrimCreate fails. -/
theorem test_contextInit_initFail :
    nextWith (exec (.contextInit 1 .encrypt) { allocated with answers := [.fail] })
      (fun t => decide (t.code = .initFail ∧ t.slots = allocated.slots ∧ t.port = [.create 1])) = true := by decide

/-- V21 row 2 on the offset a0..ad, V22: direction 1 changes nothing. -/
theorem test_setIv_xor :
    nextWith
      (exec (.setIv 1 .decrypt)
        { residue with
          regs := { Regs.zero with ivptr := 0x1100#32 }
          mem := lay 0x1100#32 (bytesOf 0x00000000deadbeef0000000012340000#128) [] })
      (fun t => decide ((t.slot 1).counter = 0xa0a1a2a37a081848a8a9aaabbe990000#128 ∧ (t.slot 1).kavail = 0#4 ∧
        (t.slot 1).ksbuf = 0#128 ∧ (t.slot 1).phase = .ready ∧ t.code = .ok)) = true := by decide

/-- V23 (a): SET_IV on an ALLOCATED slot. -/
theorem test_setIv_no_handle :
    nextWith
      (exec (.setIv 1 .encrypt)
        { allocated with
          regs := { Regs.zero with ivptr := 0x1100#32 }
          mem := lay 0x1100#32 (bytesOf 0x0102030405060708090a0b0c0d0e0f10#128) [] })
      (fun t => decide ((t.slot 1).counter = 0x0102030405060708090a0b0c0d0e0f10#128 ∧
        (t.slot 1).phase = .allocated ∧ t.code = .fail ∧ t.port = [])) = true := by decide

/-- V27 (b): the residue first, then two bytes of a new block. -/
theorem test_encrypt_residue :
    nextWith (exec (.encrypt 1 .encrypt) (residue.withBuffers 0x2020#32 14 0x3014#32 14))
      (fun t => decide (ofBytes 112 (t.bytes 0x3014#32 14) = 0x85f7e7b7575655544166fffe5f5e#112 ∧
        (t.slot 1).counter = 0xa0a1a2a37a081848a8a9aaabbe990003#128 ∧ (t.slot 1).kavail = 14#4 ∧
        t.port.length = 1 ∧ t.code = .ok)) = true := by decide

/-- V33: source addresses wrap past the top of memory. -/
theorem test_encrypt_address_wrap :
    nextWith
      (exec (.encrypt 1 .encrypt)
        (State.withBuffers { ready with mem := lay 0xFFFFFFFE#32 [0xaa#8, 0xbb#8, 0xcc#8, 0xdd#8] [] }
          0xFFFFFFFE#32 4 0x3000#32 4))
      (fun t => decide (t.bytes 0x3000#32 4 = [0xaa#8, 0xba#8, 0xce#8, 0xde#8] ∧ t.code = .ok)) = true := by decide

/-- V32, with one block answered: CipherFail in mid-stream after 16 bytes. -/
theorem test_decrypt_midstream_fail :
    nextWith (exec (.decrypt 1 .encrypt) (State.withBuffers { ready with answers := [.ok, .fail] }
        0x2000#32 20 0x3000#32 20))
      (fun t => decide (ofBytes 128 (t.bytes 0x3000#32 16) = 0xfffefdfcfbfaf9f8f7f6f5f4f3f2ffff#128 ∧
        t.byte 0x3010#32 = 0#8 ∧ (t.slot 1).counter = 0x000102030405060708090a0b0c0d0001#128 ∧
        cxInfoWord (t.slot 1) = 0x00001210#32 ∧ t.code = .cipherFail)) = true := by decide

/-- V34: in place. -/
theorem test_decrypt_in_place :
    nextWith (exec (.decrypt 1 .encrypt) (ready.withBuffers 0x2000#32 4 0x2000#32 4))
      (fun t => decide (t.bytes 0x2000#32 5 = [0xff#8, 0xfe#8, 0xfd#8, 0xfc#8, 0xff#8] ∧ t.regs.dlen = 4#32 ∧
        t.code = .ok)) = true := by decide

/-- V35: SET_AAD with CTX naming no slot. -/
theorem test_setAad :
    nextWith (exec (.setAad 255 .decrypt) residue)
      (fun t => decide (t.slots = residue.slots ∧ t.code = .ok)) = true := by decide

/-! ### The step and the register file -/

/-- V10: the illegal word 0x80000001 from the reset state, HANDLE not written. -/
theorem test_step_illegal :
    nextWith (step ({ State.reset with regs := { Regs.zero with handle := 1#8 } }.withFetchWord 32 0x80000001))
      (fun t => decide (t.code = .badParam ∧ t.busy = false ∧ t.regs.handle = 1#8)) = true := by decide

/-- V10: ALLOCATE with KLEN 0 is the first command after reset. -/
theorem test_step_first_after_reset :
    nextWith (step (State.reset.withFetchWord 32 0x00010001))
      (fun t => decide (t.code = .badParam ∧ t.busy = false)) = true := by decide

/-- V12: CAPS of an engine with NCTX = 2. -/
theorem test_read_caps : idle.regRead 0x2C#8 = 0x00000702#32 := by decide

/-- V12: CTXSEL keeps its low 8 bits. -/
theorem test_write_ctxsel :
    nextWith (hostRegWrite 0x30#8 .word 0x00000101#32 idle)
      (fun t => decide (t.regRead 0x30#8 = 0x00000001#32)) = true := by decide

/-- V15 (offset part): the window of offset c0 to cd. -/
theorem test_window_offset :
    windowWord 0xc0c1c2c3c4c5c6c7c8c9cacbcccd0000#128 0 = 0xC0C1C2C3#32 ∧
    windowWord 0xc0c1c2c3c4c5c6c7c8c9cacbcccd0000#128 3 = 0xCCCD0000#32 := by decide

/-- V36: STATUS while BUSY shows the old code. -/
theorem test_status_busy : statusWord true .allocFail = 0x00000301#32 := by decide

/-- R41: a reserved offset reads 0 while BUSY = 1, no value drawn (93_implementation_defined.md U15). -/
theorem test_read_reserved_busy :
    nextWith (hostRegRead 0x34#8 .word { idle.launch 7#32 with rdata := 5#32 })
      (fun t => decide (t.rdata = 0#32 ∧ t.draws = 0)) = true := by decide

/-- V24a rows 3 and 5. -/
theorem test_inc16 :
    inc16 0x000102030405060708090a0b0c0dfeff#128 = 0x000102030405060708090a0b0c0dff00#128 ∧
    inc16 0xffffffffffffffffffffffffffffffff#128 = 0xffffffffffffffffffffffffffff0000#128 := by decide

/-! ### Witnesses: the hypotheses of every statement are met together, clause by clause -/

/-- Word `w` launched and running, the events to come given. -/
def running (s : State) (w : Word) (ev : List Event) : State := { s.launch w with sched := ev }

/-- The events to come given. -/
def with1 (s : State) (e : Event) : State := { s with sched := [e] }

/-- A read of the register file. -/
abbrev rd (off : BitVec 8) : Event := .host (.regRead off .word)

/-- A write of the register file. -/
abbrev wr (off : BitVec 8) (v : Word) : Event := .host (.regWrite off .word v)

theorem witness_DecodeEncodeRoundTrip :
    (Instr.allocate 0 .encrypt).wellFormed = true ∧ (Instr.deallocate 255 .decrypt).wellFormed = true ∧
    (Instr.contextInit 1 .encrypt).wellFormed = true ∧ (Instr.setIv 255 .decrypt).wellFormed = true ∧
    (Instr.encrypt 0 .encrypt).wellFormed = true ∧ (Instr.decrypt 255 .decrypt).wellFormed = true ∧
    (Instr.setAad 255 .decrypt).wellFormed = true := by decide

theorem witness_EncodeDecodeRoundTrip :
    decode 0x0001FF05#32 = .instr (.encrypt 255 .decrypt) ∧ decode 0x00000001#32 = .instr (.allocate 0 .encrypt) := by
  decide

/-- The clauses at bits 4, 7, 17 and 31 and at opcodes 0, 8 and 15. -/
theorem witness_IllegalWordCompletesBadParam :
    List.Forall (fun w : Word => (running idle w [.engine]).busy = true ∧ (running idle w [.engine]).hung = false ∧
      (running idle w [.engine]).sched = .engine :: [] ∧ (running idle w []).busy = true ∧
      (running idle w []).hung = false ∧ (running idle w []).sched = [] ∧
      (w.toNat / 2 ^ 4 % 2 ^ 4 ≠ 0 ∨ w.toNat / 2 ^ 17 ≠ 0 ∨ w.toNat % 16 = 0 ∨ 8 ≤ w.toNat % 16))
      [0x00000011#32, 0x00000085#32, 0x00020005#32, 0x80000001#32, 0x00000000#32, 0x00000008#32, 0x0001FF0F#32] := by
  decide

/-- ENCRYPT launched; the same word in the latch of an idle engine. -/
theorem witness_StepRunsTheLaunchedCommand :
    List.Forall (fun ev => (running idle 0x00000105#32 ev).busy = true ∧ (running idle 0x00000105#32 ev).hung = false ∧
      decode (running idle 0x00000105#32 ev).latch = .instr (.encrypt 1 .encrypt) ∧
      ({ running idle 0x00000105#32 ev with busy := false } : State).busy = false ∧
      ({ running idle 0x00000105#32 ev with busy := false } : State).sched = ev) [[], [Event.engine]] := by decide

theorem witness_CmdWriteLaunches :
    (with1 idle (wr 0x00#8 1#32)).busy = false ∧ (with1 idle (wr 0x00#8 1#32)).sched = wr 0x00#8 1#32 :: [] ∧
    (running idle 7#32 [wr 0x00#8 1#32]).busy = true ∧
    (running idle 7#32 [wr 0x00#8 1#32]).sched = wr 0x00#8 1#32 :: [] ∧
    (with1 idle (rd 0x00#8)).busy = false ∧ (with1 idle (rd 0x00#8)).sched = rd 0x00#8 :: [] := by decide

/-- The clauses of CmdWriteLaunches on buffers: a context found, none at 0, at NCTX + 1 and on a FREE slot; ENCRYPT with
DLEN = SLEN, with DLEN one below, and not READY. -/
theorem witness_CmdWriteLaunches_buffers :
    (1 ≤ 1 ∧ 1 ≤ ready.nctx ∧ (ready.slot 1).phase ≠ .free) ∧
    (∀ h ∈ [0, 2, 3], ¬(1 ≤ h ∧ h ≤ ready.nctx ∧ (ready.slot h).phase ≠ .free)) ∧
    decode 0x00000103#32 = .instr (.contextInit 1 .encrypt) ∧ decode 0x00000003#32 = .instr (.contextInit 0 .encrypt) ∧
    decode 0x00000104#32 = .instr (.setIv 1 .encrypt) ∧ decode 0x00000304#32 = .instr (.setIv 3 .encrypt) ∧
    decode 0x00000106#32 = .instr (.decrypt 1 .encrypt) ∧
    ((ready.withBuffers 0#32 4 8#32 4).regs.slen.toNat ≤ (ready.withBuffers 0#32 4 8#32 4).regs.dlen.toNat ∧
      (ready.slot 1).phase = .ready) ∧
    ¬((ready.withBuffers 0#32 4 8#32 3).regs.slen.toNat ≤ (ready.withBuffers 0#32 4 8#32 3).regs.dlen.toNat) ∧
    ¬(inited.slot 1).phase = .ready ∧ decode 0x00000001#32 = .instr (.allocate 0 .encrypt) ∧
    decode 0x00000102#32 = .instr (.deallocate 1 .encrypt) ∧ decode 0x00000007#32 = .instr (.setAad 0 .encrypt) ∧
    decode 0x00000008#32 = .illegal .noSuchOpcode := by decide

/-- CMD, STATUS, both ends of a reserved range and the registers next to it. -/
theorem witness_BusyRegisterAccess :
    (∀ off ∈ [0x00#8, 0x04#8, 0x30#8, 0x34#8, 0x3C#8, 0x40#8, 0xFC#8], off.toNat % 4 = 0 ∧
      (running idle 7#32 [wr off 1#32]).busy = true ∧ (running idle 7#32 [wr off 1#32]).sched = wr off 1#32 :: [] ∧
      (running idle 7#32 [rd off]).busy = true ∧ (running idle 7#32 [rd off]).sched = rd off :: []) ∧
    (∀ off ∈ [0x34#8, 0x3C#8, 0xFC#8], IsReserved off) ∧
    ∀ off ∈ [0x00#8, 0x30#8, 0x40#8], off ≠ 0x04#8 ∧ ¬IsReserved off := by decide

/-- Every offset of the map and the ends of every reserved range. -/
theorem witness_IdleRegisterReads :
    (∀ off ∈ [0x00#8, 0x04#8, 0x08#8, 0x0C#8, 0x10#8, 0x14#8, 0x18#8, 0x1C#8, 0x20#8, 0x24#8, 0x28#8, 0x2C#8, 0x30#8, 0x40#8,
        0x44#8, 0x48#8, 0x4C#8, 0x50#8, 0x54#8, 0x80#8, 0x90#8, 0xAC#8],
      off.toNat % 4 = 0 ∧ (with1 idle (rd off)).busy = false ∧ (with1 idle (rd off)).sched = rd off :: []) ∧
    (∀ off ∈ [0x34#8, 0x3C#8, 0x58#8, 0x7C#8, 0x84#8, 0x8C#8, 0xB0#8, 0xFC#8],
      (with1 idle (rd off)).busy = false ∧ (with1 idle (rd off)).sched = rd off :: [] ∧ off.toNat % 4 = 0 ∧
      IsReserved off) ∧
    idle.nctx ≤ 255 := by decide

theorem witness_IdleRegisterWrites :
    ∀ off ∈ [0x08#8, 0x0C#8, 0x10#8, 0x14#8, 0x18#8, 0x1C#8, 0x20#8, 0x24#8, 0x30#8],
      (with1 idle (wr off 0xFFFFFFFF#32)).busy = false ∧
      (with1 idle (wr off 0xFFFFFFFF#32)).sched = wr off 0xFFFFFFFF#32 :: [] := by decide

theorem witness_ReadOnlyWritesAreIgnored :
    ∀ off ∈ [0x04#8, 0x28#8, 0x2C#8, 0x34#8, 0x80#8, 0xFC#8],
      off.toNat % 4 = 0 ∧ (off = 0x04#8 ∨ off = 0x28#8 ∨ off = 0x2C#8 ∨ 0x34 ≤ off.toNat) ∧
      (with1 idle (wr off 5#32)).sched = wr off 5#32 :: [] := by decide

theorem witness_NarrowAccessIsRefused :
    (Width.byte ≠ .word ∨ (0x00#8).toNat % 4 ≠ 0) ∧ (Width.half ≠ .word ∨ (0xFC#8).toNat % 4 ≠ 0) ∧
    (Width.word ≠ .word ∨ (0xFD#8).toNat % 4 ≠ 0) ∧ (Width.word ≠ .word ∨ (0x03#8).toNat % 4 ≠ 0) ∧
    (with1 idle (.host (.regRead 0x00#8 .byte))).sched = .host (.regRead 0x00#8 .byte) :: [] ∧
    (with1 idle (.host (.regWrite 0xFD#8 .word 1#32))).sched = .host (.regWrite 0xFD#8 .word 1#32) :: [] := by decide

/-- CTXSEL = `h`. -/
def selecting (h : BitVec 8) : State := { residue with regs := { residue.regs with ctxsel := h } }

/-- CTXSEL at 1, at NCTX, at 0 and at NCTX + 1. -/
theorem witness_WindowShowsTheSelectedSlot :
    List.Forall (fun h => 1 ≤ (selecting h).regs.ctxsel.toNat ∧ (selecting h).regs.ctxsel.toNat ≤ (selecting h).nctx ∧
      ((selecting h).slot (selecting h).regs.ctxsel.toNat).keySize < 64) [1#8, 2#8] ∧
    List.Forall (fun h => (selecting h).regs.ctxsel.toNat = 0 ∨ (selecting h).nctx < (selecting h).regs.ctxsel.toNat)
      [0#8, 3#8, 255#8] := by decide

/-- The register file visible in memory from an address on. -/
def regFileAt (a : Addr) (s : State) : State := { s with plat := { s.plat with regBase := some a } }

/-- ENCRYPT of 4 bytes from 0x2000 to 0x3000 runs; addresses at both ends of its ranges and just outside. -/
def cryptBusy (ev : List Event) : State := running (ready.withBuffers 0x2000#32 4 0x3000#32 4) 0x00000105#32 ev

/-- The register file at 0x8000; ENCRYPT running, at both ends of its ranges, just outside, and at both ends of the
register file. -/
theorem witness_BufferHazardIsRefused :
    List.Forall (fun a : Addr => (regFileAt 0x8000#32 (cryptBusy [])).hitsRegFile ⟨a, 1⟩ = false)
      [0x2000#32, 0x2003#32, 0x3000#32, 0x3003#32, 0x1FFF#32, 0x2004#32, 0x2FFF#32, 0x3004#32, 0x7FFF#32] ∧
    List.Forall (fun a : Addr => (regFileAt 0x8000#32 (cryptBusy [])).hitsRegFile ⟨a, 1⟩ = true)
      [0x8000#32, 0x80FF#32] ∧
    List.Forall (fun a : Addr => ((cryptBusy []).held.reads.any fun r => r.covers a) = true) [0x2000#32, 0x2003#32] ∧
    List.Forall (fun a : Addr => ((cryptBusy []).held.writes.any fun r => r.covers a) = true) [0x3000#32, 0x3003#32] ∧
    List.Forall (fun a : Addr => ((cryptBusy []).held.reads.any fun r => r.covers a) = false ∧
      ((cryptBusy []).held.writes.any fun r => r.covers a) = false) [0x1FFF#32, 0x2004#32, 0x2FFF#32, 0x3004#32] := by
  decide

/-- A launch, a read of STATUS and a turn of the engine give next states. -/
theorem witness_HeldBuffersChangeOnlyThere :
    nextWith (step (with1 ready (wr 0x00#8 0x00000105#32))) (fun _ => true) = true ∧
    nextWith (step (with1 ready (rd 0x04#8))) (fun _ => true) = true ∧
    nextWith (step (cryptBusy [.engine])) (fun _ => true) = true := by decide

/-- ENCRYPT completed, its destination still held. -/
theorem witness_StatusReadIsTheAcquire :
    let s : State := { cryptBusy [rd 0x04#8, .host (.memRead 0x3000#32)] with busy := false }
    s.busy = false ∧ s.hitsRegFile ⟨0x3000#32, 1⟩ = false ∧
    s.sched = rd 0x04#8 :: .host (.memRead 0x3000#32) :: [] := by decide

/-- A running ENCRYPT steps by the engine, by a host access and by a reset; an idle engine by a launch. -/
theorem witness_RunningCommandHoldsItsBuffers :
    (∀ ev ∈ [Event.engine, rd 0x04#8, .host (.memWrite 0x5000#32 1#8), .reset],
      (cryptBusy [ev]).Inv ∧ nextWith (step (cryptBusy [ev])) (fun _ => true) = true) ∧
    (∀ ev ∈ [Event.engine, rd 0x04#8, .host (.memWrite 0x5000#32 1#8), .reset], (cryptBusy [ev]).HeldOk) ∧
    (with1 ready (wr 0x00#8 0x00000105#32)).Inv ∧ (with1 ready (wr 0x00#8 0x00000105#32)).HeldOk ∧
    nextWith (step (with1 ready (wr 0x00#8 0x00000105#32))) (fun _ => true) = true :=
  ⟨by decide, by decide, by decide, by decide, by decide⟩

/-- R197: the destination is refused after completion too, until STATUS is read. -/
theorem test_destination_held_after_completion :
    refusedFor (step { cryptBusy [.host (.memRead 0x3000#32)] with busy := false }) .bufferHazard = true ∧
    nextWith (step { cryptBusy [rd 0x04#8] with busy := false }) (fun t => decide (t.held = Buffers.none)) = true := by
  decide

theorem witness_ResetInputClearsTheEngine :
    (cryptBusy [.reset]).sched = .reset :: [] ∧ Memory.wf (cryptBusy [.reset]).mem = true ∧
    (cryptBusy [.reset]).busyBuffers.writes = [⟨0x3000#32, 4⟩] ∧
    (closed (cryptBusy [.reset])).hang.busyBuffers.writes = [⟨0x3000#32, 4⟩] ∧
    List.Forall (fun a : Addr => ((cryptBusy [.reset]).busyBuffers.writes.any fun r => r.covers a) = false)
      [0x2FFF#32, 0x3004#32] := by decide

theorem idle_inv : idle.Inv := by decide

theorem ready_inv : ready.Inv := by decide

theorem residue_inv : residue.Inv := by decide

theorem inited_inv : inited.Inv := by decide

theorem allocated_inv : allocated.Inv := by decide

/-- A running ENCRYPT in mid-residue steps to a next state; so does a host access and a reset. -/
theorem witness_StepKeepsTheInvariant :
    ∀ ev ∈ [Event.engine, rd 0x04#8, .host (.memWrite 0x5000#32 1#8), .reset],
      (running (residue.withBuffers 0x2020#32 14 0x3014#32 14) 0x00000105#32 [ev]).Inv ∧
      nextWith (step (running (residue.withBuffers 0x2020#32 14 0x3014#32 14) 0x00000105#32 [ev]))
        (fun _ => true) = true := by decide

theorem witness_StepNeverFaults : (cryptBusy [.engine]).Inv := by decide

theorem witness_StepKeepsTheParameters : ∃ t, step (cryptBusy [.engine]) = .next t :=
  (nextWith_exists (p := fun _ => true) (by decide)).imp fun _ h => h.1

/-- A command that completes, one that is stuck, and a stuck state that steps, also by a reset. -/
theorem witness_CompletionOrStuck :
    nextWith (exec (.setAad 0 .encrypt) idle) (fun t => !t.busy) = true ∧
    nextWith (exec (.setIv 1 .encrypt) (closed inited)) (fun t => t.busy && t.hung) = true ∧
    (∀ ev ∈ [Event.engine, .reset, rd 0x28#8, wr 0x00#8 2#32],
      (running idle 4#32 [ev]).hang.busy = true ∧ (running idle 4#32 [ev]).hang.hung = true ∧
      nextWith (step (running idle 4#32 [ev]).hang) (fun _ => true) = true) ∧
    (running idle 4#32 []).hang.sched = [] ∧ nextWith (step (running idle 4#32 []).hang) (fun _ => true) = true := by decide

theorem ready_admits (k : Access) (a : Addr) (n : Nat) (hn : n ≤ Config.maxRequest) : ready.admits k a n = true := by
  have h : (a - 0#32).toNat < 2 ^ 32 := (a - 0#32).isLt
  simp only [Config.maxRequest] at hn
  cases k <;> simp [State.admits, ready, withSlot, idle, testPlat, Platform.admitAll, State.resetOf, Window.admits,
    Window.all, Config.addrSpace, Config.maxRequest] <;> omega

/-- ENCRYPT of 20 bytes: two block requests. -/
theorem witness_EveryCommandCompletes :
    let s := ready.withBuffers 0x2000#32 20 0x3000#32 20
    s.Inv ∧ s.hung = false ∧ (∀ k a n, n ≤ Config.maxRequest → s.admits k a n = true) ∧ s.plat.regBase = none ∧ (∀ x ∈ s.answers, x ≠ .silent) ∧
    1 + blocksNeeded s.regs.slen.toNat (s.slot (Instr.encrypt 1 .encrypt).ctx).kavail.toNat ≤ s.answers.length :=
  ⟨by decide, rfl, ready_admits, rfl, by decide, by decide⟩

/-- A next state with BUSY 0 for each command. -/
theorem witness_CodesOfEachCommand :
    nextWith (exec (.allocate 0 .encrypt) idle) (fun t => !t.busy) = true ∧
    nextWith (exec (.deallocate 1 .encrypt) ready) (fun t => !t.busy) = true ∧
    nextWith (exec (.contextInit 1 .encrypt) allocated) (fun t => !t.busy) = true ∧
    nextWith (exec (.setIv 1 .encrypt) inited) (fun t => !t.busy) = true ∧
    nextWith (exec (.encrypt 1 .encrypt) ready) (fun t => !t.busy) = true ∧
    nextWith (exec (.decrypt 1 .encrypt) ready) (fun t => !t.busy) = true ∧
    nextWith (exec (.setAad 0 .encrypt) ready) (fun t => !t.busy) = true := by decide

theorem isCrypt_encrypt (h : Nat) : IsCrypt (.encrypt h .encrypt) h := ⟨.encrypt, .inl rfl⟩

theorem isCrypt_decrypt (h : Nat) : IsCrypt (.decrypt h .encrypt) h := ⟨.encrypt, .inr rfl⟩

theorem isOnContext_setIv (h : Nat) : IsOnContext (.setIv h .encrypt) h := ⟨.encrypt, .inr (.inr (.inl rfl))⟩

theorem isOnContext_deallocate (h : Nat) : IsOnContext (.deallocate h .encrypt) h := ⟨.encrypt, .inl rfl⟩

/-- SET_IV of an INITED slot; ALLOCATE with Ok and with an error. -/
theorem witness_PhasesMoveByTheTable :
    IsOnContext (.setIv 1 .encrypt) 1 ∧ inited.Inv ∧ inited.hung = false ∧
    nextWith (exec (.setIv 1 .encrypt) inited) (fun t => !t.busy) = true ∧
    nextWith (exec (.allocate 0 .encrypt) { inited with regs := { Regs.zero with klen := 30#32 } })
      (fun t => decide (t.code = .ok)) = true ∧
    nextWith (exec (.allocate 0 .encrypt) inited) (fun t => decide (t.code ≠ .ok)) = true ∧
    nextWith (exec (.setAad 0 .encrypt) inited) (fun _ => true) = true :=
  ⟨isOnContext_setIv 1, inited_inv, rfl, by decide, by decide, by decide, by decide⟩

theorem witness_OtherContextsAreUntouched :
    IsOnContext (.deallocate 1 .encrypt) 1 ∧ nextWith (exec (.deallocate 1 .encrypt) ready) (fun _ => true) = true ∧
    2 ≠ 1 ∧ ready.Inv ∧ nextWith (exec (.allocate 0 .encrypt) ready) (fun _ => true) = true ∧
    nextWith (exec (.setAad 0 .encrypt) ready) (fun _ => true) = true :=
  ⟨isOnContext_deallocate 1, by decide, by decide, ready_inv, by decide, by decide⟩

theorem witness_ContextsAreIsolated : IsOnContext (.setIv 1 .encrypt) 1 ∧ 2 ≠ 1 := ⟨isOnContext_setIv 1, by decide⟩

theorem setIv_not_crypt (h : Nat) : ¬IsCrypt (.setIv 1 .encrypt) h := by
  rintro ⟨d, hd | hd⟩ <;> cases hd

theorem deallocate_not_crypt (h : Nat) : ¬IsCrypt (.deallocate 1 .encrypt) h := by
  rintro ⟨d, hd | hd⟩ <;> cases hd

/-- A command that stores nothing, and one that stores, with the bytes just outside its destination. -/
theorem witness_MemoryFrame :
    Memory.wf ready.mem = true ∧ nextWith (exec (.setIv 1 .encrypt) ready) (fun _ => true) = true ∧
    (∀ h, ¬IsCrypt (.setIv 1 .encrypt) h) ∧
    nextWith (exec (.encrypt 1 .encrypt) (ready.withBuffers 0x2000#32 4 0x3000#32 4)) (fun t => !t.busy) = true ∧
    IsCrypt (.encrypt 1 .encrypt) 1 ∧
    (ready.withBuffers 0x2000#32 4 0x3000#32 4).dstRange.covers 0x2FFF#32 = false ∧
    (ready.withBuffers 0x2000#32 4 0x3000#32 4).dstRange.covers 0x3004#32 = false :=
  ⟨by decide, by decide, setIv_not_crypt, by decide, isCrypt_encrypt 1, by decide, by decide⟩

theorem witness_RegisterFrame :
    ∃ t, exec (.decrypt 1 .encrypt) (ready.withBuffers 0x2000#32 4 0x3000#32 4) = .next t :=
  (nextWith_exists (p := fun _ => true) (by decide)).imp fun _ h => h.1

theorem witness_SlotFrame :
    ready.Inv ∧ nextWith (exec (.setIv 1 .encrypt) ready) (fun _ => true) = true ∧
    IsCrypt (.encrypt 1 .encrypt) 1 ∧ nextWith (exec (.encrypt 1 .encrypt) ready) (fun _ => true) = true ∧
    nextWith (exec (.contextInit 1 .encrypt) ready) (fun _ => true) = true :=
  ⟨ready_inv, by decide, isCrypt_encrypt 1, by decide, by decide⟩

/-- One transaction of another command; a successful ENCRYPT of 17 bytes with two. -/
theorem witness_TransactionsOfEachCommand :
    nextWith (exec (.deallocate 1 .encrypt) ready) (fun _ => true) = true ∧
    (∀ h, ¬IsCrypt (.deallocate 1 .encrypt) h) ∧ IsCrypt (.encrypt 1 .encrypt) 1 ∧
    nextWith (exec (.encrypt 1 .encrypt) (ready.withBuffers 0x2000#32 17 0x3000#32 17))
      (fun t => decide (t.busy = false ∧ t.code = .ok)) = true :=
  ⟨by decide, deallocate_not_crypt, isCrypt_encrypt 1, by decide⟩

/-- Handles 0, NCTX + 1, 255 and a FREE slot. -/
theorem witness_BadHandleChangesNothing :
    IsOnContext (.setIv 3 .encrypt) 3 ∧
    ∀ h ∈ [0, 2, 3, 255], h = 0 ∨ ready.nctx < h ∨ (ready.slot h).phase = .free :=
  ⟨isOnContext_setIv 3, by decide⟩

/-- Lengths next to the valid ones; a full pool; the first and the last slot free. -/
theorem witness_AllocateFollowsItsRule :
    idle.nctx ≤ 255 ∧
    List.Forall (fun k : Word => ¬(k = 30#32 ∨ k = 38#32 ∨ k = 46#32))
      [0#32, 29#32, 31#32, 47#32, 286#32, 0xFFFFFFFF#32] ∧
    (∀ j, 1 ≤ j → j ≤ 2 →
      (({ idle with slots := [allocatedSlot 16, allocatedSlot 32] } : State).slot j).phase ≠ .free) ∧
    (idle.slot 1).phase = .free ∧ (∀ j, 1 ≤ j → j < 1 → (idle.slot j).phase ≠ .free) ∧
    (allocated.slot 2).phase = .free ∧ (∀ j, 1 ≤ j → j < 2 → (allocated.slot j).phase ≠ .free) := by
  refine ⟨by decide, by decide, fun j h1 h2 => ?_, by decide, fun j h1 h2 => by omega, by decide, fun j h1 h2 => ?_⟩
  · obtain rfl | rfl : j = 1 ∨ j = 2 := by omega
    · decide
    · decide
  · obtain rfl : j = 1 := by omega
    decide

theorem witness_DeallocateWipesTheSlot :
    ready.prims.length = ready.nctx ∧ (∀ h ∈ [0, 2, 3], h = 0 ∨ ready.nctx < h ∨ (ready.slot h).phase = .free) ∧
    1 ≤ 1 ∧ 1 ≤ ready.nctx ∧ (ready.slot 1).phase ≠ .free ∧ (ready.slot 1).prim = true ∧
    (allocated.slot 1).phase ≠ .free ∧ (allocated.slot 1).prim = false := by decide

/-- A slot that owns no handle, and one that does. -/
theorem witness_ContextInitLoadsKeyAndSalt :
    ∀ s ∈ [allocated, ready], s.keySaltAdmitted 1 ∧
      ((s.slot 1).keySize = 16 ∨ (s.slot 1).keySize = 24 ∨ (s.slot 1).keySize = 32) ∧
      ((s.slot 1).prim = true ∨ s.answers.head? = some .ok) := by decide

theorem witness_ContextInitCreateFailure :
    ({ allocated with answers := [.fail] } : State).ctxOk 1 = true ∧
    (({ allocated with answers := [.fail] } : State).slot 1).prim = false ∧
    ({ allocated with answers := [.fail] } : State).answers.head? = some .fail := by decide

/-- The key sizes next to the valid ones. -/
theorem witness_ContextInitOnACorruptSlot :
    ∀ ks ∈ [0, 15, 17, 31, 33], let s := withSlot { readySlot with keySize := ks } (.programmed []) idle
      s.ctxOk 1 = true ∧ (s.slot 1).keySize ≠ 16 ∧ (s.slot 1).keySize ≠ 24 ∧ (s.slot 1).keySize ≠ 32 ∧
      (s.slot 1).prim = true ∧ s.hitsRegFile (s.keySaltRange (s.slot 1).keySize) = false ∧
      s.admits .read (byteAddr s.regs.kptr (s.slot 1).keySize) 14 = true := by decide

theorem witness_SetIvDerivesTheCounter :
    ∀ s ∈ [inited, ready], s.ivAdmitted 1 ∧ (s.slot 1).prim = true ∧ s.answers.head? = some .ok ∧
      s.prims.length = s.nctx := by decide

theorem witness_SetIvFailures :
    allocated.ivAdmitted 1 ∧ (allocated.slot 1).prim = false ∧
    ({ inited with answers := [.fail] } : State).ivAdmitted 1 ∧ (inited.slot 1).prim = true ∧
    ({ inited with answers := [.fail] } : State).answers.head? = some .fail := by decide

/-- Completion with Ok and with Fail; the IV at address 0 is zero. -/
theorem witness_CounterIsOffsetXorIv :
    inited.ctxOk 1 = true ∧ nextWith (exec (.setIv 1 .encrypt) inited) (fun t => !t.busy) = true ∧
    (∀ j < 16, inited.byte (byteAddr inited.regs.ivptr j) = 0#8) ∧ allocated.ctxOk 1 = true ∧
    nextWith (exec (.setIv 1 .encrypt) allocated) (fun t => !t.busy) = true := by decide

/-- The platform admits reads of up to `n` bytes from `base` on, `span` addresses, and nothing else. -/
def reading (base : Addr) (span n : Nat) (s : State) : State :=
  { s with
    plat := { s.plat with windows := [{ base := base, span := span, minLen := 0, maxLen := n, reads := true, writes := false }] } }

/-- Nothing admitted, with a handle owned and with one to create; the salt admitted and the key not, by the length. -/
theorem witness_UnadmittedReadIsStuck :
    ((closed inited).ctxOk 1 = true ∧ (closed inited).hitsRegFile (closed inited).ivRange = false ∧
      (closed inited).admits .read (closed inited).regs.ivptr 16 = false) ∧
    (∀ s ∈ [closed inited, closed allocated], s.ctxOk 1 = true ∧
      ((s.slot 1).prim = true ∨ s.answers.head? = some .ok) ∧
      s.hitsRegFile (s.keySaltRange (s.slot 1).keySize) = false ∧
      s.admits .read (byteAddr s.regs.kptr (s.slot 1).keySize) 14 = false) ∧
    (∀ s ∈ [reading 0#32 0x100 14 inited, reading 0#32 0x100 14 allocated], s.ctxOk 1 = true ∧
      ((s.slot 1).prim = true ∨ s.answers.head? = some .ok) ∧
      s.hitsRegFile (s.keySaltRange (s.slot 1).keySize) = false ∧
      s.admits .read (byteAddr s.regs.kptr (s.slot 1).keySize) 14 = true ∧ (s.slot 1).keySize = 16 ∧
      s.admits .read s.regs.kptr (s.slot 1).keySize = false) :=
  ⟨by decide, by decide, by decide⟩

theorem witness_SilentTransactionIsStuck :
    ({ allocated with answers := [.silent] } : State).answers.head? = some .silent ∧ allocated.ctxOk 1 = true ∧
    (allocated.slot 1).prim = false ∧ ({ inited with answers := [.silent] } : State).answers.head? = some .silent ∧
    ({ inited with answers := [.silent] } : State).ivAdmitted 1 ∧ (inited.slot 1).prim = true := by decide

/-- The register file on the last byte of the IV, of the salt, of the source and of the destination. -/
theorem witness_RegisterFileOverlapIsRefused :
    ((regFileAt 0xF#32 inited).ctxOk 1 = true ∧
      (regFileAt 0xF#32 inited).hitsRegFile (regFileAt 0xF#32 inited).ivRange = true) ∧
    List.Forall (fun s : State => s.ctxOk 1 = true ∧ ((s.slot 1).prim = true ∨ s.answers.head? = some .ok) ∧
      s.hitsRegFile (s.keySaltRange (s.slot 1).keySize) = true) [regFileAt 29#32 inited, regFileAt 29#32 allocated] ∧
    IsCrypt (.decrypt 1 .encrypt) 1 ∧
    List.Forall (fun s : State => s.cryptRuns 1 = true ∧ (s.hitsRegFile s.srcRange = true ∨ s.hitsRegFile s.dstRange = true))
      [regFileAt 0x2003#32 (ready.withBuffers 0x2000#32 4 0x3000#32 4),
        regFileAt 0x3003#32 (ready.withBuffers 0x2000#32 4 0x3000#32 4)] :=
  ⟨by decide, by decide, isCrypt_decrypt 1, by decide⟩

/-- DLEN one below SLEN, also where a signed compare would differ; DLEN = SLEN on a slot that is not READY. -/
theorem witness_CryptErrorsBeforeAccess :
    IsCrypt (.encrypt 1 .encrypt) 1 ∧ ready.ctxOk 1 = true ∧
    (ready.withBuffers 0#32 1 0#32 0).regs.dlen.toNat < (ready.withBuffers 0#32 1 0#32 0).regs.slen.toNat ∧
    (ready.withBuffers 0#32 0x80000000 0#32 0x7FFFFFFF).regs.dlen.toNat <
      (ready.withBuffers 0#32 0x80000000 0#32 0x7FFFFFFF).regs.slen.toNat ∧
    inited.ctxOk 1 = true ∧
    (inited.withBuffers 0#32 0 0#32 0).regs.slen.toNat ≤ (inited.withBuffers 0#32 0 0#32 0).regs.dlen.toNat ∧
    (inited.slot 1).phase ≠ .ready :=
  ⟨isCrypt_encrypt 1, by decide, by decide, by decide, by decide, by decide, by decide⟩

/-- No byte, exactly the residue, one byte more; a partial overlap. -/
def closedFormStates : List State :=
  [residue.withBuffers 0x2000#32 0 0x3000#32 0, residue.withBuffers 0x2020#32 12 0x3014#32 12,
    residue.withBuffers 0x2020#32 13 0x2020#32 13, residue.withBuffers 0x2000#32 13 0x2002#32 13]

theorem witness_CryptClosedForm :
    IsCrypt (.decrypt 1 .encrypt) 1 ∧ (∀ s ∈ closedFormStates, s.Inv ∧ s.hung = false) ∧
    ∀ s ∈ closedFormStates, s.cryptAdmitted 1 ∧
      s.primOks (blocksNeeded s.regs.slen.toNat (s.slot 1).kavail.toNat) ∧
      partialOverlap s.regs.src s.regs.dst s.regs.slen.toNat = decide (s.regs.dst = 0x2002#32) :=
  ⟨isCrypt_decrypt 1, by decide, by decide⟩

/-- 5 bytes and then 9, across the end of the residue. -/
theorem witness_StreamingLaw :
    ∃ t t1 t2, IsCrypt (.encrypt 1 .encrypt) 1 ∧ residue.Inv ∧ residue.hung = false ∧ 5 + 9 < 2 ^ 32 ∧
      partialOverlap 0x2020#32 0x3014#32 (5 + 9) = false ∧
      exec (.encrypt 1 .encrypt) (residue.withBuffers 0x2020#32 (5 + 9) 0x3014#32 (5 + 9)) = .next t ∧
      (t.busy = false ∧ t.code = .ok) ∧
      exec (.encrypt 1 .encrypt) (residue.withBuffers 0x2020#32 5 0x3014#32 5) = .next t1 ∧
      (t1.busy = false ∧ t1.code = .ok) ∧
      exec (.encrypt 1 .encrypt) (t1.withBuffers (byteAddr 0x2020#32 5) 9 (byteAddr 0x3014#32 5) 9) = .next t2 ∧
      (t2.busy = false ∧ t2.code = .ok) := by
  obtain ⟨t, ht, hp⟩ := nextWith_exists (p := fun t => decide (t.busy = false ∧ t.code = .ok))
    (o := exec (.encrypt 1 .encrypt) (residue.withBuffers 0x2020#32 (5 + 9) 0x3014#32 (5 + 9))) (by decide)
  obtain ⟨t1, ht1, hp1⟩ := nextWith_exists
    (p := fun t1 => decide (t1.busy = false ∧ t1.code = .ok) &&
      nextWith (exec (.encrypt 1 .encrypt) (t1.withBuffers (byteAddr 0x2020#32 5) 9 (byteAddr 0x3014#32 5) 9))
        fun t2 => decide (t2.busy = false ∧ t2.code = .ok))
    (o := exec (.encrypt 1 .encrypt) (residue.withBuffers 0x2020#32 5 0x3014#32 5)) (by decide)
  rw [Bool.and_eq_true] at hp1
  obtain ⟨t2, ht2, hp2⟩ := nextWith_exists hp1.2
  exact ⟨t, t1, t2, isCrypt_encrypt 1, residue_inv, rfl, by decide, by decide, ht, of_decide_eq_true hp, ht1,
    of_decide_eq_true hp1.1, ht2, of_decide_eq_true hp2⟩

/-- Run a chain of commands, each from the next state of the one before; every one completes with Ok. -/
def chainOk (s : State) : List (Instr × (State → State)) → Bool
  | [] => true
  | (i, f) :: rest => nextWith (exec i (f s)) fun t => decide (t.busy = false ∧ t.code = .ok) && chainOk t rest

theorem chainOk_cons {s : State} {i : Instr} {f : State → State} {rest : List (Instr × (State → State))}
    (h : chainOk s ((i, f) :: rest) = true) :
    ∃ t, exec i (f s) = .next t ∧ (t.busy = false ∧ t.code = .ok) ∧ chainOk t rest = true := by
  obtain ⟨t, ht, hp⟩ := nextWith_exists h
  rw [Bool.and_eq_true] at hp
  exact ⟨t, ht, of_decide_eq_true hp.1, hp.2⟩

/-- SET_IV, ENCRYPT of 20 bytes, SET_IV, DECRYPT; six answers `ok`. -/
theorem witness_InvolutionLaw :
    ∃ s s1 s2 s3 s4 : State, IsCrypt (.encrypt 1 .encrypt) 1 ∧ IsCrypt (.decrypt 1 .encrypt) 1 ∧ s.Inv ∧
      s.hung = false ∧ 20 < 2 ^ 32 ∧ partialOverlap 0x2000#32 0x3000#32 20 = false ∧
      partialOverlap 0x3000#32 0x3000#32 20 = false ∧ s.ivRange.overlaps ⟨0x3000#32, 20⟩ = false ∧
      exec (.setIv 1 .encrypt) s = .next s1 ∧ (s1.busy = false ∧ s1.code = .ok) ∧
      exec (.encrypt 1 .encrypt) (s1.withBuffers 0x2000#32 20 0x3000#32 20) = .next s2 ∧
      (s2.busy = false ∧ s2.code = .ok) ∧
      exec (.setIv 1 .decrypt) s2 = .next s3 ∧ (s3.busy = false ∧ s3.code = .ok) ∧
      exec (.decrypt 1 .encrypt) (s3.withBuffers 0x3000#32 20 0x3000#32 20) = .next s4 ∧
      (s4.busy = false ∧ s4.code = .ok) := by
  have h : chainOk { ready with answers := List.replicate 6 .ok }
      [(.setIv 1 .encrypt, id), (.encrypt 1 .encrypt, (·.withBuffers 0x2000#32 20 0x3000#32 20)),
        (.setIv 1 .decrypt, id), (.decrypt 1 .encrypt, (·.withBuffers 0x3000#32 20 0x3000#32 20))] = true := by
    decide
  obtain ⟨s1, h1, p1, h⟩ := chainOk_cons h
  obtain ⟨s2, h2, p2, h⟩ := chainOk_cons h
  obtain ⟨s3, h3, p3, h⟩ := chainOk_cons h
  obtain ⟨s4, h4, p4, _⟩ := chainOk_cons h
  exact ⟨_, s1, s2, s3, s4, isCrypt_encrypt 1, isCrypt_decrypt 1, by decide, rfl, by decide, by decide, by decide,
    by decide, h1, p1, h2, p2, h3, p3, h4, p4⟩

/-- 29 bytes to encrypt on a residue of 12, `q` block requests answered ok and the next one fail. -/
def failing (q : Nat) : State :=
  { residue.withBuffers 0x2020#32 29 0x3014#32 29 with answers := List.replicate q .ok ++ .fail :: [.ok] }

/-- The first request fails, the residue used; the second request fails. -/
theorem witness_MidStreamCipherFail :
    IsCrypt (.encrypt 1 .encrypt) 1 ∧
    (∀ q ∈ [0, 1], (failing q).Inv ∧ (failing q).hung = false) ∧
    ∀ q ∈ [0, 1], (failing q).cryptAdmitted 1 ∧
      partialOverlap (failing q).regs.src (failing q).regs.dst (failing q).regs.slen.toNat = false ∧
      q < blocksNeeded (failing q).regs.slen.toNat ((failing q).slot 1).kavail.toNat ∧
      (failing q).answers = List.replicate q .ok ++ .fail :: [.ok] :=
  ⟨isCrypt_encrypt 1, by decide, by decide⟩

/-- The platform admits one-byte requests: reads of the first `r` source and writes of the first `w` destination bytes of
a transform of 29 bytes on a residue of 12. -/
def admitting (r w : Nat) : State :=
  let s := residue.withBuffers 0x2020#32 29 0x3014#32 29
  { s with
    plat := { s.plat with
      windows := [{ base := 0x2020#32, span := r, minLen := 1, maxLen := 1, reads := true, writes := false },
        { base := 0x3014#32, span := w, minLen := 1, maxLen := 1, reads := false, writes := true }] } }

/-- The first byte, the last of the residue, the first of a block; a read and a write not admitted. -/
theorem witness_UnadmittedByteIsStuck :
    IsCrypt (.encrypt 1 .encrypt) 1 ∧
    (∀ x ∈ [(0, 5, 0), (11, 11, 29), (12, 29, 12)], (admitting x.2.1 x.2.2).Inv ∧
      (admitting x.2.1 x.2.2).hung = false) ∧
    ∀ x ∈ [(0, 5, 0), (11, 11, 29), (12, 29, 12)], let s := admitting x.2.1 x.2.2
      s.cryptRuns 1 = true ∧ s.hitsRegFile s.srcRange = false ∧ s.hitsRegFile s.dstRange = false ∧
      x.1 < s.regs.slen.toNat ∧ s.admitsBytes .read s.regs.src x.1 = true ∧
      s.admitsBytes .write s.regs.dst x.1 = true ∧
      (s.admits .read (byteAddr s.regs.src x.1) 1 = false ∨ s.admits .write (byteAddr s.regs.dst x.1) 1 = false) ∧
      s.primOks (blocksNeeded (x.1 + 1) (s.slot 1).kavail.toNat) ∧
      partialOverlap s.regs.src s.regs.dst s.regs.slen.toNat = false :=
  ⟨isCrypt_encrypt 1, by decide, by decide⟩

/-- 29 bytes on a residue of 12, `q` block requests answered ok and the next one not at all. -/
def unanswered (q : Nat) : State :=
  { residue.withBuffers 0x2020#32 29 0x3014#32 29 with answers := List.replicate q .ok ++ .silent :: [.ok] }

theorem witness_SilentBlockRequestIsStuck :
    IsCrypt (.encrypt 1 .encrypt) 1 ∧
    (∀ q ∈ [0, 1], (unanswered q).Inv ∧ (unanswered q).hung = false) ∧
    ∀ q ∈ [0, 1], (unanswered q).cryptAdmitted 1 ∧
      q < blocksNeeded (unanswered q).regs.slen.toNat ((unanswered q).slot 1).kavail.toNat ∧
      (unanswered q).answers = List.replicate q .ok ++ .silent :: [.ok] ∧
      partialOverlap (unanswered q).regs.src (unanswered q).regs.dst (unanswered q).regs.slen.toNat = false :=
  ⟨isCrypt_encrypt 1, by decide, by decide⟩

theorem witness_MemoryReadAfterWrite : Memory.wf ready.mem = true := by decide

/-- The whole address space and the empty range. -/
theorem witness_RangesAreAddressSets :
    (⟨0xFFFFFFFF#32, 2 ^ 32⟩ : Range).len ≤ 2 ^ 32 ∧ (⟨0#32, 0⟩ : Range).len ≤ 2 ^ 32 := by decide

end Sys2Proof.Tests
end

section
/-! PROOFS. No step changes the parameters of the machine: NCTX, the block cipher and what the platform admits
(spec/00_scope.md R6, spec/10_state.md R28). Every operation on the state keeps them, then every command, then every
agent's move. -/

namespace Sys2Proof.Machine

/-- The parameters of a state that R6 fixes for the life of the machine: NCTX and the platform record. -/
def State.params (s : State) : Nat × Platform := (s.nctx, s.plat)

theorem State.params_eq_iff {s t : State} : t.params = s.params ↔ t.nctx = s.nctx ∧ t.plat = s.plat := Prod.mk_inj

section Operations

variable (s : State)

@[simp] theorem State.params_setSlot (h : Nat) (c : Slot) : (s.setSlot h c).params = s.params :=
  params_eq_iff.mpr ⟨s.nctx_setSlot h c, s.plat_setSlot h c⟩

@[simp] theorem State.params_setPrim (h : Nat) (p : PrimHandle) : (s.setPrim h p).params = s.params := by
  simp [params, nctx]

@[simp] theorem State.params_answered : s.answered.params = s.params := by simp [params, nctx]

@[simp] theorem State.params_acquire : s.acquire.params = s.params := by simp [params, nctx]

@[simp] theorem State.params_setHandle (h : Nat) : (s.setHandle h).params = s.params := rfl

@[simp] theorem State.params_setDlen (v : Word) : (s.setDlen v).params = s.params := rfl

@[simp] theorem State.params_complete (c : Code) : (s.complete c).params = s.params := rfl

@[simp] theorem State.params_hang : s.hang.params = s.params := rfl

@[simp] theorem State.params_drawn : s.drawn.params = s.params := rfl

@[simp] theorem State.params_storeByte (a : Addr) (b : Byte) : (s.storeByte a b).params = s.params := rfl

@[simp] theorem State.params_issue (t : PrimTxn) : (s.issue t).params = s.params := rfl

@[simp] theorem State.params_setRdata (v : Word) : (s.setRdata v).params = s.params := rfl

@[simp] theorem State.params_launch (w : Word) : (s.launch w).params = s.params := rfl

@[simp] theorem State.params_disposeIfOwned (h : Nat) : (s.disposeIfOwned h).params = s.params := by
  unfold disposeIfOwned
  split
  · simp [primDispose]
  · rfl

@[simp] theorem State.params_storeFreeRange (base : Addr) (n i : Nat) :
    (State.storeFreeRange base n i s).params = s.params := by
  obtain ⟨m, d, e⟩ := storeFreeRange_eq base n i s
  rw [e]; rfl

@[simp] theorem State.params_settleOverlap (src dst : Addr) (n : Nat) :
    (s.settleOverlap src dst n).params = s.params := by
  obtain ⟨m, d, e⟩ := s.settleOverlap_eq src dst n
  rw [e]; rfl

@[simp] theorem State.params_readReg (r : Reg) : (s.readReg r).params = s.params := by
  obtain ⟨v, n, e⟩ := s.readReg_eq r
  rw [e]; rfl

@[simp] theorem State.params_abandon : s.abandon.params = s.params :=
  List.foldlRecOn (motive := fun t : State => t.params = s.params) _ _ rfl fun t ht r _ => by simp [ht]

@[simp] theorem State.params_clearEngine : s.clearEngine.params = s.params := by simp [clearEngine, params, nctx]

@[simp] theorem State.params_hardReset : s.hardReset.params = s.params := by simp [hardReset]

@[simp] theorem State.params_cipherFailMidStream (h : Nat) : (cipherFailMidStream h s).params = s.params := by
  simp [cipherFailMidStream]

end Operations

/-- An outcome's next state, if it has one, has the parameters of `s`. -/
def KeepsParams (s : State) (o : Host.Outcome State Fault Refusal) : Prop := ∀ t, o = .next t → t.params = s.params

section Outcomes

variable {s t : State}

@[simp] theorem keepsParams_next : KeepsParams s (.next t) ↔ t.params = s.params := by simp [KeepsParams]

@[simp] theorem keepsParams_fault (f : Fault) : KeepsParams s (.fault f) := nofun

@[simp] theorem keepsParams_refused (r : Refusal) : KeepsParams s (.refused r) := nofun

/-- What keeps the parameters of a state keeps those of every state with the same ones. -/
theorem KeepsParams.of_params_eq {o : Host.Outcome State Fault Refusal} (ho : KeepsParams t o)
    (ht : t.params = s.params) : KeepsParams s o :=
  fun u hu => (ho u hu).trans ht

end Outcomes

section Loop

/-- The state a transaction leaves, whatever its answer. -/
@[simp] def Reply.state {α : Type} : Reply α → State
  | .ok _ s => s
  | .fail s => s
  | .silent s => s

/-- The state the loop of R135 ends in; none for a block request that breaks the contract of R93. -/
def LoopEnd.state? : LoopEnd → Option State
  | .done s => some s
  | .failed s => some s
  | .stuck s => some s
  | .broken => none

theorem State.params_of_primBlock {s : State} {h : Nat} {c : Block} {r : Reply Block} (e : s.primBlock h c = some r) :
    r.state.params = s.params := by
  cases hp : s.primOf h with
  | absent => simp [primBlock, hp] at e
  | created => simp [primBlock, hp] at e
  | programmed key =>
    rcases primBlock_cases hp c with ⟨-, e'⟩ | ⟨-, e'⟩ | ⟨-, e'⟩ <;>
      obtain rfl := Option.some.inj (e'.symm.trans e) <;> simp

theorem params_of_nextKs {s : State} {h : Nat} {r : Reply Byte} (e : nextKs h s = some r) :
    r.state.params = s.params := by
  by_cases hk : (s.slot h).kavail = 0#4
  · cases hb : s.primBlock h (s.slot h).counter with
    | none => simp [nextKs, hk, hb] at e
    | some q =>
      have hq := State.params_of_primBlock hb
      cases q <;>
      · simp only [nextKs, hk, hb, if_true, Option.some.injEq] at e
        subst e
        simpa using hq
  · simp only [nextKs, hk, if_false, Option.some.injEq] at e
    cases e
    simp

theorem params_of_xorByte {s t : State} {src dst : Addr} {k : Byte} (e : xorByte src dst k s = some t) :
    t.params = s.params := by
  simp only [xorByte, State.memWrite1] at e
  split at e
  · cases e
  · split_ifs at e
    cases e
    simp

/-- The loop keeps the parameters from every state, also one whose memory is not in its canonical form or whose handle
is not programmed (`xorLoop_keeps` and `transform_cases` speak of the others). -/
theorem params_of_xorLoop {h : Nat} {src dst : Addr} (n i : Nat) {s t : State}
    (e : (xorLoop h src dst n i s).state? = some t) : t.params = s.params := by
  induction n generalizing i s with
  | zero => cases e; rfl
  | succ n ih =>
    unfold xorLoop at e
    cases hk : nextKs h s with
    | none => simp [hk, LoopEnd.state?] at e
    | some r =>
      have hr := params_of_nextKs hk
      cases r with
      | fail u => simp only [hk] at e; cases e; exact hr
      | silent u => simp only [hk] at e; cases e; exact hr
      | ok k u =>
        cases hx : xorByte (byteAddr src i) (byteAddr dst i) k u with
        | none => simp only [hk, hx] at e; cases e; exact hr
        | some v =>
          simp only [hk, hx] at e
          exact ((ih (i + 1) e).trans (params_of_xorByte hx)).trans hr

end Loop

section Commands

variable (s : State) (h : Nat)

theorem transform_keepsParams : KeepsParams s (transform h s) := by
  simp only [transform]
  cases e : xorLoop h s.regs.src s.regs.dst s.regs.slen.toNat 0 s with
  | broken => simp
  | done t => simpa using params_of_xorLoop _ _ (congrArg LoopEnd.state? e)
  | failed t => simpa using params_of_xorLoop _ _ (congrArg LoopEnd.state? e)
  | stuck t => simpa using params_of_xorLoop _ _ (congrArg LoopEnd.state? e)

theorem crypt_keepsParams : KeepsParams s (crypt h s) := by
  rcases crypt_cases s h with ⟨-, e⟩ | ⟨-, -, e⟩ | ⟨-, -, -, e⟩ | ⟨-, e⟩ | ⟨-, e⟩ <;> rw [e]
  · simp
  · simp
  · simp
  · simp
  · exact transform_keepsParams s h

theorem execAllocate_keepsParams : KeepsParams s (execAllocate s) := by
  unfold execAllocate
  cases variantOf s.regs.klen with
  | none => simp
  | some v => cases s.leastFree <;> simp

theorem execDeallocate_keepsParams : KeepsParams s (execDeallocate h s) := by
  unfold execDeallocate
  cases s.ctxOk h <;> simp

theorem contextInitKey_keepsParams : KeepsParams s (contextInitKey h s) := by
  simp only [contextInitKey]
  split_ifs
  · simp
  · simp
  · cases s.memRead s.regs.kptr (s.slot h).keySize <;> simp

theorem contextInitLoad_keepsParams : KeepsParams s (contextInitLoad h s) := by
  simp only [contextInitLoad]
  split
  · simp
  · exact (contextInitKey_keepsParams _ h).of_params_eq (by simp)

theorem execContextInit_keepsParams : KeepsParams s (execContextInit h s) := by
  have load (t : State) (ht : t.params = s.params) : KeepsParams s
      (if t.hitsRegFile (t.keySaltRange (t.slot h).keySize) then .refused .registerFileOverlap
        else contextInitLoad h t) := by
    split_ifs
    · simp
    · exact (contextInitLoad_keepsParams t h).of_params_eq ht
  rcases execContextInit_cases s h with ⟨-, e⟩ | ⟨-, -, e⟩ | ⟨-, -, -, e⟩ | ⟨-, -, -, e⟩ | ⟨-, -, -, e⟩ <;> rw [e]
  · simp
  · exact load s rfl
  · exact load _ (by simp)
  · simp
  · simp

theorem execSetIv_keepsParams (d : Dir) : KeepsParams s (execSetIv h d s) := by
  rcases execSetIv_cases s h d with ⟨-, e⟩ | ⟨-, -, e⟩ | ⟨-, -, -, e⟩ | ⟨⟨hc, -⟩, e⟩ <;> rw [e]
  · simp
  · simp
  · simp
  · obtain ⟨h1, h2, -⟩ := (s.ctxOk_iff h).mp hc
    rcases setIvProgram_cases s h h1 h2 ((s.slot h).withIv s.iv) with ⟨-, e⟩ | ⟨-, -, e⟩ | ⟨-, -, e⟩ | ⟨-, -, e⟩ <;>
      rw [e] <;> simp

/-- No command changes the parameters (R6, R28). -/
theorem exec_keepsParams (i : Instr) : KeepsParams s (exec i s) := by
  cases i with
  | allocate _ _ => exact execAllocate_keepsParams s
  | deallocate h _ => exact execDeallocate_keepsParams s h
  | contextInit h _ => exact execContextInit_keepsParams s h
  | setIv h d => exact execSetIv_keepsParams s h d
  | encrypt h _ => exact crypt_keepsParams s h
  | decrypt h _ => exact crypt_keepsParams s h
  | setAad _ _ => simp [exec, execSetAad]

end Commands

section Moves

variable (s : State)

theorem engineTurn_keepsParams : KeepsParams s (engineTurn s) := by
  unfold engineTurn
  split_ifs
  · cases decode s.latch with
    | instr i => exact exec_keepsParams s i
    | illegal _ => simp [State.illegalWord]
  · simp

theorem hostRegRead_keepsParams (off : BitVec 8) (width : Width) : KeepsParams s (hostRegRead off width s) := by
  rcases hostRegRead_cases s off width with ⟨-, e⟩ | ⟨-, r, -, e⟩ | ⟨-, -, e⟩ <;> rw [e] <;> simp

theorem hostRegWrite_keepsParams (off : BitVec 8) (width : Width) (v : Word) :
    KeepsParams s (hostRegWrite off width v s) := by
  rcases hostRegWrite_cases s off width v with ⟨-, e⟩ | ⟨-, -, e⟩ | ⟨-, -, -, e⟩ | ⟨-, -, r, g, -, -, e⟩ <;> rw [e]
  · simp
  · simp
  · simp
  · exact keepsParams_next.mpr rfl

theorem hostMemWrite_keepsParams (a : Addr) (b : Byte) : KeepsParams s (hostMemWrite a b s) := by
  unfold hostMemWrite
  split_ifs <;> simp

theorem hostMemRead_keepsParams (a : Addr) : KeepsParams s (hostMemRead a s) := by
  unfold hostMemRead
  split_ifs <;> simp

/-- No move of an agent changes the parameters (R11). -/
theorem takeEvent_keepsParams (e : Event) : KeepsParams s (takeEvent e s) := by
  match e with
  | .engine => exact engineTurn_keepsParams s
  | .host (.regWrite off width v) => exact hostRegWrite_keepsParams s off width v
  | .host (.regRead off width) => exact hostRegRead_keepsParams s off width
  | .host (.memWrite a b) => exact hostMemWrite_keepsParams s a b
  | .host (.memRead a) => exact hostMemRead_keepsParams s a
  | .reset => simp [takeEvent]

theorem step_keepsParams : KeepsParams s (step s) := by
  unfold step
  cases s.sched with
  | nil => exact engineTurn_keepsParams s
  | cons e rest => exact (takeEvent_keepsParams _ e).of_params_eq rfl

end Moves

/-- Settles O22: every agent's move keeps NCTX and the platform record. -/
theorem stepKeepsTheParameters : Obligations.StepKeepsTheParameters := by
  unfold Obligations.StepKeepsTheParameters
  exact fun s t h => State.params_eq_iff.mp (step_keepsParams s t h)

end Sys2Proof.Machine
end

section
/-! PROOFS. What an operation on one context can touch, from every state (spec/10_state.md R26, R27, R30;
spec/40_primitive_port.md R90): what a slot holds after a write, then one relation that every operation keeps. -/

namespace Sys2Proof.Machine

section Reads

/-- Writing a slot with what it holds changes nothing. -/
@[simp] theorem State.setSlot_slot (s : State) (h : Nat) : s.setSlot h (s.slot h) = s := by
  cases h with
  | zero => rfl
  | succ k =>
    by_cases hk : k < s.slots.length
    · simp [State.setSlot, State.slot, hk]
    · simp [State.setSlot, List.set_eq_of_length_le (Nat.le_of_not_lt hk)]

/-- What a write of slot `h` leaves in slot `h`: the value written, or what was there when `h` names no slot. -/
theorem State.slot_setSlot_or (s : State) (h : Nat) (c : Slot) :
    (s.setSlot h c).slot h = c ∨ (s.setSlot h c).slot h = s.slot h := by
  cases h with
  | zero => exact .inr rfl
  | succ k =>
    by_cases hk : k < s.slots.length
    · exact .inl (s.slot_setSlot_same (by omega) hk c)
    · exact .inr (by simp [State.setSlot, State.slot, List.set_eq_of_length_le (Nat.le_of_not_lt hk)])

/-- A part of a slot that a write of slot `h` does not change is the same in every slot afterwards. -/
theorem State.slot_setSlot_part {α : Type} (s : State) {h : Nat} {c : Slot} (f : Slot → α) (hf : f c = f (s.slot h))
    (j : Nat) : f ((s.setSlot h c).slot j) = f (s.slot j) := by
  by_cases hj : j = h
  · subst hj
    rcases s.slot_setSlot_or j c with e | e <;> rw [e]
    exact hf
  · rw [s.slot_setSlot_ne hj]

@[simp] theorem State.slot_settleOverlap (s : State) (src dst : Addr) (n j : Nat) :
    (s.settleOverlap src dst n).slot j = s.slot j := by
  obtain ⟨m, d, e⟩ := s.settleOverlap_eq src dst n
  rw [e]; rfl

@[simp] theorem State.primOf_settleOverlap (s : State) (src dst : Addr) (n j : Nat) :
    (s.settleOverlap src dst n).primOf j = s.primOf j := by
  obtain ⟨m, d, e⟩ := s.settleOverlap_eq src dst n
  rw [e]; rfl

@[simp] theorem State.primOf_setDlen (s : State) (v : Word) (j : Nat) : (s.setDlen v).primOf j = s.primOf j :=
  State.primOf_congr rfl j

@[simp] theorem State.primOf_setHandle (s : State) (n j : Nat) : (s.setHandle n).primOf j = s.primOf j :=
  State.primOf_congr rfl j

@[simp] theorem State.nctx_settleOverlap (s : State) (src dst : Addr) (n : Nat) :
    (s.settleOverlap src dst n).nctx = s.nctx := by
  obtain ⟨m, d, e⟩ := s.settleOverlap_eq src dst n
  rw [e]; rfl

end Reads

/-- What lies outside context `h` is in `t` as it was in `s`, the registers included. Slot `h`, handle `h`, the status,
the bytes of memory and the port of the primitive are free; memory stays canonical. -/
structure Confined (h : Nat) (s t : State) : Prop where
  regs      : t.regs = s.regs
  latch     : t.latch = s.latch
  held      : t.held = s.held
  plat      : t.plat = s.plat
  rdata     : t.rdata = s.rdata
  sched     : t.sched = s.sched
  nctx      : t.nctx = s.nctx
  primCount : t.prims.length = s.prims.length
  slots     : ∀ j, j ≠ h → t.slot j = s.slot j
  prims     : ∀ j, j ≠ h → t.primOf j = s.primOf j
  wf        : Memory.wf s.mem = true → Memory.wf t.mem = true

namespace Confined

variable {h : Nat} {s t u : State}

theorem refl : Confined h s s := ⟨rfl, rfl, rfl, rfl, rfl, rfl, rfl, rfl, fun _ _ => rfl, fun _ _ => rfl, id⟩

theorem trans (a : Confined h s t) (b : Confined h t u) : Confined h s u where
  regs := b.regs.trans a.regs
  latch := b.latch.trans a.latch
  held := b.held.trans a.held
  plat := b.plat.trans a.plat
  rdata := b.rdata.trans a.rdata
  sched := b.sched.trans a.sched
  nctx := b.nctx.trans a.nctx
  primCount := b.primCount.trans a.primCount
  slots := fun j hj => (b.slots j hj).trans (a.slots j hj)
  prims := fun j hj => (b.prims j hj).trans (a.prims j hj)
  wf := b.wf ∘ a.wf

theorem complete (k : Confined h s t) {c : Code} : Confined h s (t.complete c) := { k with }

theorem hang (k : Confined h s t) : Confined h s t.hang := { k with }

theorem issue (k : Confined h s t) {x : PrimTxn} : Confined h s (t.issue x) := { k with }

theorem drawn (k : Confined h s t) : Confined h s t.drawn := { k with }

theorem answered (k : Confined h s t) : Confined h s t.answered := by
  unfold State.answered
  split
  · exact { k with }
  · exact k.drawn

theorem storeByte (k : Confined h s t) {a : Addr} {b : Byte} : Confined h s (t.storeByte a b) :=
  { k with wf := fun hm => t.wf_storeByte (k.wf hm) a b }

theorem setSlot (k : Confined h s t) {c : Slot} : Confined h s (t.setSlot h c) :=
  k.trans ⟨by simp, by simp, by simp, by simp, by simp, by simp, t.nctx_setSlot h c, by simp,
    fun _ hj => t.slot_setSlot_ne hj c, by simp, by simp⟩

theorem setPrim (k : Confined h s t) {p : PrimHandle} : Confined h s (t.setPrim h p) :=
  k.trans ⟨by simp, by simp, by simp, by simp, by simp, by simp, by simp [State.nctx],
    by cases h <;> simp [State.setPrim], by simp, fun _ hj => t.primOf_setPrim_ne hj p, by simp⟩

/-- The engine's write of DLEN is outside every context: it goes before or after a confined change alike. -/
theorem setDlen (k : Confined h s t) {v : Word} : Confined h (s.setDlen v) (t.setDlen v) :=
  { k with regs := by simp [k.regs] }

/-- The engine's write of HANDLE is outside every context. -/
theorem setHandle (k : Confined h s t) {n : Nat} : Confined h (s.setHandle n) (t.setHandle n) :=
  { k with regs := by simp [k.regs] }

theorem storeFreeRange (k : Confined h s t) {base : Addr} {n i : Nat} :
    Confined h s (State.storeFreeRange base n i t) := by
  obtain ⟨m, d, e⟩ := State.storeFreeRange_eq base n i t
  have hwf := State.storeFreeRange_mem base n i t
  rw [e] at hwf ⊢
  exact { k with wf := fun hm => (hwf (k.wf hm)).1 }

theorem settleOverlap (k : Confined h s t) {src dst : Addr} {n : Nat} : Confined h s (t.settleOverlap src dst n) := by
  unfold State.settleOverlap
  split_ifs
  · exact k.storeFreeRange
  · exact k

theorem disposeIfOwned (k : Confined h s t) : Confined h s (t.disposeIfOwned h) := by
  unfold State.disposeIfOwned
  split_ifs
  · exact k.issue.setPrim
  · exact k

theorem le_nctx (k : Confined h s t) (h2 : h ≤ s.nctx) : h ≤ t.nctx := h2.trans_eq k.nctx.symm

end Confined

end Sys2Proof.Machine
end

section
/-! PROOFS. What each command can touch, from every state (spec/10_state.md R26, R27, R30): a rule for the keystream
loop, how each command can end, and that the change is confined to the context it names. -/

namespace Sys2Proof.Machine

section Loop

variable {h : Nat} {P : State → Prop}

/-- `P` is kept by every change the loop of R135 makes on context `h`: a block request, whatever its answer, the two
ways to take a keystream byte, and a byte stored. -/
structure LoopRule (h : Nat) (P : State → Prop) : Prop where
  request    : ∀ s, P s → P (s.issue (.block h (s.slot h).counter)).answered
  takeBlock  : ∀ s b, P s → P (s.setSlot h ((s.slot h).takeBlock b))
  useResidue : ∀ s, P s → P (s.setSlot h (s.slot h).useResidue)
  storeByte  : ∀ s a b, P s → P (s.storeByte a b)

theorem LoopRule.nextKs (hP : LoopRule h P) {s : State} {r : Reply Byte} (e : nextKs h s = some r) (hs : P s) :
    P r.state := by
  unfold Machine.nextKs at e
  by_cases hk : (s.slot h).kavail = 0#4
  · simp only [hk, if_true] at e
    have hu := hP.request s hs
    cases hp : s.primOf h with
    | absent => simp [State.primBlock, hp] at e
    | created => simp [State.primBlock, hp] at e
    | programmed key =>
      rcases State.primBlock_cases hp (s.slot h).counter with ⟨-, e'⟩ | ⟨-, e'⟩ | ⟨-, e'⟩ <;>
        (rw [e'] at e; obtain rfl := Option.some.inj e)
      · simpa using hP.takeBlock _ (cipherFn s.plat.cipher key (s.slot h).counter) hu
      · exact hu
      · exact hu
  · simp only [hk, if_false] at e
    obtain rfl := Option.some.inj e
    exact hP.useResidue s hs

theorem LoopRule.xorByte (hP : LoopRule h P) {s t : State} {src dst : Addr} {k : Byte}
    (e : xorByte src dst k s = some t) (hs : P s) : P t := by
  simp only [Machine.xorByte, State.memWrite1] at e
  split at e
  · cases e
  · split_ifs at e
    obtain rfl := Option.some.inj e
    exact hP.storeByte s dst _ hs

/-- What every change of the loop keeps holds where the loop ends, from every state and whichever way it ends. -/
theorem LoopRule.xorLoop (hP : LoopRule h P) {src dst : Addr} (n i : Nat) {s t : State}
    (e : (xorLoop h src dst n i s).state? = some t) (hs : P s) : P t := by
  induction n generalizing i s with
  | zero => obtain rfl := Option.some.inj e; exact hs
  | succ n ih =>
    unfold Machine.xorLoop at e
    cases hk : Machine.nextKs h s with
    | none => simp [hk, LoopEnd.state?] at e
    | some r =>
      have hr := hP.nextKs hk hs
      cases r with
      | fail u => simp only [hk] at e; obtain rfl := Option.some.inj e; exact hr
      | silent u => simp only [hk] at e; obtain rfl := Option.some.inj e; exact hr
      | ok k u =>
        cases hx : Machine.xorByte (byteAddr src i) (byteAddr dst i) k u with
        | none => simp only [hk, hx] at e; obtain rfl := Option.some.inj e; exact hr
        | some v =>
          simp only [hk, hx] at e
          exact ih (i + 1) e (hP.xorByte hx hr)

/-- The loop on context `h` is confined to it. -/
theorem loopRule_confined (s : State) : LoopRule h (Confined h s) :=
  ⟨fun _ k => k.issue.answered, fun _ _ k => k.setSlot, fun _ k => k.setSlot, fun _ _ _ k => k.storeByte⟩

end Loop

section Commands

variable {s t : State} {h : Nat}

/-- How the transform can end, from every state: completion, a failed block request, a stuck request (R135, R137,
R180). -/
theorem transform_ends (e : transform h s = .next t) :
    ∃ w, (xorLoop h s.regs.src s.regs.dst s.regs.slen.toNat 0 s).state? = some w ∧
      let u := w.settleOverlap s.regs.src s.regs.dst s.regs.slen.toNat
      (t = (u.setDlen s.regs.slen).complete .ok ∨ t = cipherFailMidStream h u ∨ t = u.hang) := by
  simp only [transform] at e
  cases hl : xorLoop h s.regs.src s.regs.dst s.regs.slen.toNat 0 s <;> simp only [hl] at e <;> cases e <;>
    exact ⟨_, rfl, by simp⟩

/-- How ENCRYPT and DECRYPT can end, from every state: at a check or in the transform (R135). -/
theorem crypt_ends (e : crypt h s = .next t) :
    (∃ c, t = s.complete c) ∨ (s.cryptRuns h = true ∧ transform h s = .next t) := by
  rcases crypt_cases s h with ⟨-, e'⟩ | ⟨-, -, e'⟩ | ⟨-, -, -, e'⟩ | ⟨-, e'⟩ | ⟨hr, e'⟩ <;> rw [e'] at e
  · cases e; exact .inl ⟨_, rfl⟩
  · cases e; exact .inl ⟨_, rfl⟩
  · cases e; exact .inl ⟨_, rfl⟩
  · cases e
  · exact .inr ⟨hr, e⟩

/-- A next state of a command on context `h` launched in `s`: the change is confined to the context, and the command has
completed or is stuck. -/
def EndsConfined (h : Nat) (s t : State) : Prop := Confined h s t ∧ t.hung = t.busy

theorem Confined.ends_complete (k : Confined h s t) {c : Code} : EndsConfined h s (t.complete c) := ⟨k.complete, rfl⟩

theorem Confined.ends_hang (k : Confined h s t) : EndsConfined h s t.hang := ⟨k.hang, rfl⟩

theorem transform_endsConfined (e : transform h s = .next t) : ∃ v, EndsConfined h (s.setDlen v) t := by
  obtain ⟨w, hw, ht⟩ := transform_ends e
  have k := ((loopRule_confined s).xorLoop _ _ hw .refl).settleOverlap (src := s.regs.src) (dst := s.regs.dst)
    (n := s.regs.slen.toNat)
  obtain rfl | rfl | rfl := ht
  · exact ⟨_, k.setDlen.ends_complete⟩
  · exact ⟨_, k.setDlen.drawn.setSlot.ends_complete⟩
  · exact ⟨s.regs.dlen, k.ends_hang⟩

theorem crypt_endsConfined (e : crypt h s = .next t) : ∃ v, EndsConfined h (s.setDlen v) t := by
  rcases crypt_ends e with ⟨c, rfl⟩ | ⟨-, e'⟩
  · exact ⟨s.regs.dlen, Confined.refl.ends_complete⟩
  · exact transform_endsConfined e'

theorem execDeallocate_endsConfined (e : execDeallocate h s = .next t) : EndsConfined h s t := by
  unfold execDeallocate at e
  split_ifs at e <;> cases e
  · exact Confined.refl.disposeIfOwned.setSlot.ends_complete
  · exact Confined.refl.ends_complete

/-- How SET_IV can end, from every state: at a check, stuck at the IV, or past its steps 1 and 2 (R121). -/
theorem execSetIv_ends {d : Dir} (e : execSetIv h d s = .next t) :
    let c := (s.slot h).withIv s.iv
    let u := ((s.setSlot h c).issue (.program h c.keyBytes c.keySize c.counter .enc)).answered
    t = s.complete .badParam ∨ t = s.hang ∨ s.ctxOk h = true ∧
      (t = (s.setSlot h c).complete .fail ∨
        (c.prim = true ∧
          t = ((u.setPrim h (.programmed c.keyBytes)).setSlot h { c with phase := .ready }).complete .ok) ∨
        (c.prim = true ∧ t = (u.setSlot h { c with phase := .inited }).complete .fail) ∨ t = u.hang) := by
  rcases execSetIv_cases s h d with ⟨-, e'⟩ | ⟨-, -, e'⟩ | ⟨-, -, -, e'⟩ | ⟨⟨hc, -⟩, e'⟩ <;> rw [e'] at e
  · cases e; exact .inl rfl
  · cases e
  · cases e; exact .inr (.inl rfl)
  · obtain ⟨h1, h2, -⟩ := (s.ctxOk_iff h).mp hc
    refine .inr (.inr ⟨hc, ?_⟩)
    rcases setIvProgram_cases s h h1 h2 ((s.slot h).withIv s.iv) with
      ⟨-, e'⟩ | ⟨hp, -, e'⟩ | ⟨hp, -, e'⟩ | ⟨-, -, e'⟩ <;> rw [e'] at e <;> cases e
    · exact .inl rfl
    · exact .inr (.inl ⟨hp, rfl⟩)
    · exact .inr (.inr (.inl ⟨hp, rfl⟩))
    · exact .inr (.inr (.inr rfl))

theorem execSetIv_endsConfined {d : Dir} (e : execSetIv h d s = .next t) : EndsConfined h s t := by
  have k : Confined h s (s.setSlot h ((s.slot h).withIv s.iv)) := Confined.refl.setSlot
  obtain rfl | rfl | ⟨-, rfl | ⟨-, rfl⟩ | ⟨-, rfl⟩ | rfl⟩ := execSetIv_ends e
  · exact Confined.refl.ends_complete
  · exact Confined.refl.ends_hang
  · exact k.ends_complete
  · exact k.issue.answered.setPrim.setSlot.ends_complete
  · exact k.issue.answered.setSlot.ends_complete
  · exact k.issue.answered.ends_hang

/-- The slot a meaning of CONTEXT_INIT leaves, and how it ends: completion or stuck (R111, R180). -/
def EndsWithSlot (h : Nat) (s : State) (c : Slot) (t : State) : Prop :=
  (∃ code, t = (s.setSlot h c).complete code) ∨ t = (s.setSlot h c).hang

/-- How steps 4 and 5 of CONTEXT_INIT can end, from every state: the key size is kept (R111, R112). -/
theorem contextInitKey_ends (e : contextInitKey h s = .next t) :
    ∃ c : Slot, c.keySize = (s.slot h).keySize ∧ EndsWithSlot h s c t := by
  have hself : ∀ code, EndsWithSlot h s (s.slot h) (s.complete code) := fun code => .inl ⟨code, by simp⟩
  simp only [contextInitKey] at e
  split_ifs at e
  · cases e; exact ⟨_, rfl, hself _⟩
  · cases e; exact ⟨_, rfl, hself _⟩
  · split at e <;> cases e
    · exact ⟨s.slot h, rfl, .inr (by simp)⟩
    · exact ⟨_, by rfl, .inl ⟨_, rfl⟩⟩

/-- How CONTEXT_INIT can end once its primitive handle exists, from every state: the key size is kept (R111). -/
theorem contextInitLoad_ends (e : contextInitLoad h s = .next t) :
    ∃ c : Slot, c.keySize = (s.slot h).keySize ∧ EndsWithSlot h s c t := by
  simp only [contextInitLoad] at e
  split at e
  · cases e; exact ⟨_, by rfl, .inr rfl⟩
  · rw [State.setSlot_setSlot_same] at e
    obtain ⟨c, hc, ht⟩ := contextInitKey_ends e
    rw [EndsWithSlot, State.setSlot_setSlot_same] at ht
    refine ⟨c, ?_, ht⟩
    rw [hc]
    exact s.slot_setSlot_part Slot.keySize (by rfl) h

/-- Step 1 of CONTEXT_INIT on `s` gives `u`: the slot owns a handle, or the primitive has created one (R91, R111). -/
def HandleReady (h : Nat) (s u : State) : Prop :=
  ((s.slot h).prim = true ∧ u = s) ∨ u = (s.issue (.create h)).answered.setPrim h .created

theorem HandleReady.confined {u : State} (hu : HandleReady h s u) : Confined h s u := by
  obtain ⟨-, rfl⟩ | rfl := hu
  · exact .refl
  · exact Confined.refl.issue.answered.setPrim

theorem HandleReady.slots {u : State} (hu : HandleReady h s u) : u.slots = s.slots := by
  obtain ⟨-, rfl⟩ | rfl := hu <;> simp

/-- How CONTEXT_INIT can end, from every state: with slots and handles as they were, or in the load of key and salt
(R111). -/
theorem execContextInit_ends (e : execContextInit h s = .next t) :
    (∃ u, Confined h s u ∧ u.slots = s.slots ∧ u.prims = s.prims ∧ ((∃ code, t = u.complete code) ∨ t = u.hang)) ∨
    (s.ctxOk h = true ∧ ∃ u, HandleReady h s u ∧ contextInitLoad h u = .next t) := by
  have k : Confined h s (s.issue (.create h)).answered := Confined.refl.issue.answered
  rcases execContextInit_cases s h with ⟨-, e'⟩ | ⟨hc, hp, e'⟩ | ⟨hc, -, -, e'⟩ | ⟨-, -, -, e'⟩ | ⟨-, -, -, e'⟩ <;>
    rw [e'] at e
  · cases e; exact .inl ⟨s, .refl, rfl, rfl, .inl ⟨_, rfl⟩⟩
  · dsimp only at e
    split_ifs at e
    exact .inr ⟨hc, s, .inl ⟨hp, rfl⟩, e⟩
  · dsimp only at e
    split_ifs at e
    exact .inr ⟨hc, _, .inr rfl, e⟩
  · cases e; exact .inl ⟨_, k, by simp, by simp, .inl ⟨_, rfl⟩⟩
  · cases e; exact .inl ⟨_, k, by simp, by simp, .inr rfl⟩

theorem execContextInit_endsConfined (e : execContextInit h s = .next t) : EndsConfined h s t := by
  obtain ⟨u, k, -, -, ⟨c, rfl⟩ | rfl⟩ | ⟨-, u, hu, e⟩ := execContextInit_ends e
  · exact k.ends_complete
  · exact k.ends_hang
  · obtain ⟨c, -, ⟨code, rfl⟩ | rfl⟩ := contextInitLoad_ends e
    · exact hu.confined.setSlot.ends_complete
    · exact hu.confined.setSlot.ends_hang

/-- Every command with a context operand touches that context and, of the registers, DLEN at most (R26, R30, R90). -/
theorem exec_endsConfined {i : Instr} (hi : IsOnContext i h) (e : exec i s = .next t) :
    ∃ v, EndsConfined h (s.setDlen v) t := by
  obtain ⟨d, rfl | rfl | rfl | rfl | rfl⟩ := hi
  · exact ⟨s.regs.dlen, execDeallocate_endsConfined e⟩
  · exact ⟨s.regs.dlen, execContextInit_endsConfined e⟩
  · exact ⟨s.regs.dlen, execSetIv_endsConfined (d := d) e⟩
  · exact crypt_endsConfined e
  · exact crypt_endsConfined e

/-- A FREE slot that ALLOCATE finds (R101). -/
theorem State.leastFree_eq_some (e : s.leastFree = some h) : 1 ≤ h ∧ h ≤ s.nctx ∧ (s.slot h).phase = .free := by
  obtain ⟨k, hk, rfl⟩ := Option.map_eq_some_iff.mp e
  obtain ⟨hlt, hfree, -⟩ := List.findIdx?_eq_some_iff_getElem.mp hk
  refine ⟨by omega, hlt, ?_⟩
  simpa [State.slot, hlt] using hfree

/-- How ALLOCATE can end: with HANDLE 0 and no slot taken, or with a FREE slot taken (R101). -/
theorem execAllocate_ends (e : execAllocate s = .next t) :
    (∃ c, c ≠ .ok ∧ t = (s.setHandle 0).complete c) ∨
    (∃ v h, s.leastFree = some h ∧
      t = ((s.setSlot h (Slot.allocated (variantKeySize v))).setHandle h).complete .ok) := by
  unfold execAllocate at e
  cases hv : variantOf s.regs.klen with
  | none => rw [hv] at e; cases e; exact .inl ⟨_, by decide, rfl⟩
  | some v =>
    cases hf : s.leastFree with
    | none => rw [hv, hf] at e; cases e; exact .inl ⟨_, by decide, rfl⟩
    | some h => rw [hv, hf] at e; cases e; exact .inr ⟨v, h, rfl, rfl⟩

/-- ALLOCATE touches HANDLE and the slot it then names, and no primitive handle (R27, R101); `h` is 0 when no slot was
taken. -/
theorem execAllocate_endsConfined (e : execAllocate s = .next t) :
    ∃ h ≤ s.nctx, EndsConfined h (s.setHandle h) t ∧ t.prims = s.prims := by
  obtain ⟨c, -, rfl⟩ | ⟨v, h, hf, rfl⟩ := execAllocate_ends e
  · exact ⟨0, Nat.zero_le _, Confined.refl.ends_complete, rfl⟩
  · exact ⟨h, (State.leastFree_eq_some hf).2.1, Confined.refl.setSlot.setHandle.ends_complete, by simp⟩

end Commands

/-- Settles O27: a command on a context is confined to it; ALLOCATE is confined to the slot of HANDLE. -/
theorem otherContextsAreUntouched : Obligations.OtherContextsAreUntouched := by
  unfold Obligations.OtherContextsAreUntouched
  refine ⟨fun i h s t hi e j hj => ?_, fun _ _ s t hinv e => ?_, fun _ _ s t e => ?_⟩
  · obtain ⟨v, k, -⟩ := exec_endsConfined hi e
    exact ⟨k.slots j hj, k.prims j hj⟩
  · obtain ⟨-, hmax, -⟩ := hinv
    obtain ⟨h, hle, ⟨k, -⟩, hp⟩ := execAllocate_endsConfined e
    have hh : t.regs.handle.toNat = h := by simp [k.regs]; omega
    exact ⟨hp, fun j hj => k.slots j (hh ▸ hj)⟩
  · cases e
    exact ⟨rfl, rfl⟩

/-- Settles O30: the registers lie outside every context; HANDLE and DLEN are written beside the confined change. -/
theorem registerFrame : Obligations.RegisterFrame := by
  unfold Obligations.RegisterFrame
  intro i s t e
  cases i with
  | allocate _ _ =>
    obtain ⟨h, -, ⟨k, -⟩, -⟩ := execAllocate_endsConfined e
    exact ⟨k.latch, k.held, k.sched, k.rdata, k.plat, by rw [k.regs]; rfl⟩
  | deallocate h _ =>
    obtain ⟨k, -⟩ := execDeallocate_endsConfined e
    exact ⟨k.latch, k.held, k.sched, k.rdata, k.plat, k.regs⟩
  | contextInit h _ =>
    obtain ⟨k, -⟩ := execContextInit_endsConfined e
    exact ⟨k.latch, k.held, k.sched, k.rdata, k.plat, k.regs⟩
  | setIv h d =>
    obtain ⟨k, -⟩ := execSetIv_endsConfined (d := d) e
    exact ⟨k.latch, k.held, k.sched, k.rdata, k.plat, k.regs⟩
  | encrypt h _ =>
    obtain ⟨v, k, -⟩ := crypt_endsConfined e
    exact ⟨k.latch, k.held, k.sched, k.rdata, k.plat, by rw [k.regs]; rfl⟩
  | decrypt h _ =>
    obtain ⟨v, k, -⟩ := crypt_endsConfined e
    exact ⟨k.latch, k.held, k.sched, k.rdata, k.plat, by rw [k.regs]; rfl⟩
  | setAad _ _ =>
    cases e
    exact ⟨rfl, rfl, rfl, rfl, rfl, rfl⟩

end Sys2Proof.Machine
end

section
/-! PROOFS. Every step keeps the invariants of the machine (spec/10_state.md R38): what a slot needs to meet them in
each phase, then the slot each command leaves, then every agent's move. -/

namespace Sys2Proof.Machine

section SlotInvariant

variable {c : Slot} {p q : PrimHandle}

/-- What the key and the offset of a slot in use must meet (R38 (b), (c), (f)). -/
def KeyOk (c : Slot) : Prop :=
  (c.keySize = 16 ∨ c.keySize = 24 ∨ c.keySize = 32) ∧ c.offset.extractLsb' 0 16 = 0#16 ∧
  (bytesOf c.key).drop c.keySize = List.replicate (32 - c.keySize) 0#8

theorem slotOk_zero : SlotOk Slot.zero .absent := by decide

theorem slotOk_allocated (v : Variant) : SlotOk (Slot.allocated (variantKeySize v)) .absent := by
  cases v <;> decide

/-- A slot that owns a handle and holds no residue may stand in INITED (R38). -/
theorem slotOk_inited (hk : KeyOk c) (hp : c.prim = true) (hf : c.phase = .inited) (hr : c.kavail = 0#4)
    (hq : p ≠ .absent) : SlotOk c p := by
  obtain ⟨hsize, hoff, hkey⟩ := hk
  simp [SlotOk, hsize, hoff, hkey, hp, hf, hr, hq]

/-- A slot that owns a handle programmed with its key may stand in READY (R38, R95). -/
theorem slotOk_ready (hk : KeyOk c) (hp : c.prim = true) (hf : c.phase = .ready) :
    SlotOk c (.programmed c.keyBytes) := by
  obtain ⟨hsize, hoff, hkey⟩ := hk
  simp [SlotOk, hsize, hoff, hkey, hp, hf]

theorem SlotOk.keyOk (ok : SlotOk c p) (hf : c.phase ≠ .free) : KeyOk c := by
  obtain ⟨-, hsize, hoff, -, -, hkey, -, -⟩ := ok
  exact ⟨hsize hf, hoff, hkey⟩

theorem SlotOk.absent_of_free (ok : SlotOk c p) (hf : c.phase = .free) : p = .absent := by
  obtain ⟨hfree, -, -, -, -, -, hown, -⟩ := ok
  simpa [hfree hf, Slot.zero] using hown

theorem SlotOk.owns (ok : SlotOk c p) : c.prim = true ↔ p ≠ .absent := by
  obtain ⟨-, -, -, -, -, -, hown, -⟩ := ok
  exact hown

theorem SlotOk.ready (ok : SlotOk c p) (hf : c.phase = .ready) : c.prim = true ∧ p = .programmed c.keyBytes := by
  obtain ⟨-, -, -, hprim, -, -, -, hready⟩ := ok
  exact ⟨hprim.mpr (.inr hf), hready hf⟩

/-- Steps 1 and 2 of SET_IV (R121). -/
theorem SlotOk.withIv (ok : SlotOk c p) (hf : c.phase ≠ .free) (iv : Block) : SlotOk (c.withIv iv) p := by
  obtain ⟨-, hsize, hoff, hprim, -, hkey, hown, hready⟩ := ok
  exact ⟨fun h => absurd h hf, hsize, hoff, hprim, fun h => absurd rfl h, hkey, hown, hready⟩

/-- The salt block leaves the block-counter field 0 (R38 (c), R111). -/
theorem saltBlock_low (salt : List Byte) : (saltBlock salt).extractLsb' 0 16 = 0#16 := by
  have e : natOfBytes (salt ++ [0#8, 0#8]) = natOfBytes salt * 2 ^ 16 := by
    simp [natOfBytes, List.foldl_append, Nat.mul_assoc]
  apply BitVec.eq_of_toNat_eq
  simp [saltBlock, ofBytes, e, BitVec.extractLsb'_toNat]

/-- The key and the offset CONTEXT_INIT loads (R111). -/
theorem KeyOk.load (hk : KeyOk c) (salt key : List Byte) (hl : key.length = c.keySize) :
    KeyOk { c with offset := saltBlock salt, key := storeKey c.key key } := by
  obtain ⟨hsize, -, hkey⟩ := hk
  refine ⟨hsize, saltBlock_low salt, ?_⟩
  show (bytesOf (storeKey c.key key)).drop c.keySize = _
  rw [bytesOf_storeKey _ _ (by omega), List.drop_append_of_le_length (by omega), hl, List.drop_of_length_le (by omega),
    List.nil_append, hkey]

end SlotInvariant

section CommandSlots

variable {s t : State} {h : Nat}

/-- The slot a mid-stream CipherFail leaves (R137). -/
theorem slot_cipherFailMidStream (h1 : 1 ≤ h) (h2 : h ≤ s.nctx) :
    (cipherFailMidStream h s).slot h = { s.slot h with ksbuf := 0#128, kavail := 0#4, phase := .inited } := by
  rw [cipherFailMidStream, State.slot_complete, State.slot_setSlot_same _ h1 (by exact h2)]
  rfl

theorem primOf_cipherFailMidStream (j : Nat) : (cipherFailMidStream h s).primOf j = s.primOf j := by
  rw [cipherFailMidStream, State.primOf_complete, State.primOf_setSlot]
  rfl

/-- What the loop of R135 keeps of context `h`: a slot in READY that meets the invariants. -/
def Streaming (h : Nat) (s : State) : Prop := SlotOk (s.slot h) (s.primOf h) ∧ (s.slot h).phase = .ready

/-- Counter and residue of a READY slot are free (R38 (e)). -/
theorem Streaming.setSlot (hs : Streaming h s) (k b : Block) (a : BitVec 4) :
    Streaming h (s.setSlot h { s.slot h with counter := k, ksbuf := b, kavail := a }) := by
  unfold Streaming
  rcases s.slot_setSlot_or h { s.slot h with counter := k, ksbuf := b, kavail := a } with e | e <;>
    rw [e, State.primOf_setSlot]
  · obtain ⟨⟨hfree, hsize, hoff, hprim, -, hkey, hown, hready⟩, hf⟩ := hs
    exact ⟨⟨fun h => by simp [hf] at h, hsize, hoff, hprim, fun _ => hf, hkey, hown, hready⟩, hf⟩
  · exact hs

theorem loopRule_streaming : LoopRule h (Streaming h) where
  request s hs := by simpa [Streaming] using hs
  takeBlock _ b hs := hs.setSlot _ b 15#4
  useResidue _ hs := hs.setSlot _ _ _
  storeByte s a b hs := by simpa [Streaming] using hs

/-- Whatever context `h` is left with: its slot and handle meet the invariants, or a stuck command withholds them until
the reset (R180). -/
def ContextOk (h : Nat) (s : State) : Prop := s.hung = true ∨ SlotOk (s.slot h) (s.primOf h)

theorem contextOk_complete {c : Slot} {code : Code} (h1 : 1 ≤ h) (h2 : h ≤ s.nctx) (ok : SlotOk c (s.primOf h)) :
    ContextOk h ((s.setSlot h c).complete code) := by
  right
  rw [State.slot_complete, s.slot_setSlot_same h1 h2, State.primOf_complete, State.primOf_setSlot]
  exact ok

theorem transform_contextOk (h1 : 1 ≤ h) (h2 : h ≤ s.nctx) (hs : Streaming h s) (e : transform h s = .next t) :
    ContextOk h t := by
  obtain ⟨w, hw, ht⟩ := transform_ends e
  have k := (loopRule_confined s).xorLoop _ _ hw .refl
  obtain ⟨ok, hf⟩ := loopRule_streaming.xorLoop _ _ hw hs
  obtain rfl | rfl | rfl := ht
  · exact .inr (by simpa using ok)
  · right
    rw [slot_cipherFailMidStream h1 (by simpa [k.nctx] using h2), primOf_cipherFailMidStream]
    simp only [State.slot_settleOverlap, State.primOf_settleOverlap]
    exact slotOk_inited (ok.keyOk (by simp [hf])) (ok.ready hf).1 rfl rfl (ok.owns.mp (ok.ready hf).1)
  · exact .inl rfl

theorem crypt_contextOk (ok : SlotOk (s.slot h) (s.primOf h)) (e : crypt h s = .next t) : ContextOk h t := by
  obtain ⟨c, rfl⟩ | ⟨hr, e⟩ := crypt_ends e
  · exact .inr ok
  · obtain ⟨hc, -, hf⟩ := (s.cryptRuns_iff h).mp hr
    obtain ⟨h1, h2, -⟩ := (s.ctxOk_iff h).mp hc
    exact transform_contextOk h1 h2 ⟨ok, hf⟩ e

variable (hprims : s.prims.length = s.nctx)

include hprims in
theorem execDeallocate_contextOk (ok : SlotOk (s.slot h) (s.primOf h)) (e : execDeallocate h s = .next t) :
    ContextOk h t := by
  unfold execDeallocate at e
  split_ifs at e with hc <;> cases e
  · obtain ⟨h1, h2, -⟩ := (s.ctxOk_iff h).mp hc
    have k : Confined h s (s.disposeIfOwned h) := Confined.refl.disposeIfOwned
    have habs : (s.disposeIfOwned h).primOf h = .absent := by
      unfold State.disposeIfOwned
      split_ifs with hp
      · exact State.primOf_setPrim_same _ h1 (by simpa [hprims] using h2) _
      · exact not_not.mp (hp ∘ ok.owns.mpr)
    exact contextOk_complete h1 (k.le_nctx h2) (habs ▸ slotOk_zero)
  · exact .inr ok

include hprims in
theorem execSetIv_contextOk {d : Dir} (ok : SlotOk (s.slot h) (s.primOf h)) (e : execSetIv h d s = .next t) :
    ContextOk h t := by
  obtain rfl | rfl | ⟨hc, ht⟩ := execSetIv_ends e
  · exact .inr ok
  · exact .inl rfl
  · obtain ⟨h1, h2, hf⟩ := (s.ctxOk_iff h).mp hc
    have hk : KeyOk ((s.slot h).withIv s.iv) := ok.keyOk hf
    have k : Confined h s (s.setSlot h ((s.slot h).withIv s.iv)) := Confined.refl.setSlot
    obtain rfl | ⟨hp, rfl⟩ | ⟨hp, rfl⟩ | rfl := ht
    · exact contextOk_complete h1 h2 (ok.withIv hf s.iv)
    · refine contextOk_complete h1 (k.issue.answered.setPrim.le_nctx h2) ?_
      rw [State.primOf_setPrim_same _ h1 (by simpa [hprims] using h2)]
      exact slotOk_ready hk hp rfl
    · refine contextOk_complete h1 (k.issue.answered.le_nctx h2) ?_
      exact slotOk_inited hk hp rfl rfl (by simpa using ok.owns.mp hp)
    · exact .inl rfl

theorem contextInitLoad_contextOk (h1 : 1 ≤ h) (h2 : h ≤ s.nctx) (hk : KeyOk (s.slot h)) (hq : s.primOf h ≠ .absent)
    (e : contextInitLoad h s = .next t) : ContextOk h t := by
  rcases contextInitLoad_cases s h h1 h2 hk.1 with ⟨-, e'⟩ | ⟨-, -, e'⟩ | ⟨-, -, e'⟩ <;> rw [e'] at e <;> cases e
  · exact .inl rfl
  · exact .inl rfl
  · exact contextOk_complete h1 h2 (slotOk_inited (hk.load _ _ (by simp)) rfl rfl rfl hq)

include hprims in
theorem HandleReady.primOf_ne_absent {u : State} (h1 : 1 ≤ h) (h2 : h ≤ s.nctx) (ok : SlotOk (s.slot h) (s.primOf h))
    (hu : HandleReady h s u) : u.primOf h ≠ .absent := by
  obtain ⟨hp, rfl⟩ | rfl := hu
  · exact ok.owns.mp hp
  · rw [State.primOf_setPrim_same _ h1 (by simpa [hprims] using h2)]
    simp

include hprims in
theorem execContextInit_contextOk (ok : SlotOk (s.slot h) (s.primOf h)) (e : execContextInit h s = .next t) :
    ContextOk h t := by
  obtain ⟨u, -, hs, hp, ⟨c, rfl⟩ | rfl⟩ | ⟨hc, u, hu, e⟩ := execContextInit_ends e
  · exact .inr (by simpa [State.slot_congr hs, State.primOf_congr hp] using ok)
  · exact .inl rfl
  · obtain ⟨h1, h2, hf⟩ := (s.ctxOk_iff h).mp hc
    exact contextInitLoad_contextOk h1 (hu.confined.le_nctx h2)
      (by simpa [State.slot_congr hu.slots] using ok.keyOk hf) (hu.primOf_ne_absent hprims h1 h2 ok) e

include hprims in
/-- Every command leaves its own context in order, or is stuck on it. -/
theorem exec_contextOk {i : Instr} (hi : IsOnContext i h) (ok : SlotOk (s.slot h) (s.primOf h))
    (e : exec i s = .next t) : ContextOk h t := by
  obtain ⟨d, rfl | rfl | rfl | rfl | rfl⟩ := hi
  · exact execDeallocate_contextOk hprims ok e
  · exact execContextInit_contextOk hprims ok e
  · exact execSetIv_contextOk hprims (d := d) ok e
  · exact crypt_contextOk ok e
  · exact crypt_contextOk ok e

end CommandSlots

section Steps

variable {s t : State} {h : Nat}

theorem State.Inv.mem_wf (hinv : s.Inv) : Memory.wf s.mem = true := by
  obtain ⟨-, -, -, -, -, hmem, -⟩ := hinv
  exact hmem

theorem State.Inv.primCount (hinv : s.Inv) : s.prims.length = s.nctx := by
  obtain ⟨-, -, hlen, -⟩ := hinv
  exact hlen

theorem State.Inv.busy_of_hung (hinv : s.Inv) (hh : s.hung = true) : s.busy = true := by
  obtain ⟨-, -, -, -, hb, -⟩ := hinv
  exact hb hh

/-- What the invariant depends on. -/
theorem State.Inv.congr (hinv : s.Inv) (hslots : t.slots = s.slots) (hprims : t.prims = s.prims)
    (hhandle : t.regs.handle = s.regs.handle) (hbusy : t.busy = s.busy) (hhung : t.hung = s.hung)
    (hlatch : t.latch = s.latch) (hmem : Memory.wf t.mem = true) : t.Inv := by
  obtain ⟨hlo, hhi, hlen, hle, hb, -, hok⟩ := hinv
  have hn : t.nctx = s.nctx := by rw [State.nctx, hslots, State.nctx]
  refine ⟨hn ▸ hlo, hn ▸ hhi, hprims ▸ hn ▸ hlen, hhandle ▸ hn ▸ hle, hhung ▸ hbusy ▸ hb, hmem, ?_⟩
  intro k hk
  simpa [State.stuckOn, hhung, hlatch, State.slot_congr hslots, State.primOf_congr hprims] using hok k (hn ▸ hk)

/-- While no command is stuck every handle, also one that names no slot, meets the invariants. -/
theorem State.Inv.slotOk_all (hinv : s.Inv) (hh : s.hung = false) (h : Nat) : SlotOk (s.slot h) (s.primOf h) := by
  by_cases hr : 1 ≤ h ∧ h ≤ s.nctx
  · exact hinv.slotOk hh hr.1 hr.2
  · obtain ⟨-, -, hlen, -⟩ := hinv
    cases h with
    | zero => exact slotOk_zero
    | succ k =>
      have hs : s.slots.length ≤ k := by simp only [State.nctx] at hr; omega
      have hp : s.prims.length ≤ k := by simp only [State.nctx] at hr hlen; omega
      simpa [State.slot, State.primOf, hs, hp] using slotOk_zero

/-- A change confined to context `h` keeps the invariant when it leaves that context in order or stuck. -/
theorem State.Inv.of_endsConfined (hinv : s.Inv) (hh : s.hung = false) (k : EndsConfined h s t)
    (hl : t.hung = true → ctxField s.latch = h) (ok : ContextOk h t) : t.Inv := by
  have hall := hinv.slotOk_all hh
  obtain ⟨k, hend⟩ := k
  obtain ⟨hlo, hhi, hlen, hle, -, hmem, -⟩ := hinv
  refine ⟨k.nctx ▸ hlo, k.nctx ▸ hhi, k.primCount ▸ k.nctx ▸ hlen, k.regs ▸ k.nctx ▸ hle, fun e => hend ▸ e,
    k.wf hmem, fun j _ => ?_⟩
  by_cases hj : j + 1 = h
  · subst hj
    exact ok.imp_left fun hu => ⟨hu, k.latch ▸ hl hu⟩
  · right
    rw [k.slots _ hj, k.prims _ hj]
    exact hall (j + 1)

/-- The context a decoded command names is the CTX field of its word (R70). -/
theorem ctx_of_decode {w : Word} {i : Instr} (e : decode w = .instr i) : i.ctx = ctxField w := by
  unfold decode at e
  split_ifs at e
  split at e
  case _ j hj =>
    cases e
    unfold instrOfOp at hj
    split at hj <;> cases hj <;> rfl
  case _ => cases e

/-- The commands without a context operand are ALLOCATE and SET_AAD (R102). -/
theorem isOnContext_or (i : Instr) :
    IsOnContext i i.ctx ∨ (∃ h d, i = .allocate h d) ∨ ∃ h d, i = .setAad h d := by
  cases i <;> simp [IsOnContext, Instr.ctx]

theorem State.Inv.setDlen (hinv : s.Inv) (v : Word) : (s.setDlen v).Inv :=
  hinv.congr rfl rfl rfl rfl rfl rfl hinv.mem_wf

/-- Completion with no other change (R170). -/
theorem State.Inv.complete (hinv : s.Inv) (hh : s.hung = false) (c : Code) : (s.complete c).Inv :=
  hinv.of_endsConfined (h := 0) hh Confined.refl.ends_complete nofun (.inr (hinv.slotOk_all hh 0))

/-- HANDLE may name any slot (R27). -/
theorem State.Inv.setHandle (hinv : s.Inv) {n : Nat} (hn : n ≤ s.nctx) : (s.setHandle n).Inv := by
  obtain ⟨hlo, hhi, hlen, -, hb, hmem, hok⟩ := hinv
  exact ⟨hlo, hhi, hlen, (Nat.mod_le _ _).trans hn, hb, hmem, hok⟩

theorem execAllocate_inv (hinv : s.Inv) (hh : s.hung = false) (e : execAllocate s = .next t) : t.Inv := by
  obtain ⟨c, -, rfl⟩ | ⟨v, h, hf, rfl⟩ := execAllocate_ends e
  · exact (hinv.setHandle (Nat.zero_le _)).complete hh c
  · obtain ⟨h1, h2, hfree⟩ := State.leastFree_eq_some hf
    have habs := (hinv.slotOk_all hh h).absent_of_free hfree
    exact (hinv.setHandle h2).of_endsConfined hh Confined.refl.setSlot.setHandle.ends_complete nofun
      (contextOk_complete (code := .ok) h1 h2 (habs ▸ slotOk_allocated v))

/-- Every command keeps the invariant, or is stuck on the context that the invariant then exempts (R38, R180). -/
theorem exec_inv {i : Instr} (hinv : s.Inv) (hh : s.hung = false) (hi : i.ctx = ctxField s.latch)
    (e : exec i s = .next t) : t.Inv := by
  rcases isOnContext_or i with hon | ⟨h, d, rfl⟩ | ⟨h, d, rfl⟩
  · obtain ⟨v, k⟩ := exec_endsConfined hon e
    exact (hinv.setDlen v).of_endsConfined hh k (fun _ => hi.symm)
      (exec_contextOk hinv.primCount hon (hinv.slotOk_all hh _) e)
  · exact execAllocate_inv hinv hh e
  · cases e; exact hinv.complete hh .ok

/-- The engine's turn (R71, R180). -/
theorem engineTurn_inv (hinv : s.Inv) (e : engineTurn s = .next t) : t.Inv := by
  unfold engineTurn at e
  split_ifs at e with hrun
  · have hh : s.hung = false := by simpa using (Bool.and_eq_true_iff.mp hrun).2
    split at e
    case _ i hd => exact exec_inv hinv hh (ctx_of_decode hd) e
    case _ => cases e; exact hinv.complete hh .badParam
  · cases e; exact hinv

theorem State.slot_of_replicate {n : Nat} (hs : s.slots = List.replicate n Slot.zero) (h : Nat) :
    s.slot h = Slot.zero := by
  cases h with
  | zero => rfl
  | succ k => by_cases hk : k < n <;> simp [State.slot, hs, List.getD, hk]

theorem State.primOf_of_replicate {n : Nat} (hs : s.prims = List.replicate n .absent) (h : Nat) :
    s.primOf h = .absent := by
  cases h with
  | zero => rfl
  | succ k => by_cases hk : k < n <;> simp [State.primOf, hs, List.getD, hk]

/-- An engine right after reset meets the invariant, whatever its memory holds (R40, R185, R186). -/
theorem inv_of_cleared {n : Nat} (h1 : 1 ≤ n) (h2 : n ≤ 255) (hs : s.slots = List.replicate n Slot.zero)
    (hp : s.prims = List.replicate n .absent) (hr : s.regs = Regs.zero) (hh : s.hung = false)
    (hm : Memory.wf s.mem = true) : s.Inv := by
  have hn : s.nctx = n := by simp [State.nctx, hs]
  refine ⟨hn ▸ h1, hn ▸ h2, by simp [hp, hn], by simp [hr, Regs.zero], by simp [hh], hm, fun k _ => .inr ?_⟩
  rw [State.slot_of_replicate hs, State.primOf_of_replicate hp]
  exact slotOk_zero

/-- What a reset does to memory leaves every context alone (R187). -/
theorem confined_abandon : Confined h s s.abandon :=
  List.foldlRecOn (motive := Confined h s) _ _ .refl fun _ k _ _ => k.storeFreeRange

theorem hardReset_inv (hinv : s.Inv) : s.hardReset.Inv := by
  have k : Confined 0 s s.abandon := confined_abandon
  obtain ⟨hlo, hhi, hlen, -, -, hmem, -⟩ := hinv
  have hp : s.abandon.prims.length = s.abandon.slots.length := by rw [k.primCount, hlen]; exact k.nctx.symm
  exact inv_of_cleared (hlo.trans_eq k.nctx.symm) (k.nctx.trans_le hhi) rfl
    (congrArg (List.replicate · _) hp) rfl rfl (k.wf hmem)

/-- A launch (R71): no command was stuck before it. -/
theorem State.Inv.launch (hinv : s.Inv) (hb : s.busy = false) (w : Word) : (s.launch w).Inv := by
  have hh : s.hung = false := by
    by_contra hne
    simpa [hb] using hinv.busy_of_hung (by simpa using hne)
  have hall := hinv.slotOk_all hh
  obtain ⟨hlo, hhi, hlen, hle, -, hmem, -⟩ := hinv
  exact ⟨hlo, hhi, hlen, hle, nofun, hmem, fun k _ => .inr (hall (k + 1))⟩

/-- HANDLE is read-only (R27). -/
theorem State.handle_regWrite (r : Reg) (v : Word) : (s.regWrite r v).regs.handle = s.regs.handle := by
  cases r <;> rfl

theorem handle_of_hostRegWrite {off : BitVec 8} {width : Width} {v : Word} (e : hostRegWrite off width v s = .next t) :
    t.regs.handle = s.regs.handle := by
  unfold hostRegWrite at e
  split_ifs at e
  · cases e; rfl
  · split at e <;> cases e
    · exact s.handle_regWrite _ v
    · rfl

theorem hostRegWrite_inv {off : BitVec 8} {width : Width} {v : Word} (hinv : s.Inv)
    (e : hostRegWrite off width v s = .next t) : t.Inv := by
  have hhandle := handle_of_hostRegWrite e
  rcases hostRegWrite_cases s off width v with ⟨-, e'⟩ | ⟨-, -, e'⟩ | ⟨-, hb, -, e'⟩ | ⟨-, -, r, g, -, -, e'⟩ <;>
    rw [e'] at e <;> cases e
  · exact hinv
  · exact hinv.launch hb v
  · exact hinv.congr rfl rfl hhandle rfl rfl rfl hinv.mem_wf

theorem hostRegRead_inv {off : BitVec 8} {width : Width} (hinv : s.Inv) (e : hostRegRead off width s = .next t) :
    t.Inv := by
  rcases hostRegRead_cases s off width with ⟨-, e'⟩ | ⟨-, r, -, e'⟩ | ⟨-, -, e'⟩ <;> rw [e'] at e <;> cases e
  · obtain ⟨v, n, e⟩ := s.readReg_eq r
    rw [e]
    exact hinv.congr rfl rfl rfl rfl rfl rfl hinv.mem_wf
  · exact hinv.congr rfl rfl rfl rfl rfl rfl hinv.mem_wf

theorem hostMemWrite_inv {a : Addr} {b : Byte} (hinv : s.Inv) (e : hostMemWrite a b s = .next t) : t.Inv := by
  unfold hostMemWrite at e
  split_ifs at e
  cases e
  exact hinv.congr rfl rfl rfl rfl rfl rfl (s.wf_storeByte hinv.mem_wf a b)

theorem hostMemRead_inv {a : Addr} (hinv : s.Inv) (e : hostMemRead a s = .next t) : t.Inv := by
  unfold hostMemRead at e
  split_ifs at e
  cases e
  exact hinv.congr rfl rfl rfl rfl rfl rfl hinv.mem_wf

/-- Every agent's move keeps the invariant (R11). -/
theorem takeEvent_inv {ev : Event} (hinv : s.Inv) (e : takeEvent ev s = .next t) : t.Inv := by
  match ev with
  | .engine => exact engineTurn_inv hinv e
  | .host (.regWrite _ _ _) => exact hostRegWrite_inv hinv e
  | .host (.regRead _ _) => exact hostRegRead_inv hinv e
  | .host (.memWrite _ _) => exact hostMemWrite_inv hinv e
  | .host (.memRead _) => exact hostMemRead_inv hinv e
  | .reset => cases e; exact hardReset_inv hinv

end Steps

/-- Settles O20: a step is one agent's move, and each keeps the invariant. -/
theorem stepKeepsTheInvariant : Obligations.StepKeepsTheInvariant := by
  unfold Obligations.StepKeepsTheInvariant
  intro s t hinv e
  unfold step at e
  split at e
  · exact engineTurn_inv hinv e
  · refine takeEvent_inv ?_ e
    exact hinv.congr rfl rfl rfl rfl rfl rfl hinv.mem_wf

/-- Settles O19: the reset state is a cleared engine with two slots, and no command runs in it. -/
theorem invariantHoldsAtReset : Obligations.InvariantHoldsAtReset := by
  unfold Obligations.InvariantHoldsAtReset
  exact ⟨inv_of_cleared (n := Config.resetNctx) (by decide) (by decide) rfl rfl rfl rfl rfl, nofun, nofun⟩

end Sys2Proof.Machine
end

section
/-! PROOFS. Which parts of its own slot a command keeps (spec/10_state.md R32 to R34, spec/43_set_iv.md R121). -/

namespace Sys2Proof.Machine

variable {h : Nat} {s t : State} {c c' : Slot}

/-- Bytes 0 to 13 of a block are its upper 112 bits (R7, R130). -/
theorem byteAt_of_high {a b : Block} (e : a.extractLsb' 16 112 = b.extractLsb' 16 112) {j : Nat} (hj : j < 14) :
    byteAt a j = byteAt b j := by
  apply BitVec.eq_of_getLsbD_eq
  intro i hi
  have := congrArg (fun v => v.getLsbD (104 - 8 * j + i)) e
  simpa [byteAt, hi, show 104 - 8 * j + i < 112 by omega,
    show 16 + (104 - 8 * j + i) = 128 - 8 * (j + 1) + i by omega] using this

/-- The parts of a slot that only CONTEXT_INIT, ALLOCATE and DEALLOCATE write (R32, R33, R35). -/
def Slot.keyPart (c : Slot) : KeyBuf × Nat × Block × Bool := (c.key, c.keySize, c.offset, c.prim)

theorem Slot.keyPart_eq_iff : c'.keyPart = c.keyPart ↔
    c'.key = c.key ∧ c'.keySize = c.keySize ∧ c'.offset = c.offset ∧ c'.prim = c.prim := by
  simp [Slot.keyPart]

/-- How SET_IV can leave its slot: as it was, or with the IV taken and the phase moved (R121). -/
theorem slot_of_execSetIv {d : Dir} (e : execSetIv h d s = .next t) :
    t.slot h = s.slot h ∨ ∃ p, t.slot h = { (s.slot h).withIv s.iv with phase := p } := by
  obtain rfl | rfl | ⟨hc, ht⟩ := execSetIv_ends e
  · exact .inl rfl
  · exact .inl rfl
  · obtain ⟨h1, h2, -⟩ := (s.ctxOk_iff h).mp hc
    have k : Confined h s (s.setSlot h ((s.slot h).withIv s.iv)) := Confined.refl.setSlot
    have hs := s.slot_setSlot_same h1 h2 ((s.slot h).withIv s.iv)
    obtain rfl | ⟨-, rfl⟩ | ⟨-, rfl⟩ | rfl := ht
    · exact .inr ⟨(s.slot h).phase, hs⟩
    · exact .inr ⟨_, State.slot_setSlot_same _ h1 (k.issue.answered.setPrim.le_nctx h2) _⟩
    · exact .inr ⟨_, State.slot_setSlot_same _ h1 (k.issue.answered.le_nctx h2) _⟩
    · exact .inr ⟨(s.slot h).phase, by rw [State.slot_hang, State.slot_answered, State.slot_issue]; exact hs⟩

/-- What ENCRYPT and DECRYPT keep of the slot `c` (R32 to R35): its key part, and bytes 0 to 13 of the counter. -/
def KeepsStream (c c' : Slot) : Prop :=
  c'.keyPart = c.keyPart ∧ c'.counter.extractLsb' 16 112 = c.counter.extractLsb' 16 112

theorem loopRule_keepsStream (c : Slot) : LoopRule h fun s => KeepsStream c (s.slot h) where
  request s hs := by simpa using hs
  takeBlock s b hs := by
    rcases s.slot_setSlot_or h ((s.slot h).takeBlock b) with e | e <;> rw [e]
    · exact ⟨hs.1, (inc16_high _).trans hs.2⟩
    · exact hs
  useResidue s hs := by rcases s.slot_setSlot_or h (s.slot h).useResidue with e | e <;> rw [e] <;> exact hs
  storeByte s a b hs := by simpa using hs

theorem keepsStream_of_crypt (e : crypt h s = .next t) : KeepsStream (s.slot h) (t.slot h) := by
  obtain ⟨c, rfl⟩ | ⟨hr, e⟩ := crypt_ends e
  · exact ⟨rfl, rfl⟩
  · obtain ⟨hc, -⟩ := (s.cryptRuns_iff h).mp hr
    obtain ⟨h1, h2, -⟩ := (s.ctxOk_iff h).mp hc
    obtain ⟨w, hw, ht⟩ := transform_ends e
    have k := (loopRule_confined s).xorLoop _ _ hw .refl
    have hs : KeepsStream (s.slot h) (w.slot h) := (loopRule_keepsStream (s.slot h)).xorLoop _ _ hw ⟨rfl, rfl⟩
    obtain rfl | rfl | rfl := ht
    · simpa using hs
    · rw [slot_cipherFailMidStream h1 (by simpa [k.nctx] using h2), State.slot_settleOverlap]
      exact hs
    · simpa using hs

theorem keySize_of_execContextInit (e : execContextInit h s = .next t) :
    (t.slot h).keySize = (s.slot h).keySize := by
  obtain ⟨u, -, hs, -, ⟨c, rfl⟩ | rfl⟩ | ⟨-, u, hu, e⟩ := execContextInit_ends e
  · rw [State.slot_complete, State.slot_congr hs]
  · rw [State.slot_hang, State.slot_congr hs]
  · have hkeep : ∀ c : Slot, c.keySize = (u.slot h).keySize → ((u.setSlot h c).slot h).keySize = (s.slot h).keySize :=
      fun c hc => by rw [u.slot_setSlot_part Slot.keySize hc, State.slot_congr hu.slots]
    obtain ⟨c, hc, ⟨code, rfl⟩ | rfl⟩ := contextInitLoad_ends e
    · exact hkeep c hc
    · exact hkeep c hc

/-- Settles O31: SET_IV keeps the key part of its slot, the keystream loop that and the upper 112 bits of the counter,
CONTEXT_INIT the key size. -/
theorem slotFrame : Obligations.SlotFrame := by
  unfold Obligations.SlotFrame
  refine fun h d s t _ => ⟨fun e => ?_, fun i hi e => ?_, fun e => keySize_of_execContextInit e⟩
  · apply Slot.keyPart_eq_iff.mp
    obtain e | ⟨p, e⟩ := slot_of_execSetIv (d := d) e <;> rw [e]
    rfl
  · rw [exec_of_isCrypt hi] at e
    obtain ⟨hkey, hcounter⟩ := keepsStream_of_crypt e
    obtain ⟨h1, h2, h3, h4⟩ := Slot.keyPart_eq_iff.mp hkey
    exact ⟨h1, h2, h3, h4, fun j hj => byteAt_of_high hcounter hj⟩

end Sys2Proof.Machine
end

section
/-! PROOFS. A command on one context learns nothing of another (spec/10_state.md R30): every operation a command on
context `h` makes commutes with putting any slot in place `j ≠ h`. -/

namespace Sys2Proof.Machine

section Operations

variable (s : State) (j : Nat) (c : Slot)

theorem State.setSlot_complete (d : Code) : (s.setSlot j c).complete d = (s.complete d).setSlot j c := by
  cases j <;> rfl

theorem State.setSlot_hang : (s.setSlot j c).hang = s.hang.setSlot j c := by cases j <;> rfl

theorem State.setSlot_issue (t : PrimTxn) : (s.setSlot j c).issue t = (s.issue t).setSlot j c := by cases j <;> rfl

theorem State.setSlot_drawn : (s.setSlot j c).drawn = s.drawn.setSlot j c := by cases j <;> rfl

theorem State.setSlot_setDlen (v : Word) : (s.setSlot j c).setDlen v = (s.setDlen v).setSlot j c := by cases j <;> rfl

theorem State.setSlot_storeByte (a : Addr) (b : Byte) :
    (s.setSlot j c).storeByte a b = (s.storeByte a b).setSlot j c := by
  cases j <;> rfl

theorem State.setSlot_setPrim (h : Nat) (p : PrimHandle) :
    (s.setSlot j c).setPrim h p = (s.setPrim h p).setSlot j c := by
  cases j <;> cases h <;> rfl

theorem State.setSlot_answered : (s.setSlot j c).answered = s.answered.setSlot j c := by
  unfold State.answered
  rw [State.answers_setSlot]
  cases s.answers with
  | nil => exact s.setSlot_drawn j c
  | cons _ _ => cases j <;> rfl

theorem State.answer_setSlot : (s.setSlot j c).answer = s.answer := by
  simp only [State.answer, State.answers_setSlot, State.draws_setSlot]

theorem State.freeWord_setSlot : (s.setSlot j c).freeWord = s.freeWord := by
  simp only [State.freeWord, State.draws_setSlot]

theorem State.setSlot_storeFreeRange (base : Addr) (n i : Nat) :
    State.storeFreeRange base n i (s.setSlot j c) = (State.storeFreeRange base n i s).setSlot j c := by
  induction n generalizing i s with
  | zero => rfl
  | succ n ih =>
    simp only [State.storeFreeRange, State.storeFree, State.draws_setSlot, State.setSlot_storeByte,
      State.setSlot_drawn, ih]

theorem State.setSlot_settleOverlap (src dst : Addr) (n : Nat) :
    (s.setSlot j c).settleOverlap src dst n = (s.settleOverlap src dst n).setSlot j c := by
  unfold State.settleOverlap
  split_ifs
  · exact s.setSlot_storeFreeRange j c dst n 0
  · rfl

theorem State.memRead_setSlot (a : Addr) (n : Nat) : (s.setSlot j c).memRead a n = s.memRead a n :=
  State.memRead_congr (by simp) (by simp) a n

theorem State.hitsRegFile_setSlot (r : Range) : (s.setSlot j c).hitsRegFile r = s.hitsRegFile r :=
  State.hitsRegFile_congr (by simp) r

theorem State.srcRange_setSlot : (s.setSlot j c).srcRange = s.srcRange := by simp [State.srcRange]

theorem State.dstRange_setSlot : (s.setSlot j c).dstRange = s.dstRange := by simp [State.dstRange]

theorem State.ivRange_setSlot : (s.setSlot j c).ivRange = s.ivRange := by simp [State.ivRange]

theorem State.keySaltRange_setSlot (n : Nat) : (s.setSlot j c).keySaltRange n = s.keySaltRange n := by
  simp [State.keySaltRange]

theorem State.ctxOk_setSlot {h : Nat} (hj : h ≠ j) : (s.setSlot j c).ctxOk h = s.ctxOk h := by
  simp only [State.ctxOk, State.nctx_setSlot, s.slot_setSlot_ne hj]

end Operations

/-- Change the state a transaction leaves. -/
def Reply.map {α : Type} (f : State → State) : Reply α → Reply α
  | .ok a s => .ok a (f s)
  | .fail s => .fail (f s)
  | .silent s => .silent (f s)

/-- Change the state the loop of R135 ends in. -/
def LoopEnd.map (f : State → State) : LoopEnd → LoopEnd
  | .done s => .done (f s)
  | .failed s => .failed (f s)
  | .stuck s => .stuck (f s)
  | .broken => .broken

section Transactions

variable (s : State) (h j : Nat) (c : Slot)

theorem State.primCreate_setSlot : (s.setSlot j c).primCreate h = (s.primCreate h).map (·.setSlot j c) := by
  simp only [State.primCreate, State.setSlot_issue, State.answer_setSlot, State.setSlot_answered, State.setSlot_setPrim]
  cases (s.issue (.create h)).answer <;> rfl

theorem State.primProgram_setSlot (key : List Byte) (n : Nat) (x : Block) :
    (s.setSlot j c).primProgram h key n x = (s.primProgram h key n x).map (·.setSlot j c) := by
  simp only [State.primProgram, State.setSlot_issue, State.answer_setSlot, State.setSlot_answered,
    State.setSlot_setPrim]
  cases (s.issue (.program h key n x .enc)).answer <;> rfl

theorem State.primBlock_setSlot (x : Block) :
    (s.setSlot j c).primBlock h x = (s.primBlock h x).map (Reply.map (·.setSlot j c)) := by
  simp only [State.primBlock, State.setSlot_issue, State.answer_setSlot, State.setSlot_answered, State.primOf_setSlot,
    State.plat_setSlot]
  cases s.primOf h with
  | absent => rfl
  | created => rfl
  | programmed key => cases (s.issue (.block h x)).answer <;> rfl

theorem State.primDispose_setSlot : (s.setSlot j c).primDispose h = (s.primDispose h).setSlot j c := by
  simp only [State.primDispose, State.setSlot_issue, State.setSlot_setPrim]

end Transactions

section Commands

variable (s : State) {h j : Nat} (c : Slot) (hj : j ≠ h)

include hj

theorem nextKs_setSlot : nextKs h (s.setSlot j c) = (nextKs h s).map (Reply.map (·.setSlot j c)) := by
  simp only [nextKs, s.slot_setSlot_ne hj.symm, State.primBlock_setSlot]
  split_ifs
  · cases s.primBlock h (s.slot h).counter with
    | none => rfl
    | some r =>
      cases r with
      | ok b u => simp [Reply.map, u.setSlot_comm hj]
      | fail u => rfl
      | silent u => rfl
  · simp [Reply.map, s.setSlot_comm hj]

omit hj in
theorem xorByte_setSlot (src dst : Addr) (k : Byte) :
    xorByte src dst k (s.setSlot j c) = (xorByte src dst k s).map (·.setSlot j c) := by
  simp only [xorByte, State.memRead_setSlot, State.memWrite1, State.setSlot_storeByte,
    State.admits_congr (s.plat_setSlot j c), State.byte_congr (s.mem_setSlot j c)]
  cases s.memRead src 1 with
  | none => rfl
  | some _ => simp only; split_ifs <;> rfl

theorem xorLoop_setSlot (src dst : Addr) (n i : Nat) :
    xorLoop h src dst n i (s.setSlot j c) = (xorLoop h src dst n i s).map (·.setSlot j c) := by
  induction n generalizing i s with
  | zero => rfl
  | succ n ih =>
    rw [xorLoop, xorLoop, nextKs_setSlot s c hj]
    cases nextKs h s with
    | none => rfl
    | some r =>
      cases r with
      | fail u => rfl
      | silent u => rfl
      | ok k u =>
        simp only [Option.map_some, Reply.map, xorByte_setSlot]
        cases xorByte (byteAddr src i) (byteAddr dst i) k u with
        | none => rfl
        | some v => exact ih v (i + 1)

theorem cipherFailMidStream_setSlot :
    cipherFailMidStream h (s.setSlot j c) = (cipherFailMidStream h s).setSlot j c := by
  simp only [cipherFailMidStream, State.freeWord_setSlot, State.setSlot_setDlen, State.setSlot_drawn,
    State.slot_setSlot_ne _ hj.symm, State.setSlot_comm _ hj, State.setSlot_complete]

theorem transform_setSlot : transform h (s.setSlot j c) = mapNext (·.setSlot j c) (transform h s) := by
  simp only [transform, State.regs_setSlot, xorLoop_setSlot s c hj]
  cases xorLoop h s.regs.src s.regs.dst s.regs.slen.toNat 0 s <;>
    simp only [LoopEnd.map, mapNext, State.setSlot_settleOverlap, State.setSlot_setDlen, State.setSlot_complete,
      State.setSlot_hang, cipherFailMidStream_setSlot _ c hj]

theorem crypt_setSlot : crypt h (s.setSlot j c) = mapNext (·.setSlot j c) (crypt h s) := by
  simp only [crypt, s.ctxOk_setSlot j c hj.symm, State.regs_setSlot, s.slot_setSlot_ne hj.symm,
    State.hitsRegFile_setSlot, State.srcRange_setSlot, State.dstRange_setSlot, transform_setSlot s c hj,
    State.setSlot_complete]
  split_ifs <;> rfl

theorem execDeallocate_setSlot :
    execDeallocate h (s.setSlot j c) = mapNext (·.setSlot j c) (execDeallocate h s) := by
  have hd : (s.setSlot j c).disposeIfOwned h = (s.disposeIfOwned h).setSlot j c := by
    simp only [State.disposeIfOwned, s.slot_setSlot_ne hj.symm, State.primDispose_setSlot]
    split_ifs <;> rfl
  simp only [execDeallocate, s.ctxOk_setSlot j c hj.symm, hd, State.setSlot_comm _ hj, State.setSlot_complete]
  split_ifs <;> rfl

theorem setIvProgram_setSlot : setIvProgram h (s.setSlot j c) = mapNext (·.setSlot j c) (setIvProgram h s) := by
  simp only [setIvProgram, s.slot_setSlot_ne hj.symm, State.primProgram_setSlot, State.setSlot_complete]
  split_ifs
  · cases s.primProgram h (s.slot h).keyBytes (s.slot h).keySize (s.slot h).counter <;>
      simp only [Reply.map, mapNext, State.setSlot_comm _ hj, State.setSlot_complete, State.setSlot_hang]
  · rfl

theorem execSetIv_setSlot (d : Dir) :
    execSetIv h d (s.setSlot j c) = mapNext (·.setSlot j c) (execSetIv h d s) := by
  simp only [execSetIv, s.ctxOk_setSlot j c hj.symm, State.hitsRegFile_setSlot, State.ivRange_setSlot,
    State.regs_setSlot, State.memRead_setSlot, s.slot_setSlot_ne hj.symm, State.setSlot_comm _ hj,
    State.setSlot_complete, State.setSlot_hang]
  split_ifs
  · rfl
  · cases s.memRead s.regs.ivptr Config.blockBytes with
    | none => rfl
    | some iv => exact setIvProgram_setSlot _ c hj
  · rfl

theorem contextInitKey_setSlot :
    contextInitKey h (s.setSlot j c) = mapNext (·.setSlot j c) (contextInitKey h s) := by
  simp only [contextInitKey, s.slot_setSlot_ne hj.symm, State.regs_setSlot, State.memRead_setSlot,
    State.setSlot_comm _ hj, State.setSlot_complete, State.setSlot_hang]
  split_ifs
  · rfl
  · rfl
  · cases s.memRead s.regs.kptr (s.slot h).keySize <;> rfl

theorem contextInitLoad_setSlot :
    contextInitLoad h (s.setSlot j c) = mapNext (·.setSlot j c) (contextInitLoad h s) := by
  simp only [contextInitLoad, s.slot_setSlot_ne hj.symm, State.regs_setSlot, State.memRead_setSlot,
    State.setSlot_comm _ hj, State.setSlot_setSlot_same, State.setSlot_hang]
  cases s.memRead (byteAddr s.regs.kptr (s.slot h).keySize) Config.saltLen with
  | none => rfl
  | some salt => exact contextInitKey_setSlot _ c hj

theorem execContextInit_setSlot :
    execContextInit h (s.setSlot j c) = mapNext (·.setSlot j c) (execContextInit h s) := by
  have hc : (s.setSlot j c).createIfAbsent h = (s.createIfAbsent h).map (·.setSlot j c) := by
    simp only [State.createIfAbsent, s.slot_setSlot_ne hj.symm, State.primCreate_setSlot]
    split_ifs <;> rfl
  simp only [execContextInit, s.ctxOk_setSlot j c hj.symm, hc, State.setSlot_complete]
  split_ifs
  · cases s.createIfAbsent h with
    | fail u => simp only [Reply.map, mapNext, State.setSlot_complete]
    | silent u => simp only [Reply.map, mapNext, State.setSlot_hang]
    | ok _ u =>
      simp only [Reply.map, State.hitsRegFile_setSlot, State.keySaltRange_setSlot,
        u.slot_setSlot_ne hj.symm, contextInitLoad_setSlot u c hj]
      split_ifs <;> rfl
  · rfl

end Commands

/-- Settles O28: each command on a context commutes with putting a slot elsewhere. -/
theorem contextsAreIsolated : Obligations.ContextsAreIsolated := by
  unfold Obligations.ContextsAreIsolated
  rintro i h j c s ⟨d, rfl | rfl | rfl | rfl | rfl⟩ hj
  · exact execDeallocate_setSlot s c hj
  · exact execContextInit_setSlot s c hj
  · exact execSetIv_setSlot s c hj d
  · exact crypt_setSlot s c hj
  · exact crypt_setSlot s c hj

end Sys2Proof.Machine
end

section
/-! PROOFS. What a host access of the register file does (spec/10_state.md R23 to R42): a step that takes the access,
then the value a read returns and the registers a write reaches. -/

namespace Sys2Proof.Machine

variable {s : State} {rest : List Event} {off : BitVec 8} {width : Width} {v w : Word}

section Access

theorem step_of_host {a : HostAccess} (e : s.sched = .host a :: rest) :
    step s = hostAccess a { s with sched := rest } := by
  simp only [step, e]
  rfl

/-- An access is refused unless it is a 32-bit one at a multiple of 4 (R42). -/
theorem alignedWord_eq_false (h : width ≠ .word ∨ off.toNat % 4 ≠ 0) : alignedWord off width = false := by
  rw [alignedWord, Bool.and_eq_false_iff, decide_eq_false_iff_not, decide_eq_false_iff_not]
  exact h

theorem alignedWord_word (h : off.toNat % 4 = 0) : alignedWord off .word = true := by simp [alignedWord, h]

/-- A host write of a register while BUSY = 0 (R23). -/
theorem step_regWrite_idle {r : Reg} (hb : s.busy = false) (h4 : off.toNat % 4 = 0) (hr : regAt off.toNat = some r)
    (e : s.sched = .host (.regWrite off .word v) :: rest) :
    step s = .next (State.regWrite { s with sched := rest } r v) := by
  simp [step_of_host e, hostAccess, hostRegWrite, alignedWord_word h4, hb, hr]

/-- A host write while BUSY = 1 is lost (R24, R196). -/
theorem step_regWrite_busy (hb : s.busy = true) (h4 : off.toNat % 4 = 0)
    (e : s.sched = .host (.regWrite off .word v) :: rest) : step s = .next { s with sched := rest } := by
  simp [step_of_host e, hostAccess, hostRegWrite, alignedWord_word h4, hb]

/-- A host write of a reserved offset is ignored (R41). -/
theorem step_regWrite_reserved (h4 : off.toNat % 4 = 0) (hr : regAt off.toNat = none)
    (e : s.sched = .host (.regWrite off .word v) :: rest) : step s = .next { s with sched := rest } := by
  simp [step_of_host e, hostAccess, hostRegWrite, alignedWord_word h4, hr]

theorem State.regRead_of_regAt {r : Reg} (hr : regAt off.toNat = some r) : s.regRead off = s.regValue r := by
  simp [State.regRead, hr]

theorem State.regRead_of_reserved (h4 : off.toNat % 4 = 0) (hr : IsReserved off) : s.regRead off = 0#32 := by
  simp [State.regRead, (regAt_eq_none_iff off h4).mpr hr]

/-- Reading a register while BUSY = 0: its value, and the acquire at STATUS (R23, R58). -/
theorem State.readReg_idle (hb : s.busy = false) (r : Reg) :
    s.readReg r = { s with rdata := s.regValue r, held := if r = .status then Buffers.none else s.held } := by
  by_cases hr : r = .status
  · subst hr
    simp [State.readReg, State.acquire, State.setRdata, State.regValue, hb]
  · simp [State.readReg, State.setRdata, hb, hr]

/-- A host read of any aligned offset while BUSY = 0 (R23, R41, R58). -/
theorem step_regRead_idle (hb : s.busy = false) (h4 : off.toNat % 4 = 0)
    (e : s.sched = .host (.regRead off .word) :: rest) :
    step s = .next { s with
      sched := rest, rdata := s.regRead off, held := if off = 0x04#8 then Buffers.none else s.held } := by
  have hstatus := regAt_status_iff off
  rw [step_of_host e]
  simp only [hostAccess, hostRegRead, alignedWord_word h4, if_true]
  cases hr : regAt off.toNat with
  | none =>
    have hne : off ≠ 0x04#8 := fun ho => by simpa [hr] using hstatus.mpr ho
    simp [State.regRead, hr, hne, State.setRdata]
  | some r =>
    have hiff : r = .status ↔ off = 0x04#8 := by simpa [hr] using hstatus
    simp only [State.readReg_idle (s := { s with sched := rest }) hb, State.regRead_of_regAt hr, hiff]
    rfl

end Access

/-- Settles O13: such an access is not an aligned word. -/
theorem narrowAccessIsRefused : Obligations.NarrowAccessIsRefused := by
  unfold Obligations.NarrowAccessIsRefused
  intro s off width v rest h
  have ha := alignedWord_eq_false h
  exact ⟨fun e => by simp [step_of_host e, hostAccess, hostRegRead, ha],
    fun e => by simp [step_of_host e, hostAccess, hostRegWrite, ha]⟩

/-- The registers a host write reaches (R23): CMD, the operand registers and CTXSEL. -/
def Reg.writable : Reg → Bool
  | .cmd | .klen | .tlen | .kptr | .ivptr | .src | .slen | .dst | .dlen | .ctxsel => true
  | _ => false

theorem State.regWrite_of_not_writable {r : Reg} (h : r.writable = false) : s.regWrite r v = s := by
  cases r <;> simp [Reg.writable, State.regWrite] at h ⊢

/-- Where the registers stand that a host write does not reach (R23). -/
theorem not_writable_of_offset : ∀ off : BitVec 8, (off = 0x04#8 ∨ off = 0x28#8 ∨ off = 0x2C#8 ∨ 0x34 ≤ off.toNat) →
    ∀ r ∈ regAt off.toNat, r.writable = false := by decide

/-- Settles O12: the write finds BUSY = 1, a reserved offset, or a register it does not reach. -/
theorem readOnlyWritesAreIgnored : Obligations.ReadOnlyWritesAreIgnored := by
  unfold Obligations.ReadOnlyWritesAreIgnored
  intro s off v rest h4 hoff e
  rcases Bool.eq_false_or_eq_true s.busy with hb | hb
  · exact step_regWrite_busy hb h4 e
  · cases hr : regAt off.toNat with
    | none => exact step_regWrite_reserved h4 hr e
    | some r =>
      rw [step_regWrite_idle hb h4 hr e, State.regWrite_of_not_writable (not_writable_of_offset off hoff r hr)]

/-- Settles O11: each offset is that of its register in the map. -/
theorem idleRegisterWrites : Obligations.IdleRegisterWrites := by
  unfold Obligations.IdleRegisterWrites
  intro s v rest hb writes
  exact ⟨step_regWrite_idle (r := .klen) hb rfl rfl, step_regWrite_idle (r := .tlen) hb rfl rfl,
    step_regWrite_idle (r := .kptr) hb rfl rfl, step_regWrite_idle (r := .ivptr) hb rfl rfl,
    step_regWrite_idle (r := .src) hb rfl rfl, step_regWrite_idle (r := .slen) hb rfl rfl,
    step_regWrite_idle (r := .dst) hb rfl rfl, step_regWrite_idle (r := .dlen) hb rfl rfl,
    step_regWrite_idle (r := .ctxsel) hb rfl rfl⟩

theorem statusWord_idle (c : Code) : statusWord false c = BitVec.ofNat 32 (c.num * 2 ^ 8) := by simp [statusWord]

theorem capsWord_of_le {n : Nat} (hn : n ≤ 255) : capsWord n = BitVec.ofNat 32 (n + 0x700) := by
  rw [capsWord, Nat.mod_eq_of_lt (by omega)]
  rfl

/-- Settles O10: the read returns the register's value at its offset in the map. -/
theorem idleRegisterReads : Obligations.IdleRegisterReads := by
  unfold Obligations.IdleRegisterReads
  intro s rest hb reads
  have all (off : BitVec 8) (h4 : off.toNat % 4 = 0) : reads off (s.regRead off) := step_regRead_idle hb h4
  have at_ {off : BitVec 8} {v : Word} (h4 : off.toNat % 4 = 0) (hv : s.regRead off = v) : reads off v :=
    hv ▸ all off h4
  have hstatus : s.regRead 0x04#8 = BitVec.ofNat 32 (s.code.num * 2 ^ 8) := by
    rw [State.regRead_of_regAt (r := .status) rfl, State.regValue, hb, statusWord_idle]
  exact ⟨all, at_ rfl rfl, at_ rfl hstatus, at_ rfl rfl, at_ rfl rfl, at_ rfl rfl, at_ rfl rfl, at_ rfl rfl,
    at_ rfl rfl, at_ rfl rfl, at_ rfl rfl, at_ rfl rfl, fun hn => at_ rfl (capsWord_of_le hn), at_ rfl rfl, at_ rfl rfl,
    at_ rfl rfl, at_ rfl rfl, at_ rfl rfl, at_ rfl rfl, at_ rfl rfl,
    fun off h4 hr => at_ h4 (State.regRead_of_reserved h4 hr)⟩

/-- Settles O17: every slot is one of `State.resetOf`, every offset is looked up in the map. -/
theorem resetStateReadsTheResetColumn : Obligations.ResetStateReadsTheResetColumn := by
  unfold Obligations.ResetStateReadsTheResetColumn
  exact ⟨rfl, rfl, State.slot_of_replicate rfl, rfl, rfl, rfl, rfl, rfl, rfl, rfl, by decide⟩

section Window

/-- A word of the window, its four bytes in place (R29). -/
theorem windowWord_toNat (b : Block) (k : Nat) :
    (windowWord b k).toNat = (byteAt b (4 * k)).toNat * 2 ^ 24 + (byteAt b (4 * k + 1)).toNat * 2 ^ 16 +
      (byteAt b (4 * k + 2)).toNat * 2 ^ 8 + (byteAt b (4 * k + 3)).toNat := by
  have h0 := (byteAt b (4 * k)).isLt
  have h1 := (byteAt b (4 * k + 1)).isLt
  have h2 := (byteAt b (4 * k + 2)).isLt
  have h3 := (byteAt b (4 * k + 3)).isLt
  rw [windowWord, BitVec.toNat_ofNat, Nat.mod_eq_of_lt (by omega)]

/-- CX_INFO of a slot, its fields in place (R29). -/
theorem cxInfoWord_toNat {c : Slot} (hk : c.keySize < 64) : (cxInfoWord c).toNat =
    c.keySize + c.phase.num * 2 ^ 8 + c.prim.toNat * 2 ^ 12 + c.kavail.toNat * 2 ^ 16 := by
  have hph : c.phase.num ≤ 3 := by cases c.phase <;> decide
  have hpr := c.prim.toNat_le
  have hka := c.kavail.isLt
  rw [cxInfoWord, BitVec.toNat_ofNat, Nat.mod_eq_of_lt (by omega), Nat.mod_eq_of_lt (by omega)]

/-- Where the window words stand (R23). -/
theorem regAt_window : ∀ k < 4, regAt (BitVec.ofNat 8 (0x90 + 4 * k)).toNat = some (.cxOffset k) ∧
    regAt (BitVec.ofNat 8 (0xA0 + 4 * k)).toNat = some (.cxCounter k) := by decide

/-- A number that names no slot reads as a FREE one (R30). -/
theorem State.slot_of_no_slot {h : Nat} (hh : h = 0 ∨ s.nctx < h) : s.slot h = Slot.zero := by
  cases h with
  | zero => rfl
  | succ k =>
    have hk : s.slots.length ≤ k := by simp only [State.nctx] at hh; omega
    simp [State.slot, hk]

theorem windowWord_zero : ∀ k < 4, windowWord 0#128 k = 0#32 := by decide

end Window

/-- Settles O14: the window registers are words of the slot CTXSEL names, and that slot is zero when there is none. -/
theorem windowShowsTheSelectedSlot : Obligations.WindowShowsTheSelectedSlot := by
  unfold Obligations.WindowShowsTheSelectedSlot
  intro s h c
  have hoffset (k : Nat) (hk : k < 4) : s.regRead (BitVec.ofNat 8 (0x90 + 4 * k)) = windowWord c.offset k :=
    State.regRead_of_regAt (regAt_window k hk).1
  have hcounter (k : Nat) (hk : k < 4) : s.regRead (BitVec.ofNat 8 (0xA0 + 4 * k)) = windowWord c.counter k :=
    State.regRead_of_regAt (regAt_window k hk).2
  refine ⟨fun _ _ hsize => cxInfoWord_toNat hsize, fun k hk _ _ => ?_, fun hno => ?_⟩
  · rw [hoffset k hk, hcounter k hk]
    exact ⟨windowWord_toNat _ k, windowWord_toNat _ k⟩
  · have hz : c = Slot.zero := State.slot_of_no_slot hno
    refine ⟨?_, fun k hk => ?_⟩
    · show cxInfoWord c = 0#32
      rw [hz]; rfl
    · rw [hoffset k hk, hcounter k hk, hz]
      exact ⟨windowWord_zero k hk, windowWord_zero k hk⟩

section Unreadable

variable {h : Nat} {c : Slot}

theorem State.setSlot_setRdata (v : Word) : (s.setSlot h c).setRdata v = (s.setRdata v).setSlot h c := by
  cases h <;> rfl

theorem State.setSlot_acquire : (s.setSlot h c).acquire = s.acquire.setSlot h c := by
  unfold State.acquire
  rw [State.busy_setSlot]
  split_ifs
  · rfl
  · cases h <;> rfl

/-- What the host can see of a slot (R29): CX_INFO, the offset and the counter. -/
def Slot.shown (c : Slot) : Word × Block × Block := (cxInfoWord c, c.offset, c.counter)

/-- A register's value is the same whatever a slot holds that is not shown (R29). -/
theorem State.regValue_setSlot (hc : c.shown = (s.slot h).shown) (r : Reg) :
    (s.setSlot h c).regValue r = s.regValue r := by
  have hw : (s.setSlot h c).windowSlot.shown = s.windowSlot.shown := by
    rw [State.windowSlot, State.regs_setSlot]
    exact s.slot_setSlot_part Slot.shown hc _
  simp only [Slot.shown, Prod.mk.injEq] at hw
  obtain ⟨hinfo, hoffset, hcounter⟩ := hw
  cases r <;> simp [State.regValue, State.nctx_setSlot, hinfo, hoffset, hcounter]

theorem State.readReg_setSlot (hc : c.shown = (s.slot h).shown) (r : Reg) :
    (s.setSlot h c).readReg r = (s.readReg r).setSlot h c := by
  simp only [State.readReg, State.busy_setSlot, State.code_setSlot, State.freeWord_setSlot, State.setSlot_setRdata,
    State.setSlot_acquire, State.setSlot_drawn, State.regValue_setSlot hc]
  split_ifs <;> rfl

end Unreadable

/-- Settles O15: key and ksbuf are not among what a slot shows. -/
theorem keyAndResidueAreUnreadable : Obligations.KeyAndResidueAreUnreadable := by
  unfold Obligations.KeyAndResidueAreUnreadable
  intro s h key ksbuf off width s'
  have hread := State.readReg_setSlot (s := s) (h := h) (c := { s.slot h with key := key, ksbuf := ksbuf }) rfl
  simp only [hostRegRead, s', hread, State.setSlot_setRdata]
  cases alignedWord off width with
  | false => rfl
  | true => cases regAt off.toNat <;> rfl

section Launch

theorem State.buffersOf_of_decode {i : Instr} (e : decode w = .instr i) :
    s.buffersOf w = { reads := s.cmdReads i, writes := s.cmdWrites i } := by
  simp [State.buffersOf, e]

theorem State.buffersOf_of_illegal {r : IllegalWord} (e : decode w = .illegal r) :
    s.buffersOf w = { reads := [], writes := [] } := by
  simp [State.buffersOf, e, Buffers.none]

/-- The buffers of ENCRYPT and DECRYPT (R56). -/
theorem cryptBuffers_of_isCrypt {i : Instr} {h : Nat} (hi : IsCrypt i h) :
    s.cmdReads i = (if s.cryptRuns h then [s.srcRange] else []) ∧
    s.cmdWrites i = (if s.cryptRuns h then [s.dstRange] else []) := by
  obtain ⟨d, rfl | rfl⟩ := hi <;> exact ⟨rfl, rfl⟩

/-- The launch of a command by a host write of CMD (R24, R71). -/
theorem step_of_launch (hb : s.busy = false) (e : s.sched = .host (.regWrite 0x00#8 .word w) :: rest) :
    step s = .next { s with
      sched := rest, busy := true, hung := false, latch := w, held := s.held.add (s.buffersOf w) } := by
  rw [step_regWrite_idle (r := .cmd) hb rfl rfl e, State.regWrite, State.launch,
    State.buffersOf_congr (s := s) (t := { s with sched := rest }) w rfl rfl (fun _ => rfl) (fun _ => rfl)]

end Launch

/-- Settles O8: the CMD write is the launch; the buffers are there exactly when `CheckCtx` and the checks of R135
pass. -/
theorem cmdWriteLaunches : Obligations.CmdWriteLaunches := by
  unfold Obligations.CmdWriteLaunches
  intro s w rest
  refine ⟨step_of_launch, fun hb => step_regWrite_busy hb rfl, fun hb => step_regRead_idle hb rfl, ?_⟩
  intro found accesses
  have hfound (h : Nat) : s.ctxOk h = true ↔ found h := s.ctxOk_iff h
  have haccesses (h : Nat) : s.cryptRuns h = true ↔ accesses h := by rw [s.cryptRuns_iff, hfound]
  refine ⟨fun h d e => ?_, fun h d e => ?_, fun i h hi e => ?_, fun h d e => ?_,
    fun r => State.buffersOf_of_illegal⟩
  · rw [State.buffersOf_of_decode e]
    exact ⟨fun hf => by simp [State.cmdReads, State.cmdWrites, (hfound h).mpr hf, State.keySaltRange, Config.saltLen],
      fun hf => by simp [State.cmdReads, State.cmdWrites, (hfound h).not.mpr hf]⟩
  · rw [State.buffersOf_of_decode e]
    exact ⟨fun hf => by simp [State.cmdReads, State.cmdWrites, (hfound h).mpr hf, State.ivRange, Config.blockBytes],
      fun hf => by simp [State.cmdReads, State.cmdWrites, (hfound h).not.mpr hf]⟩
  · obtain ⟨hr, hw⟩ := cryptBuffers_of_isCrypt (s := s) hi
    rw [State.buffersOf_of_decode e, hr, hw]
    exact ⟨fun ha => by simp [(haccesses h).mpr ha, State.srcRange, State.dstRange],
      fun ha => by simp [(haccesses h).not.mpr ha]⟩
  · obtain e | e | e := e <;> rw [State.buffersOf_of_decode e] <;> rfl

end Sys2Proof.Machine
end

section
/-! PROOFS. Memory and its ranges (spec/20_memory.md R51, R52, R56, R57): a byte stored and read back, ranges as sets of
addresses, and the bytes a command leaves alone. -/

namespace Sys2Proof.Machine

/-- The address of a byte of a buffer (R51, R73). -/
theorem byteAddr_toNat (base : Addr) (i : Nat) : (byteAddr base i).toNat = (base.toNat + i) % 2 ^ 32 := by
  simp [byteAddr]

/-- Settles O52: the address wraps, and memory in its canonical form reads back what is stored. -/
theorem memoryReadAfterWrite : Obligations.MemoryReadAfterWrite := by
  unfold Obligations.MemoryReadAfterWrite
  exact fun s base i b hm => ⟨fun a => s.byte_storeByte hm _ a b, s.wf_storeByte hm _ b, byteAddr_toNat base i⟩

/-- Settles O53: a range covers the addresses of its bytes. -/
theorem rangesAreAddressSets : Obligations.RangesAreAddressSets := by
  unfold Obligations.RangesAreAddressSets
  rintro ⟨a, m⟩ ⟨b, n⟩ hm hn
  rw [Range.overlaps_iff _ _ hm hn]
  simp only [Range.covers_iff a m hm, Range.covers_iff b n hn]
  constructor
  · rintro ⟨_, ⟨i, hi, rfl⟩, j, hj, e⟩
    exact ⟨i, j, hi, hj, e⟩
  · rintro ⟨i, j, hi, hj, e⟩
    exact ⟨_, ⟨i, hi, rfl⟩, j, hj, e⟩

section Frame

variable {s t : State} {h : Nat}

theorem mem_of_execAllocate (e : execAllocate s = .next t) : t.mem = s.mem := by
  obtain ⟨c, -, rfl⟩ | ⟨v, h, -, rfl⟩ := execAllocate_ends e <;> simp

theorem mem_of_execDeallocate (e : execDeallocate h s = .next t) : t.mem = s.mem := by
  have hd : (s.disposeIfOwned h).mem = s.mem := by
    unfold State.disposeIfOwned
    split_ifs
    · simp [State.primDispose]
    · rfl
  unfold execDeallocate at e
  split_ifs at e <;> cases e
  · simpa using hd
  · rfl

theorem mem_of_execSetIv {d : Dir} (e : execSetIv h d s = .next t) : t.mem = s.mem := by
  obtain rfl | rfl | ⟨-, rfl | ⟨-, rfl⟩ | ⟨-, rfl⟩ | rfl⟩ := execSetIv_ends e <;> simp

theorem mem_of_contextInitLoad (e : contextInitLoad h s = .next t) : t.mem = s.mem := by
  obtain ⟨c, -, ⟨code, rfl⟩ | rfl⟩ := contextInitLoad_ends e <;> simp

theorem mem_of_execContextInit (e : execContextInit h s = .next t) : t.mem = s.mem := by
  rcases execContextInit_cases s h with ⟨-, e'⟩ | ⟨-, -, e'⟩ | ⟨-, -, -, e'⟩ | ⟨-, -, -, e'⟩ | ⟨-, -, -, e'⟩ <;>
    rw [e'] at e
  · cases e; rfl
  · dsimp only at e
    split_ifs at e
    exact mem_of_contextInitLoad e
  · dsimp only at e
    split_ifs at e
    simpa using mem_of_contextInitLoad e
  · cases e; simp
  · cases e; simp

/-- The commands other than ENCRYPT and DECRYPT store nothing (R56). -/
theorem mem_of_exec {i : Instr} (hi : ∀ h, ¬IsCrypt i h) (e : exec i s = .next t) : t.mem = s.mem := by
  cases i with
  | allocate _ _ => exact mem_of_execAllocate e
  | deallocate h _ => exact mem_of_execDeallocate e
  | contextInit h _ => exact mem_of_execContextInit e
  | setIv h d => exact mem_of_execSetIv (d := d) e
  | encrypt h d => exact absurd ⟨d, .inl rfl⟩ (hi h)
  | decrypt h d => exact absurd ⟨d, .inr rfl⟩ (hi h)
  | setAad _ _ => cases e; rfl

/-- An address outside a range is that of none of its bytes (R57). -/
theorem ne_byteAddr_of_not_covers {base a : Addr} {n : Nat} (hn : n ≤ 2 ^ 32) (ha : Range.covers ⟨base, n⟩ a = false) :
    ∀ j < n, a ≠ byteAddr base j := by
  intro j hj e
  have hc := (Range.covers_iff base n hn a).mpr ⟨j, hj, e⟩
  rw [ha] at hc
  cases hc

/-- What the loop leaves, its overlap settled, is as before outside the destination (R56, R57). -/
theorem LoopKeeps.byte_settleOverlap {n : Nat} (k : LoopKeeps h s.regs.dst 0 n s t) (hn : n ≤ s.regs.slen.toNat)
    {a : Addr} (ha : s.dstRange.covers a = false) :
    (t.settleOverlap s.regs.src s.regs.dst s.regs.slen.toNat).byte a = s.byte a := by
  have hne := ne_byteAddr_of_not_covers s.regs.slen.isLt.le ha
  obtain ⟨-, hset⟩ := t.settleOverlap_mem s.regs.src s.regs.dst s.regs.slen.toNat k.wf
  exact (hset a hne).trans (k.byte a fun j _ hj => hne j (by omega))

/-- Where the loop ends, whichever way, it has kept all but the slot and the bytes it stores to. -/
theorem loopKeeps_of_xorLoop {src dst : Addr} {n i : Nat} (h1 : 1 ≤ h) (h2 : h ≤ s.nctx)
    (hm : Memory.wf s.mem = true) (e : (xorLoop h src dst n i s).state? = some t) : LoopKeeps h dst i n s t := by
  have hk := xorLoop_keeps (src := src) (dst := dst) n i h1 h2 hm
  cases hx : xorLoop h src dst n i s <;> rw [hx] at hk e <;> cases e <;> exact hk

/-- The transform stores in the destination alone, whether or not the handle is programmed (R56). -/
theorem byte_of_transform (h1 : 1 ≤ h) (h2 : h ≤ s.nctx) (hm : Memory.wf s.mem = true)
    (e : transform h s = .next t) {a : Addr} (ha : s.dstRange.covers a = false) : t.byte a = s.byte a := by
  obtain ⟨w, hw, ht⟩ := transform_ends e
  have hu := (loopKeeps_of_xorLoop h1 h2 hm hw).byte_settleOverlap le_rfl ha
  obtain rfl | rfl | rfl := ht
  · exact hu
  · exact (State.byte_congr (by simp [cipherFailMidStream]) a).trans hu
  · exact hu

end Frame

/-- Settles O29: ENCRYPT and DECRYPT end at a check, with memory as it was, or in the transform. -/
theorem memoryFrame : Obligations.MemoryFrame := by
  unfold Obligations.MemoryFrame
  refine fun i s t hm e => ⟨fun hi => mem_of_exec hi e, fun h hi a ha => ?_⟩
  rw [exec_of_isCrypt hi] at e
  obtain ⟨c, rfl⟩ | ⟨hr, e⟩ := crypt_ends e
  · rfl
  · obtain ⟨hc, -⟩ := (s.cryptRuns_iff h).mp hr
    obtain ⟨h1, h2, -⟩ := (s.ctxOk_iff h).mp hc
    exact byte_of_transform h1 h2 hm e ha

end Sys2Proof.Machine
end

section
/-! PROOFS. The buffers the host must keep away from (spec/20_memory.md R58, R60; spec/70_reset_and_hazards.md R197):
those of the running command are among them, the points at which they change, and what a host access of memory meets.
-/

namespace Sys2Proof.Machine

section Claims

variable {h : Nat} {s t u : State}

/-- What the ranges of a command depend on in a slot (R56). -/
def Slot.claimPart (c : Slot) : Phase × Nat := (c.phase, c.keySize)

/-- Every word claims the same ranges in `t` as in `s`: the registers, NCTX, and the phase and key size of every slot
are the same (R56). -/
structure SameClaims (s t : State) : Prop where
  regs : t.regs = s.regs
  nctx : t.nctx = s.nctx
  slot : ∀ j, (t.slot j).claimPart = (s.slot j).claimPart

theorem SameClaims.refl : SameClaims s s := ⟨rfl, rfl, fun _ => rfl⟩

theorem SameClaims.trans (a : SameClaims s t) (b : SameClaims t u) : SameClaims s u :=
  ⟨b.regs.trans a.regs, b.nctx.trans a.nctx, fun j => (b.slot j).trans (a.slot j)⟩

theorem SameClaims.congr (k : SameClaims s t) (hr : u.regs = t.regs) (hs : u.slots = t.slots) : SameClaims s u :=
  k.trans ⟨hr, congrArg List.length hs, fun j => congrArg _ (State.slot_congr hs j)⟩

theorem SameClaims.setSlot (k : SameClaims s t) {c : Slot} (hc : c.claimPart = (t.slot h).claimPart) :
    SameClaims s (t.setSlot h c) :=
  k.trans ⟨by simp, t.nctx_setSlot h c, t.slot_setSlot_part Slot.claimPart hc⟩

theorem SameClaims.buffersOf (k : SameClaims s t) (w : Word) : t.buffersOf w = s.buffersOf w :=
  State.buffersOf_congr w k.regs k.nctx (fun j => congrArg Prod.fst (k.slot j)) fun j => congrArg Prod.snd (k.slot j)

/-- The keystream does not touch what the ranges depend on (R34, R36). -/
theorem loopRule_sameClaims (s : State) : LoopRule h (SameClaims s) where
  request _ k := k.congr (by simp) (by simp)
  takeBlock _ _ k := k.setSlot rfl
  useResidue _ k := k.setSlot rfl
  storeByte _ _ _ k := k.congr rfl rfl

/-- A command that does not complete is stuck, and every word claims what it did before (R180). -/
def StuckKeepsClaims (s t : State) : Prop := t.busy = true → SameClaims s t

theorem StuckKeepsClaims.of_idle (hb : t.busy = false) : StuckKeepsClaims s t := by simp [StuckKeepsClaims, hb]

theorem crypt_stuckKeepsClaims (e : crypt h s = .next t) : StuckKeepsClaims s t := by
  intro hb
  obtain ⟨c, rfl⟩ | ⟨-, e⟩ := crypt_ends e
  · cases hb
  · obtain ⟨w, hw, rfl | rfl | rfl⟩ := transform_ends e
    · cases hb
    · cases hb
    · obtain ⟨m, d, hu⟩ := w.settleOverlap_eq s.regs.src s.regs.dst s.regs.slen.toNat
      rw [hu]
      exact ((loopRule_sameClaims s).xorLoop _ _ hw .refl).congr rfl rfl

theorem execDeallocate_completes (e : execDeallocate h s = .next t) : t.busy = false := by
  unfold execDeallocate at e
  split_ifs at e <;> cases e <;> rfl

theorem execAllocate_completes (e : execAllocate s = .next t) : t.busy = false := by
  obtain ⟨c, -, rfl⟩ | ⟨v, h, -, rfl⟩ := execAllocate_ends e <;> rfl

theorem execSetIv_stuckKeepsClaims {d : Dir} (e : execSetIv h d s = .next t) : StuckKeepsClaims s t := by
  intro hb
  obtain rfl | rfl | ⟨-, rfl | ⟨-, rfl⟩ | ⟨-, rfl⟩ | rfl⟩ := execSetIv_ends e
  · cases hb
  · exact SameClaims.refl.congr rfl rfl
  · cases hb
  · cases hb
  · cases hb
  · have k : SameClaims s (s.setSlot h ((s.slot h).withIv s.iv)) := SameClaims.refl.setSlot rfl
    exact k.congr (by simp) (by simp)

theorem contextInitKey_stuckKeepsClaims (e : contextInitKey h s = .next t) : StuckKeepsClaims s t := by
  intro hb
  simp only [contextInitKey] at e
  split_ifs at e
  · cases e; cases hb
  · cases e; cases hb
  · split at e <;> cases e
    · exact SameClaims.refl.congr rfl rfl
    · cases hb

theorem contextInitLoad_stuckKeepsClaims (e : contextInitLoad h s = .next t) : StuckKeepsClaims s t := by
  intro hb
  simp only [contextInitLoad] at e
  split at e
  · cases e
    exact (SameClaims.refl.setSlot (by rfl)).congr rfl rfl
  · rw [State.setSlot_setSlot_same] at e
    exact (SameClaims.refl.setSlot (by rfl)).trans (contextInitKey_stuckKeepsClaims e hb)

theorem execContextInit_stuckKeepsClaims (e : execContextInit h s = .next t) : StuckKeepsClaims s t := by
  intro hb
  obtain ⟨u, k, hs, -, ⟨c, rfl⟩ | rfl⟩ | ⟨-, u, hu, e⟩ := execContextInit_ends e
  · cases hb
  · exact SameClaims.refl.congr k.regs hs
  · exact (SameClaims.refl.congr hu.confined.regs hu.slots).trans (contextInitLoad_stuckKeepsClaims e hb)

theorem exec_stuckKeepsClaims {i : Instr} (e : exec i s = .next t) : StuckKeepsClaims s t := by
  cases i with
  | allocate _ _ => exact .of_idle (execAllocate_completes e)
  | deallocate h _ => exact .of_idle (execDeallocate_completes e)
  | contextInit h _ => exact execContextInit_stuckKeepsClaims e
  | setIv h d => exact execSetIv_stuckKeepsClaims (d := d) e
  | encrypt h _ => exact crypt_stuckKeepsClaims e
  | decrypt h _ => exact crypt_stuckKeepsClaims e
  | setAad _ _ => cases e; exact .of_idle rfl

end Claims

section HostMemory

variable {s t : State} {a : Addr} {b : Byte}

theorem eq_of_hostMemWrite (e : hostMemWrite a b s = .next t) : t = s.storeByte a b := by
  unfold hostMemWrite at e
  split_ifs at e
  cases e; rfl

theorem eq_of_hostMemRead (e : hostMemRead a s = .next t) : t = s.setRdata ((s.byte a).setWidth 32) := by
  unfold hostMemRead at e
  split_ifs at e
  cases e; rfl

/-- A host access of memory inside the register file (R50). -/
theorem hostMem_of_hit (hr : s.hitsRegFile ⟨a, 1⟩ = true) :
    hostMemWrite a b s = .refused .registerFileOverlap ∧ hostMemRead a s = .refused .registerFileOverlap := by
  simp [hostMemWrite, hostMemRead, hr]

/-- A host write of memory outside the register file (R60, R197). -/
theorem hostMemWrite_of_not_hit (hr : s.hitsRegFile ⟨a, 1⟩ = false) :
    hostMemWrite a b s =
      if (s.held.reads.any fun r => r.covers a) = true ∨ (s.held.writes.any fun r => r.covers a) = true then
        .refused .bufferHazard
      else .next (s.storeByte a b) := by
  simp only [hostMemWrite, hr, List.any_append, Bool.or_eq_true, Bool.false_eq_true, if_false]

/-- A host read of memory outside the register file (R58, R60, R197). -/
theorem hostMemRead_of_not_hit (hr : s.hitsRegFile ⟨a, 1⟩ = false) :
    hostMemRead a s =
      if (s.held.writes.any fun r => r.covers a) = true then .refused .bufferHazard
      else .next (s.setRdata ((s.byte a).setWidth 32)) := by
  simp [hostMemRead, hr]

end HostMemory

section Running

variable {s t : State}

/-- An engine that runs no command has no buffers in use. -/
theorem State.HeldOk.of_idle (hb : s.busy = false) : s.HeldOk := by
  simp [State.HeldOk, State.busyBuffers, hb, Buffers.none]

/-- While the command goes on, its ranges stay and so do the held buffers. -/
theorem State.HeldOk.congr (hok : s.HeldOk) (k : SameClaims s t) (hb : t.busy = s.busy) (hl : t.latch = s.latch)
    (hh : t.held = s.held) : t.HeldOk := by
  have e : t.busyBuffers = s.busyBuffers := by simp only [State.busyBuffers, hb, hl, k.buffersOf]
  rw [State.HeldOk, e, hh]
  exact hok

theorem State.HeldOk.launch (s : State) (w : Word) : (s.launch w).HeldOk := by
  have e : (s.launch w).busyBuffers = s.buffersOf w := (SameClaims.refl.congr rfl rfl).buffersOf w
  rw [State.HeldOk, e]
  exact ⟨fun r hr => List.mem_append_right _ hr, fun r hr => List.mem_append_right _ hr⟩

theorem engineTurn_heldOk (hok : s.HeldOk) (e : engineTurn s = .next t) : t.HeldOk := by
  unfold engineTurn at e
  split_ifs at e with hrun
  · split at e
    case _ i _ =>
      cases hb : t.busy with
      | false => exact .of_idle hb
      | true =>
        obtain ⟨hlatch, hheld, -⟩ := registerFrame i s t e
        have hs : s.busy = true := (Bool.and_eq_true_iff.mp hrun).1
        exact hok.congr (exec_stuckKeepsClaims e hb) (hb.trans hs.symm) hlatch hheld
    case _ => cases e; exact .of_idle rfl
  · cases e; exact hok

theorem hostRegWrite_heldOk {off : BitVec 8} {width : Width} {v : Word} (hok : s.HeldOk)
    (e : hostRegWrite off width v s = .next t) : t.HeldOk := by
  rcases hostRegWrite_cases s off width v with ⟨-, e'⟩ | ⟨-, -, e'⟩ | ⟨-, -, -, e'⟩ | ⟨-, hb, r, g, -, -, e'⟩ <;>
    rw [e'] at e <;> cases e
  · exact hok
  · exact .launch s v
  · exact .of_idle hb

/-- The acquire comes when no command runs (R58). -/
theorem hostRegRead_heldOk {off : BitVec 8} {width : Width} (hok : s.HeldOk)
    (e : hostRegRead off width s = .next t) : t.HeldOk := by
  rcases hostRegRead_cases s off width with ⟨-, e'⟩ | ⟨-, r, -, e'⟩ | ⟨-, -, e'⟩ <;> rw [e'] at e <;> cases e
  · obtain ⟨v, n, e⟩ := s.readReg_eq r
    rw [e]
    rcases Bool.eq_false_or_eq_true s.busy with hb | hb
    · exact hok.congr (SameClaims.refl.congr rfl rfl) rfl rfl (by simp [hb])
    · exact .of_idle hb
  · exact hok.congr (SameClaims.refl.congr rfl rfl) rfl rfl rfl

theorem hostMemWrite_heldOk {a : Addr} {b : Byte} (hok : s.HeldOk) (e : hostMemWrite a b s = .next t) : t.HeldOk := by
  obtain rfl := eq_of_hostMemWrite e
  exact hok.congr (SameClaims.refl.congr rfl rfl) rfl rfl rfl

theorem hostMemRead_heldOk {a : Addr} (hok : s.HeldOk) (e : hostMemRead a s = .next t) : t.HeldOk := by
  obtain rfl := eq_of_hostMemRead e
  exact hok.congr (SameClaims.refl.congr rfl rfl) rfl rfl rfl

/-- Every agent's move keeps the buffers of the running command among those held (R11). -/
theorem takeEvent_heldOk {ev : Event} (hok : s.HeldOk) (e : takeEvent ev s = .next t) : t.HeldOk := by
  match ev with
  | .engine => exact engineTurn_heldOk hok e
  | .host (.regWrite _ _ _) => exact hostRegWrite_heldOk hok e
  | .host (.regRead _ _) => exact hostRegRead_heldOk hok e
  | .host (.memWrite _ _) => exact hostMemWrite_heldOk hok e
  | .host (.memRead _) => exact hostMemRead_heldOk hok e
  | .reset => cases e; exact .of_idle rfl

end Running

/-- Settles O56: a step is one agent's move. A command that completes claims nothing, one that is stuck claims what it
did, and no other move changes what the running command claims. -/
theorem runningCommandHoldsItsBuffers : Obligations.RunningCommandHoldsItsBuffers := by
  unfold Obligations.RunningCommandHoldsItsBuffers
  intro s t _ hok e
  unfold step at e
  split at e
  · exact engineTurn_heldOk hok e
  · refine takeEvent_heldOk ?_ e
    exact hok.congr (SameClaims.refl.congr rfl rfl) rfl rfl rfl

section Held

variable {s t : State}

theorem held_of_engineTurn (e : engineTurn s = .next t) : t.held = s.held := by
  unfold engineTurn at e
  split_ifs at e
  · split at e
    case _ i _ =>
      obtain ⟨-, hheld, -⟩ := registerFrame i s t e
      exact hheld
    case _ => cases e; rfl
  · cases e; rfl

/-- The reset input is no ordering point (R58, log entry 15). -/
theorem held_hardReset : s.hardReset.held = s.held := (confined_abandon (h := 0)).held

/-- A write of CMD while BUSY = 0 adds the buffers of the command to those held (R58, R197). -/
theorem held_of_hostRegWrite {off : BitVec 8} {width : Width} {v : Word} (e : hostRegWrite off width v s = .next t) :
    t.held = if off = 0x00#8 ∧ s.busy = false then s.held.add (s.buffersOf v) else s.held := by
  have hcmd := regAt_cmd_iff off
  rcases hostRegWrite_cases s off width v with ⟨-, e'⟩ | ⟨-, hno, e'⟩ | ⟨-, hb, hr, e'⟩ | ⟨-, -, r, g, hne, hr, e'⟩ <;>
    rw [e'] at e <;> cases e
  · rw [if_neg]
    rintro ⟨ho, hb⟩
    simp [hb, hcmd.mpr ho] at hno
  · rw [if_pos ⟨hcmd.mp hr, hb⟩, State.held_launch]
  · rw [if_neg]
    rintro ⟨ho, -⟩
    exact hne (by simpa [hr] using hcmd.mpr ho)

/-- A read of STATUS while BUSY = 0 gives all held buffers back (R58, R197). -/
theorem held_of_hostRegRead {off : BitVec 8} {width : Width} (e : hostRegRead off width s = .next t) :
    t.held = if off = 0x04#8 ∧ s.busy = false then Buffers.none else s.held := by
  have hstatus := regAt_status_iff off
  rcases hostRegRead_cases s off width with ⟨-, e'⟩ | ⟨-, r, hr, e'⟩ | ⟨-, hr, e'⟩ <;> rw [e'] at e <;> cases e
  · have hiff : r = .status ↔ off = 0x04#8 := by simpa [hr] using hstatus
    obtain ⟨v, n, e⟩ := s.readReg_eq r
    simp only [e, hiff]
  · rw [if_neg]
    · rfl
    · rintro ⟨ho, -⟩
      simpa [hr] using hstatus.mpr ho

end Held

/-- Settles O54: the CMD write and the STATUS read are the only moves that touch the held buffers. -/
theorem heldBuffersChangeOnlyThere : Obligations.HeldBuffersChangeOnlyThere := by
  unfold Obligations.HeldBuffersChangeOnlyThere
  intro s t e
  unfold step at e
  match s.sched, e with
  | [], e => exact held_of_engineTurn e
  | .engine :: rest, e => exact held_of_engineTurn (s := { s with sched := rest }) e
  | .host (.regWrite off width v) :: rest, e =>
    have hw := held_of_hostRegWrite (s := { s with sched := rest }) e
    rwa [(SameClaims.refl.congr (s := s) (u := { s with sched := rest }) rfl rfl).buffersOf] at hw
  | .host (.regRead off width) :: rest, e => exact held_of_hostRegRead (s := { s with sched := rest }) e
  | .host (.memWrite a b) :: rest, e => obtain rfl := eq_of_hostMemWrite e; rfl
  | .host (.memRead a) :: rest, e => obtain rfl := eq_of_hostMemRead e; rfl
  | .reset :: rest, e => cases e; exact held_hardReset (s := { s with sched := rest })

/-- Settles O16: the register file is looked at first, then the held buffers. -/
theorem bufferHazardIsRefused : Obligations.BufferHazardIsRefused := by
  unfold Obligations.BufferHazardIsRefused
  intro s a b rest inReads inWrites
  refine ⟨fun hr => ?_, fun hr => ?_⟩
  · obtain ⟨hw, hrd⟩ := hostMem_of_hit (s := { s with sched := rest }) (b := b) hr
    exact ⟨fun e => (step_of_host e).trans hw, fun e => (step_of_host e).trans hrd⟩
  · have hw := hostMemWrite_of_not_hit (s := { s with sched := rest }) (b := b) hr
    have hrd := hostMemRead_of_not_hit (s := { s with sched := rest }) hr
    refine ⟨fun e hin => ?_, fun e hin => ?_, fun e hin hin' => ?_, fun e hin => ?_⟩
    · exact (step_of_host e).trans (hw.trans (if_pos hin))
    · exact (step_of_host e).trans (hrd.trans (if_pos hin))
    · exact (step_of_host e).trans (hw.trans (if_neg (not_or.mpr ⟨ne_true_of_eq_false hin, ne_true_of_eq_false hin'⟩)))
    · exact (step_of_host e).trans (hrd.trans (if_neg (ne_true_of_eq_false hin)))

/-- With no buffer held the host reads any byte outside the register file (R58). -/
theorem step_memRead_of_none_held {s : State} {a : Addr} {rest : List Event} (hr : s.hitsRegFile ⟨a, 1⟩ = false)
    (hh : s.held = Buffers.none) (e : s.sched = .host (.memRead a) :: rest) :
    step s = .next { s with sched := rest, rdata := (s.byte a).setWidth 32 } := by
  obtain ⟨-, hout⟩ := bufferHazardIsRefused s a 0#8 rest
  obtain ⟨-, -, -, hread⟩ := hout hr
  exact hread e (by simp [hh, Buffers.none])

/-- A status word with BUSY = 0 has bit 0 clear (R25). -/
theorem statusWord_idle_even (c : Code) : (statusWord false c).toNat % 2 = 0 := by cases c <;> rfl

/-- Settles O55: the STATUS read leaves no buffer held, so that the memory read meets none. -/
theorem statusReadIsTheAcquire : Obligations.StatusReadIsTheAcquire := by
  unfold Obligations.StatusReadIsTheAcquire
  intro s a rest hb hr e
  refine ⟨_, step_regRead_idle hb rfl e, ?_, ?_⟩
  · show (statusWord s.busy s.code).toNat % 2 = 0
    rw [hb]
    exact statusWord_idle_even s.code
  · exact step_memRead_of_none_held hr rfl rfl

end Sys2Proof.Machine
end

section
/-! PROOFS. Where a command is refused (spec/20_memory.md R50) or stuck at bytes not admitted by the platform
(spec/20_memory.md R63, spec/60_exceptions.md R180). -/

namespace Sys2Proof.Machine

section Handle

variable {s : State} {h : Nat}

/-- The state once the primitive handle of slot `h` exists: as it was, or with a PrimCreate that was answered ok
(R91, R111 step 1). -/
def State.withHandle (s : State) (h : Nat) : State :=
  if (s.slot h).prim = true then s
  else { s with port := s.port ++ [.create h], answers := s.answers.tail, prims := s.prims.set (h - 1) .created }

@[simp] theorem State.regs_withHandle : (s.withHandle h).regs = s.regs := by unfold State.withHandle; split <;> rfl
@[simp] theorem State.slots_withHandle : (s.withHandle h).slots = s.slots := by unfold State.withHandle; split <;> rfl
@[simp] theorem State.mem_withHandle : (s.withHandle h).mem = s.mem := by unfold State.withHandle; split <;> rfl
@[simp] theorem State.plat_withHandle : (s.withHandle h).plat = s.plat := by unfold State.withHandle; split <;> rfl

@[simp] theorem State.slot_withHandle (j : Nat) : (s.withHandle h).slot j = s.slot j := State.slot_congr (by simp) j

@[simp] theorem State.nctx_withHandle : (s.withHandle h).nctx = s.nctx := by simp [State.nctx]

theorem State.createIfAbsent_ok (h1 : 1 ≤ h) (hok : (s.slot h).prim = true ∨ s.answers.head? = some .ok) :
    s.createIfAbsent h = .ok () (s.withHandle h) := by
  unfold State.createIfAbsent State.withHandle
  split_ifs with hp
  · rfl
  · obtain ⟨k, rfl⟩ := Nat.exists_eq_add_of_le' h1
    obtain ⟨rest, ha⟩ := List.head?_eq_some_iff.mp (hok.resolve_left hp)
    simp [State.primCreate, State.issue, State.answer, State.answered, State.setPrim, ha]

/-- CONTEXT_INIT with its primitive handle at hand, or given by the next answer (R50, R111). -/
theorem execContextInit_of_handle (hc : s.ctxOk h = true)
    (hok : (s.slot h).prim = true ∨ s.answers.head? = some .ok) :
    execContextInit h s =
      if s.hitsRegFile (s.keySaltRange (s.slot h).keySize) then .refused .registerFileOverlap
      else contextInitLoad h (s.withHandle h) := by
  obtain ⟨h1, -, -⟩ := (s.ctxOk_iff h).mp hc
  have hrange (n : Nat) : (s.withHandle h).keySaltRange n = s.keySaltRange n := by simp [State.keySaltRange]
  have hhit (r : Range) : (s.withHandle h).hitsRegFile r = s.hitsRegFile r := State.hitsRegFile_congr (by simp) r
  simp only [execContextInit, hc, State.createIfAbsent_ok h1 hok, hrange, hhit, State.slot_withHandle, if_true]

/-- CONTEXT_INIT at a salt that is not admitted, whatever the key size (R63, R111 step 2). -/
theorem contextInitLoad_of_salt_unadmitted (ha : s.admits .read (byteAddr s.regs.kptr (s.slot h).keySize) 14 = false) :
    contextInitLoad h s =
      .next (s.setSlot h { s.slot h with prim := true, counter := 0#128, offset := 0#128 }).hang := by
  have hr (c : Slot) : (s.setSlot h c).memRead (byteAddr s.regs.kptr (s.slot h).keySize) 14 = none := by
    rw [State.memRead_setSlot, State.memRead, ha]
    rfl
  simp [contextInitLoad, Config.saltLen, hr]

end Handle

/-- ENCRYPT and DECRYPT past their checks on a buffer in the register file (R50). -/
theorem crypt_of_hit {s : State} {h : Nat} (hr : s.cryptRuns h = true)
    (hit : s.hitsRegFile s.srcRange = true ∨ s.hitsRegFile s.dstRange = true) :
    crypt h s = .refused .registerFileOverlap := by
  obtain ⟨hc, hlen, hf⟩ := (s.cryptRuns_iff h).mp hr
  simp [crypt, hc, hf, hit, Nat.not_lt.mpr hlen]

/-- Settles O57: the overlap is the first thing each command looks at once its other checks have passed. -/
theorem registerFileOverlapIsRefused : Obligations.RegisterFileOverlapIsRefused := by
  unfold Obligations.RegisterFileOverlapIsRefused
  refine fun s h d => ⟨fun hc hit => ?_, fun hc hok hit => ?_, fun i hi hr hit => ?_⟩
  · simp [exec, execSetIv, hc, hit]
  · exact (execContextInit_of_handle hc hok).trans (if_pos hit)
  · rw [exec_of_isCrypt hi]
    exact crypt_of_hit hr hit

/-- Settles O42: SET_IV has done nothing before its read; CONTEXT_INIT has its handle, and at the key also the salt. -/
theorem unadmittedReadIsStuck : Obligations.UnadmittedReadIsStuck := by
  unfold Obligations.UnadmittedReadIsStuck
  intro s h d hc c u salt
  obtain ⟨h1, h2, -⟩ := (s.ctxOk_iff h).mp hc
  refine ⟨fun hit ha => ?_, fun hok hit => ?_⟩
  · simp [exec, execSetIv, hc, hit, State.memRead, Config.blockBytes, ha, State.hang]
  · have hu : exec (.contextInit h d) s = contextInitLoad h (s.withHandle h) :=
      (execContextInit_of_handle hc hok).trans (if_neg (by simp [c, hit]))
    have hadm (a : Addr) (n : Nat) : (s.withHandle h).admits .read a n = s.admits .read a n :=
      State.admits_congr (by simp) _ a n
    refine ⟨fun hsalt => ?_, fun hsalt hk hkey => ?_⟩
    · rw [hu, contextInitLoad_of_salt_unadmitted (by simpa [hadm] using hsalt), State.slot_withHandle]
      rfl
    · have hs := State.slot_withHandle (s := s) (h := h) h
      have hb := State.bytes_congr (s := s) (t := s.withHandle h) (by simp)
      have hcases := contextInitLoad_cases (s.withHandle h) h h1 (by simpa using h2) (by simpa using hk)
      simp only [hadm, hs, hb, State.regs_withHandle] at hcases
      rcases hcases with ⟨e, -⟩ | ⟨-, -, e⟩ | ⟨-, e, -⟩
      · rw [hsalt] at e; cases e
      · exact hu.trans e
      · rw [hkey] at e; cases e

section Byte

variable {h p : Nat} {src dst : Addr} {s t u : State}

/-- The block that byte `p` needs is answered ok when enough answers are (R96, R133). -/
theorem LoopAt.answer_ok {n : Nat} (at_ : LoopAt h src dst n s p t)
    (ho : s.primOks (blocksNeeded (p + 1) (s.slot h).kavail.toNat)) (hb : needsBlock p (s.slot h).kavail.toNat) :
    (t.issue (.block h (t.slot h).counter)).answer = .ok := by
  have hlt : blocksNeeded p (s.slot h).kavail.toNat < blocksNeeded (p + 1) (s.slot h).kavail.toNat := by
    rw [blocksNeeded_succ, if_pos hb]
    omega
  obtain ⟨rest, hr, -⟩ := answer_ok_of_take ho hlt
  exact State.answer_cons (rest := rest) (by rw [State.answers_issue, at_.answers.2, hr])

/-- Byte `p` of the keystream is there when enough answers are ok (R133). -/
theorem LoopAt.nextKs_ok {n : Nat} (at_ : LoopAt h src dst n s p t) (h1 : 1 ≤ h) (h2 : h ≤ s.nctx)
    (hp : s.primOf h = .programmed (s.slot h).keyBytes)
    (ho : s.primOks (blocksNeeded (p + 1) (s.slot h).kavail.toNat)) :
    ∃ u, nextKs h t = some (.ok ((s.slot h).keystreamByte s.plat.cipher p) u) ∧ KsTaken h s p t u := by
  rcases at_.nextKs_cases h1 h2 hp with hu | ⟨hb, ha, -⟩ | ⟨hb, ha, -⟩
  · exact hu
  · rw [at_.answer_ok ho hb] at ha; cases ha
  · rw [at_.answer_ok ho hb] at ha; cases ha

/-- The body of the loop gets no answer at a byte that is not admitted to be read or to be written (R63, R135). -/
theorem xorByte_of_unadmitted (hu : u.plat = s.plat) (k : Byte)
    (ha : s.admits .read src 1 = false ∨ s.admits .write dst 1 = false) : xorByte src dst k u = none := by
  have hadm (x : Access) (a : Addr) : u.admits x a 1 = s.admits x a 1 := State.admits_congr hu x a 1
  unfold xorByte State.memRead State.memWrite1
  rw [hadm, hadm]
  obtain ha | ha := ha
  · simp [ha]
  · cases s.admits .read src 1 <;> simp [ha]

/-- The loop stops for good at the first byte that is not admitted: `p` bytes are done and the keystream of `p + 1` is
taken (R63, R135, R180). -/
theorem xorLoop_stuck {n : Nat} (h1 : 1 ≤ h) (h2 : h ≤ s.nctx) (hm : Memory.wf s.mem = true) (hn : n ≤ 2 ^ 32)
    (hk : s.primOf h = .programmed (s.slot h).keyBytes) (hpn : p < n) (hr : s.admitsBytes .read src p = true)
    (hw : s.admitsBytes .write dst p = true)
    (ha : s.admits .read (byteAddr src p) 1 = false ∨ s.admits .write (byteAddr dst p) 1 = false)
    (ho : s.primOks (blocksNeeded (p + 1) (s.slot h).kavail.toNat)) :
    ∃ w u, xorLoop h src dst n 0 s = .stuck u ∧ LoopAt h src dst p s p w ∧ KsTaken h s p w u := by
  obtain ⟨w, hdone, at_⟩ := xorLoop_done h1 h2 hm (by omega) hk hr hw
    (State.primOks_mono ho (blocksNeeded_mono (Nat.le_succ p)))
  obtain ⟨u, hu, ks⟩ := at_.nextKs_ok h1 h2 hk ho
  have hx := xorByte_of_unadmitted ((ks.keeps dst 0).plat.trans at_.keeps.plat)
    ((s.slot h).keystreamByte s.plat.cipher p) ha
  obtain ⟨m, rfl⟩ : ∃ m, n = p + (m + 1) := ⟨n - (p + 1), by omega⟩
  refine ⟨w, u, ?_, at_, ks⟩
  rw [xorLoop_add, hdone]
  simp [xorLoop, hu, hx]

end Byte

/-- Settles O59: the transform ends where its loop is stuck, the destination settled as R57 has it. -/
theorem unadmittedByteIsStuck : Obligations.UnadmittedByteIsStuck := by
  unfold Obligations.UnadmittedByteIsStuck
  intro i h p s hi hinv hh hruns hsrc hdst n c hpn hr hw ha ho
  obtain ⟨hc, -, hf⟩ := (s.cryptRuns_iff h).mp hruns
  obtain ⟨h1, h2, -⟩ := (s.ctxOk_iff h).mp hc
  have hn : n ≤ 2 ^ 32 := s.regs.slen.isLt.le
  obtain ⟨-, hkey⟩ := (hinv.slotOk_all hh h).ready hf
  obtain ⟨w, u, hloop, at_, ks⟩ := xorLoop_stuck h1 h2 hinv.mem_wf hn hkey hpn hr hw ha ho
  have hk : LoopKeeps h s.regs.dst 0 p s u := at_.keeps.trans (ks.keeps s.regs.dst 0) (by omega) (by omega)
  have he : exec i s = .next (u.settleOverlap s.regs.src s.regs.dst n).hang := by
    rw [exec_of_isCrypt hi, crypt_of_runs hruns hsrc hdst]
    simp only [transform, n, hloop]
  obtain ⟨m, d, hset⟩ := u.settleOverlap_eq s.regs.src s.regs.dst n
  refine ⟨_, he, rfl, rfl, ?_, ?_, ?_, ?_, fun a hout => ?_, fun hov => ?_⟩
  · rw [State.code_hang, hset]; exact hk.code
  · rw [State.regs_hang, hset]; exact hk.regs
  · rw [State.slot_hang, State.slot_settleOverlap]; exact ks.slot
  · rw [State.port_hang, hset]; exact ks.port
  · exact hk.byte_settleOverlap hpn.le hout
  · rw [State.settleOverlap_of_not hov]
    have hovp : partialOverlap s.regs.src s.regs.dst p = false := by
      simpa using partialOverlap_part (k := 0) (n := p) hn hov (by omega)
    refine ⟨fun j hj => (State.byte_congr ks.mem _).trans (at_.written hovp j hj), fun a hout => ?_⟩
    exact hk.byte a fun j _ hj => ne_byteAddr_of_not_covers (by omega) hout j (by omega)

end Sys2Proof.Machine
end

section
/-! PROOFS. The command word (spec/30_encoding.md R70 to R78): its fields as numbers, the row the decoder selects, and
decoding and encoding as inverses of each other. -/

namespace Sys2Proof

section Fields

variable (w : Word)

theorem opField_eq : opField w = w.toNat % 2 ^ 4 := by simp [opField]

theorem z0Field_eq : z0Field w = w.toNat / 2 ^ 4 % 2 ^ 4 := by simp [z0Field, Nat.shiftRight_eq_div_pow]

theorem ctxField_eq : ctxField w = w.toNat / 2 ^ 8 % 2 ^ 8 := by simp [ctxField, Nat.shiftRight_eq_div_pow]

theorem z1Field_eq : z1Field w = w.toNat / 2 ^ 17 := by
  simp only [z1Field, BitVec.extractLsb'_toNat, Nat.shiftRight_eq_div_pow]
  omega

theorem dirField_eq : dirField w = if w.toNat / 2 ^ 16 % 2 = 1 then .decrypt else .encrypt := by
  simp [dirField, BitVec.getLsbD, Nat.testBit_eq_decide_div_mod_eq]

theorem bit_dirField : (dirField w).bit = w.toNat / 2 ^ 16 % 2 := by
  rw [dirField_eq]
  split <;> simp only [Dir.bit] <;> omega

theorem Dir.bit_lt_two (d : Dir) : d.bit < 2 := by cases d <;> decide

theorem Dir.bit_injective : Function.Injective Dir.bit := by
  intro d d' h
  cases d <;> cases d' <;> simp_all [Dir.bit]

/-- The five fields make up the word (R70). -/
theorem toNat_eq_fields : w.toNat =
    opField w + z0Field w * 2 ^ 4 + ctxField w * 2 ^ 8 + (dirField w).bit * 2 ^ 16 + z1Field w * 2 ^ 17 := by
  rw [opField_eq, z0Field_eq, ctxField_eq, bit_dirField, z1Field_eq]
  omega

end Fields

section Rows

variable {w : Word} {i : Instr}

theorem Instr.op_bounds (i : Instr) : 1 ≤ i.op ∧ i.op < 8 := by cases i <;> simp [Instr.op]

theorem Instr.wellFormed_iff : i.wellFormed = true ↔ i.ctx < 256 := by simp [Instr.wellFormed, Instr.ctxFits]

/-- The row of an opcode number (R72). -/
theorem instrOfOp_eq_some_iff {op h : Nat} {d : Dir} :
    instrOfOp op h d = some i ↔ op = i.op ∧ h = i.ctx ∧ d = i.dir := by
  constructor
  · intro e
    unfold instrOfOp at e
    split at e <;> cases e <;> exact ⟨rfl, rfl, rfl⟩
  · rintro ⟨rfl, rfl, rfl⟩
    cases i <;> rfl

/-- The opcode numbers without a row (R75). -/
theorem instrOfOp_of_no_row {op : Nat} (hop : op = 0 ∨ 8 ≤ op) (h : Nat) (d : Dir) : instrOfOp op h d = none := by
  cases e : instrOfOp op h d with
  | none => rfl
  | some i =>
    obtain ⟨rfl, -, -⟩ := instrOfOp_eq_some_iff.mp e
    have := i.op_bounds
    omega

theorem decode_of_reserved (hz : z0Field w ≠ 0 ∨ z1Field w ≠ 0) : decode w = .illegal .reservedBits := if_pos hz

theorem decode_of_no_row (hz : ¬(z0Field w ≠ 0 ∨ z1Field w ≠ 0)) (hop : opField w = 0 ∨ 8 ≤ opField w) :
    decode w = .illegal .noSuchOpcode := by
  simp only [decode, if_neg hz, instrOfOp_of_no_row hop]

/-- A word decodes to an instruction exactly when its fields are the instruction's (R70, R75). -/
theorem decode_eq_instr_iff : decode w = .instr i ↔
    (z0Field w = 0 ∧ z1Field w = 0) ∧ opField w = i.op ∧ ctxField w = i.ctx ∧ dirField w = i.dir := by
  rw [← instrOfOp_eq_some_iff]
  by_cases hz : z0Field w ≠ 0 ∨ z1Field w ≠ 0
  · have hne : ¬(z0Field w = 0 ∧ z1Field w = 0) := by tauto
    simp [decode_of_reserved hz, hne]
  · have heq : z0Field w = 0 ∧ z1Field w = 0 := by tauto
    cases e : instrOfOp (opField w) (ctxField w) (dirField w) <;> simp [decode, heq, e]

/-- The number of an instruction's word (R78). -/
theorem toNat_encode (hi : i.wellFormed = true) :
    (encode i).toNat = i.op + i.ctx * 2 ^ 8 + i.dir.bit * 2 ^ 16 := by
  have hctx := Instr.wellFormed_iff.mp hi
  have hop := i.op_bounds
  have hdir := Dir.bit_lt_two i.dir
  simp only [encode, cmdWord, BitVec.toNat_ofNat]
  omega

/-- Decoding and encoding are inverses of each other on the well-formed instructions (R71, R78): either way the
instruction's fields, and no others, make up the word. -/
theorem decode_eq_instr_iff_encode : decode w = .instr i ↔ i.wellFormed = true ∧ encode i = w := by
  rw [decode_eq_instr_iff]
  constructor
  · rintro ⟨⟨hz0, hz1⟩, hop, hctx, hdir⟩
    have hi : i.wellFormed = true := Instr.wellFormed_iff.mpr (hctx ▸ (w.extractLsb' 8 8).isLt)
    refine ⟨hi, BitVec.eq_of_toNat_eq ?_⟩
    rw [toNat_encode hi, toNat_eq_fields w, hz0, hz1, hop, hctx, hdir]
    omega
  · rintro ⟨hi, rfl⟩
    have hctx := Instr.wellFormed_iff.mp hi
    have hop := i.op_bounds
    have hdir := Dir.bit_lt_two i.dir
    refine ⟨⟨?_, ?_⟩, ?_, ?_, Dir.bit_injective ?_⟩ <;>
      simp only [z0Field_eq, z1Field_eq, opField_eq, ctxField_eq, bit_dirField, toNat_encode hi] <;> omega

end Rows

/-- The mask of R72 takes a field whole when it is all ones there. -/
theorem extractLsb'_and_tableMask (w : Word) {start len : Nat}
    (hm : tableMask.extractLsb' start len = BitVec.allOnes len) :
    (w &&& tableMask).extractLsb' start len = w.extractLsb' start len := by
  rw [BitVec.extractLsb'_and, hm, BitVec.and_allOnes]

/-- A word in the row of an instruction has that row's opcode and no reserved bit set (R72, R75). -/
theorem fields_of_row {w : Word} {i : Instr} (hrow : w &&& tableMask = tableMatch i) :
    z0Field w = 0 ∧ z1Field w = 0 ∧ opField w = i.op := by
  unfold z0Field z1Field opField
  rw [← extractLsb'_and_tableMask w (start := 4) (by decide),
    ← extractLsb'_and_tableMask w (start := 17) (by decide),
    ← extractLsb'_and_tableMask w (start := 0) (by decide), hrow]
  cases i <;> simp [tableMatch, Instr.op]

/-- Settles O1: the encoding of a well-formed instruction is the one word that decodes to it. -/
theorem decodeEncodeRoundTrip : Obligations.DecodeEncodeRoundTrip := by
  unfold Obligations.DecodeEncodeRoundTrip
  exact fun i hi => decode_eq_instr_iff_encode.mpr ⟨hi, rfl⟩

/-- Settles O2: the fields of a decoding word are those of its instruction, and they make up the word. -/
theorem encodeDecodeRoundTrip : Obligations.EncodeDecodeRoundTrip := by
  unfold Obligations.EncodeDecodeRoundTrip
  exact fun w i => decode_eq_instr_iff_encode.mp

/-- Settles O3: a decoding word is the word of its instruction, which stands in its row; a word in the row has the
opcode and the reserved zeros of the row. -/
theorem decodeFollowsTheTable : Obligations.DecodeFollowsTheTable := by
  unfold Obligations.DecodeFollowsTheTable
  intro w i
  rw [← ctxField_eq, ← dirField_eq]
  constructor
  · intro e
    obtain ⟨-, -, hctx, hdir⟩ := decode_eq_instr_iff.mp e
    obtain ⟨hi, rfl⟩ := decode_eq_instr_iff_encode.mp e
    exact ⟨Laws.WordInItsRow.word_and_mask i.op i.ctx i.dir i.op_bounds.2 (Instr.wellFormed_iff.mp hi), hctx.symm,
      hdir.symm⟩
  · rintro ⟨hrow, hctx, hdir⟩
    obtain ⟨hz0, hz1, hop⟩ := fields_of_row hrow
    exact decode_eq_instr_iff.mpr ⟨⟨hz0, hz1⟩, hop, hctx.symm, hdir.symm⟩

/-- Settles O4: each word of the table is decoded by evaluation. -/
theorem specExamplesDecode : Obligations.SpecExamplesDecode := by
  unfold Obligations.SpecExamplesDecode
  decide

end Sys2Proof
end

section
/-! PROOFS. The engine's turn in a step (spec/30_encoding.md R71, R75, R76): the launched command, an illegal word, no
command. -/

namespace Sys2Proof.Machine

section Turn

variable {s : State} {rest : List Event}

theorem step_of_no_event (e : s.sched = []) : step s = engineTurn s := by rw [step, e]

theorem step_of_engine (e : s.sched = .engine :: rest) : step s = engineTurn { s with sched := rest } := by
  simp only [step, e]
  rfl

theorem engineTurn_of_instr {i : Instr} (hb : s.busy = true) (hh : s.hung = false) (e : decode s.latch = .instr i) :
    engineTurn s = exec i s := by
  simp [engineTurn, hb, hh, e]

theorem State.complete_of_not_hung (hh : s.hung = false) (c : Code) :
    s.complete c = { s with busy := false, code := c } := by
  rw [State.complete, ← hh]

theorem engineTurn_of_illegal {r : IllegalWord} (hb : s.busy = true) (hh : s.hung = false)
    (e : decode s.latch = .illegal r) : engineTurn s = .next { s with busy := false, code := .badParam } := by
  simp [engineTurn, hb, hh, e, State.illegalWord, State.complete_of_not_hung hh]

theorem engineTurn_of_idle (hb : s.busy = false) : engineTurn s = .next s := by simp [engineTurn, hb]

end Turn

/-- Settles O5: the fields of the word are its bits, and the illegal word ends the engine's turn. -/
theorem illegalWordCompletesBadParam : Obligations.IllegalWordCompletesBadParam := by
  unfold Obligations.IllegalWordCompletesBadParam
  intro s hb hh op reserved
  have hz : reserved ↔ z0Field s.latch ≠ 0 ∨ z1Field s.latch ≠ 0 := by rw [z0Field_eq, z1Field_eq]
  have hop : opField s.latch = op := opField_eq s.latch
  have hres : reserved → decode s.latch = .illegal .reservedBits := fun h => decode_of_reserved (hz.mp h)
  have hno : ¬reserved → (op = 0 ∨ 8 ≤ op) → decode s.latch = .illegal .noSuchOpcode := fun h ho =>
    decode_of_no_row (fun h' => h (hz.mpr h')) (hop ▸ ho)
  refine ⟨hres, hno, fun h => ?_⟩
  obtain ⟨r, hr⟩ : ∃ r, decode s.latch = .illegal r := by
    by_cases hd : reserved
    · exact ⟨_, hres hd⟩
    · exact ⟨_, hno hd (h.resolve_left hd)⟩
  exact ⟨fun e => (step_of_no_event e).trans (engineTurn_of_illegal hb hh hr),
    fun rest e => (step_of_engine e).trans (engineTurn_of_illegal (s := { s with sched := rest }) hb hh hr)⟩

/-- ALLOCATE neither reads nor writes TLEN (R76). -/
theorem execAllocate_withTlen (s : State) (v : Word) :
    execAllocate { s with regs := { s.regs with tlen := v } } =
      mapNext (fun t => { t with regs := { t.regs with tlen := v } }) (execAllocate s) := by
  have hfree : State.leastFree { s with regs := { s.regs with tlen := v } } = s.leastFree := rfl
  unfold execAllocate
  rw [hfree]
  cases variantOf s.regs.klen with
  | none => rfl
  | some k =>
    cases s.leastFree with
    | none => rfl
    | some h => cases h <;> rfl

/-- Settles O6: no arm of `exec` hands on DIR to a meaning that reads it, nor CTX for ALLOCATE and SET_AAD. -/
theorem ignoredBitsAreIgnored : Obligations.IgnoredBitsAreIgnored := by
  unfold Obligations.IgnoredBitsAreIgnored
  intro s h h' d d' v
  exact ⟨rfl, rfl, rfl, rfl, rfl, rfl, rfl, execAllocate_withTlen s v⟩

/-- Settles O7: both forms of the step are the engine's turn. -/
theorem stepRunsTheLaunchedCommand : Obligations.StepRunsTheLaunchedCommand := by
  unfold Obligations.StepRunsTheLaunchedCommand
  refine fun s => ⟨fun i hb hh e => ⟨fun hs => ?_, fun rest hs => ?_⟩, fun hb => ⟨fun hs => ?_, fun rest hs => ?_⟩⟩
  · exact (step_of_no_event hs).trans (engineTurn_of_instr hb hh e)
  · exact (step_of_engine hs).trans (engineTurn_of_instr (s := { s with sched := rest }) hb hh e)
  · exact (step_of_no_event hs).trans (engineTurn_of_idle hb)
  · exact (step_of_engine hs).trans (engineTurn_of_idle hb)

end Sys2Proof.Machine
end

section
/-! PROOFS. No step from an invariant state faults (spec/40_primitive_port.md R93): the one fault of the model is a block
request of a handle that is not programmed, and a READY slot has its handle programmed (R31, R95). -/

namespace Sys2Proof.Machine

/-- The outcome is a next state or a refusal. -/
def FaultFree (o : Host.Outcome State Fault Refusal) : Prop := ∀ f, o ≠ .fault f

@[simp] theorem faultFree_next (s : State) : FaultFree (.next s) := nofun

@[simp] theorem faultFree_refused (r : Refusal) : FaultFree (.refused r) := nofun

section Commands

variable {s : State} {h : Nat}

theorem execAllocate_faultFree : FaultFree (execAllocate s) := by
  unfold execAllocate
  cases variantOf s.regs.klen with
  | none => simp
  | some v => cases s.leastFree <;> simp

theorem execDeallocate_faultFree : FaultFree (execDeallocate h s) := by
  unfold execDeallocate
  split_ifs <;> simp

theorem contextInitKey_faultFree : FaultFree (contextInitKey h s) := by
  simp only [contextInitKey]
  split_ifs
  · simp
  · simp
  · cases s.memRead s.regs.kptr (s.slot h).keySize <;> simp

theorem contextInitLoad_faultFree : FaultFree (contextInitLoad h s) := by
  simp only [contextInitLoad]
  split
  · simp
  · exact contextInitKey_faultFree

theorem execContextInit_faultFree : FaultFree (execContextInit h s) := by
  unfold execContextInit
  split_ifs
  · cases s.createIfAbsent h with
    | fail t => simp
    | silent t => simp
    | ok _ t =>
      dsimp only
      split_ifs
      · simp
      · exact contextInitLoad_faultFree
  · simp

theorem execSetIv_faultFree (d : Dir) : FaultFree (execSetIv h d s) := by
  rcases execSetIv_cases s h d with ⟨-, e⟩ | ⟨-, -, e⟩ | ⟨-, -, -, e⟩ | ⟨⟨hc, -⟩, e⟩ <;> rw [e]
  · simp
  · simp
  · simp
  · obtain ⟨h1, h2, -⟩ := (s.ctxOk_iff h).mp hc
    rcases setIvProgram_cases s h h1 h2 ((s.slot h).withIv s.iv) with ⟨-, e⟩ | ⟨-, -, e⟩ | ⟨-, -, e⟩ | ⟨-, -, e⟩ <;>
      rw [e] <;> simp

/-- ENCRYPT and DECRYPT run their transform on a READY slot alone, whose handle is programmed (R31, R95, R135). -/
theorem crypt_faultFree (hm : Memory.wf s.mem = true) (ok : SlotOk (s.slot h) (s.primOf h)) : FaultFree (crypt h s) := by
  rcases crypt_cases s h with ⟨-, e⟩ | ⟨-, -, e⟩ | ⟨-, -, -, e⟩ | ⟨-, e⟩ | ⟨hr, e⟩ <;> rw [e]
  · simp
  · simp
  · simp
  · simp
  · obtain ⟨hc, -, hf⟩ := (s.cryptRuns_iff h).mp hr
    obtain ⟨h1, h2, -⟩ := (s.ctxOk_iff h).mp hc
    obtain ⟨-, hkey⟩ := ok.ready hf
    obtain ⟨t, e, -⟩ := transform_cases h1 h2 hm hkey
    rw [e]
    simp

theorem exec_faultFree (hinv : s.Inv) (hh : s.hung = false) (i : Instr) : FaultFree (exec i s) := by
  cases i with
  | allocate _ _ => exact execAllocate_faultFree
  | deallocate h _ => exact execDeallocate_faultFree
  | contextInit h _ => exact execContextInit_faultFree
  | setIv h d => exact execSetIv_faultFree d
  | encrypt h _ => exact crypt_faultFree hinv.mem_wf (hinv.slotOk_all hh h)
  | decrypt h _ => exact crypt_faultFree hinv.mem_wf (hinv.slotOk_all hh h)
  | setAad _ _ => exact faultFree_next _

end Commands

section Moves

variable {s : State}

/-- The engine does not move in a stuck state, the only one whose slots the invariant exempts (R180). -/
theorem engineTurn_faultFree (hinv : s.Inv) : FaultFree (engineTurn s) := by
  unfold engineTurn
  split_ifs with hrun
  · have hh : s.hung = false := by simpa using (Bool.and_eq_true_iff.mp hrun).2
    cases decode s.latch with
    | instr i => exact exec_faultFree hinv hh i
    | illegal _ => simp
  · simp

/-- The host's accesses complete or are refused (R42, R50, R197). -/
theorem hostAccess_faultFree (a : HostAccess) : FaultFree (hostAccess a s) := by
  cases a with
  | regWrite off width v =>
    rcases hostRegWrite_cases s off width v with ⟨-, e⟩ | ⟨-, -, e⟩ | ⟨-, -, -, e⟩ | ⟨-, -, r, g, -, -, e⟩ <;>
      simp [hostAccess, e]
  | regRead off width =>
    rcases hostRegRead_cases s off width with ⟨-, e⟩ | ⟨-, r, -, e⟩ | ⟨-, -, e⟩ <;> simp [hostAccess, e]
  | memWrite a b =>
    simp only [hostAccess, hostMemWrite]
    split_ifs <;> simp
  | memRead a =>
    simp only [hostAccess, hostMemRead]
    split_ifs <;> simp

theorem takeEvent_faultFree (hinv : s.Inv) (e : Event) : FaultFree (takeEvent e s) := by
  cases e with
  | engine => exact engineTurn_faultFree hinv
  | host a => exact hostAccess_faultFree a
  | reset => exact faultFree_next _

end Moves

/-- Settles O21: a step is one agent's move; only the engine could fault, and it runs commands on slots that meet the
invariant. -/
theorem stepNeverFaults : Obligations.StepNeverFaults := by
  unfold Obligations.StepNeverFaults
  intro s f hinv
  have hstep : FaultFree (step s) := by
    unfold step
    cases s.sched with
    | nil => exact engineTurn_faultFree hinv
    | cons e rest =>
      have hrest : State.Inv { s with sched := rest } := hinv.congr rfl rfl rfl rfl rfl rfl hinv.mem_wf
      exact takeEvent_faultFree hrest e
  exact hstep f

end Sys2Proof.Machine
end

section
/-! PROOFS. What each command issues on the primitive port, from every state (spec/40_primitive_port.md R91 to R97). -/

namespace Sys2Proof.Machine

variable {s t u : State} {h : Nat}

section Operations

@[simp] theorem Slot.keySize_withIv (c : Slot) (iv : Block) : (c.withIv iv).keySize = c.keySize := rfl
@[simp] theorem Slot.counter_withIv (c : Slot) (iv : Block) : (c.withIv iv).counter = c.offset ^^^ iv := rfl
@[simp] theorem Slot.prim_withIv (c : Slot) (iv : Block) : (c.withIv iv).prim = c.prim := rfl

@[simp] theorem State.port_disposeIfOwned (s : State) (h : Nat) :
    (s.disposeIfOwned h).port = s.port ++ if (s.slot h).prim then [.dispose h] else [] := by
  unfold State.disposeIfOwned
  split_ifs <;> simp [State.primDispose]

@[simp] theorem State.port_settleOverlap (s : State) (src dst : Addr) (n : Nat) :
    (s.settleOverlap src dst n).port = s.port := by
  obtain ⟨m, d, e⟩ := s.settleOverlap_eq src dst n
  rw [e]

@[simp] theorem port_cipherFailMidStream (s : State) (h : Nat) : (cipherFailMidStream h s).port = s.port := by
  simp [cipherFailMidStream]

/-- A block request that has a meaning leaves the same state whatever its answer (R93). -/
theorem State.state_of_primBlock {c : Block} {r : Reply Block} (e : s.primBlock h c = some r) :
    r.state = (s.issue (.block h c)).answered := by
  cases hp : s.primOf h with
  | absent => simp [primBlock, hp] at e
  | created => simp [primBlock, hp] at e
  | programmed key =>
    rcases primBlock_cases hp c with ⟨-, e'⟩ | ⟨-, e'⟩ | ⟨-, e'⟩ <;>
      obtain rfl := Option.some.inj (e'.symm.trans e) <;> rfl

/-- How `NextKs` can end, from every state (R133): with a block requested, which is given or not, or with a byte of the
residue. -/
theorem nextKs_ends {r : Reply Byte} (e : nextKs h s = some r) :
    let u := (s.issue (.block h (s.slot h).counter)).answered
    ((s.slot h).kavail = 0#4 ∧
      ((∃ b, r = .ok (byteAt b 0) (u.setSlot h ((s.slot h).takeBlock b))) ∨ r = .fail u ∨ r = .silent u)) ∨
    ((s.slot h).kavail ≠ 0#4 ∧ r = .ok (s.slot h).residueByte (s.setSlot h (s.slot h).useResidue)) := by
  by_cases hk : (s.slot h).kavail = 0#4
  · refine .inl ⟨hk, ?_⟩
    cases hb : s.primBlock h (s.slot h).counter with
    | none => simp [nextKs, hk, hb] at e
    | some q =>
      have hq := State.state_of_primBlock hb
      simp only [nextKs, hk, hb, if_true] at e
      cases q with
      | ok b v => obtain rfl : v = _ := hq; obtain rfl := Option.some.inj e; exact .inl ⟨b, rfl⟩
      | fail v => obtain rfl : v = _ := hq; obtain rfl := Option.some.inj e; exact .inr (.inl rfl)
      | silent v => obtain rfl : v = _ := hq; obtain rfl := Option.some.inj e; exact .inr (.inr rfl)
  · simp only [nextKs, hk, if_false] at e
    exact .inr ⟨hk, (Option.some.inj e).symm⟩

/-- The body of the loop stores one byte (R135). -/
theorem eq_of_xorByte {src dst : Addr} {k : Byte} (e : xorByte src dst k s = some t) : ∃ b, t = s.storeByte dst b := by
  simp only [xorByte, State.memWrite1] at e
  split at e
  · cases e
  · split_ifs at e
    exact ⟨_, (Option.some.inj e).symm⟩

end Operations

section Requests

/-- The port of `t` holds, beside what it held in `s`, the block requests for `i` bytes on context `h` (R97). -/
def RequestedFor (h : Nat) (s : State) (i : Nat) (t : State) : Prop :=
  t.port = s.port ++ (s.slot h).blockTxns h (blocksNeeded i (s.slot h).kavail.toNat)

/-- Where the requests of a command on context `h`, launched in any state `s`, stand after `i` bytes: counter and
residue are those that the requests made so far leave (R34, R36, R97). `LoopAt` says more, of a programmed handle and a
canonical memory. -/
structure RequestsAt (h : Nat) (s : State) (i : Nat) (t : State) : Prop where
  nctx    : t.nctx = s.nctx
  counter : (t.slot h).counter = inc16Iter (blocksNeeded i (s.slot h).kavail.toNat) (s.slot h).counter
  kavail  : (t.slot h).kavail.toNat + i = (s.slot h).kavail.toNat + 16 * blocksNeeded i (s.slot h).kavail.toNat
  port    : RequestedFor h s i t

/-- What the loop over `n` bytes has requested: all of it when it is done, and at most that whichever way it ends. -/
def RequestedAtEnd (h : Nat) (s : State) (n : Nat) (o : LoopEnd) : Prop :=
  ∀ w, o.state? = some w → ∃ p ≤ n, RequestedFor h s p w ∧ (o = .done w → p = n)

/-- The requests of ENCRYPT or DECRYPT on context `h` that leaves `t`: for the bytes it came to, which on Ok are all
(R97, R135). -/
def RequestsMade (h : Nat) (s t : State) : Prop :=
  ∃ p ≤ s.regs.slen.toNat, RequestedFor h s p t ∧ (t.busy = false → t.code = .ok → p = s.regs.slen.toNat)

theorem RequestsAt.start : RequestsAt h s 0 s :=
  ⟨rfl, by simp [blocksNeeded, inc16Iter], by simp [blocksNeeded],
    by simp [RequestedFor, blocksNeeded, Slot.blockTxns]⟩

variable {i : Nat}

/-- A byte needs a block exactly when no residue is left (R133). -/
theorem RequestsAt.blocksNeeded_succ (at_ : RequestsAt h s i t) :
    blocksNeeded (i + 1) (s.slot h).kavail.toNat =
      blocksNeeded i (s.slot h).kavail.toNat + if (t.slot h).kavail = 0#4 then 1 else 0 := by
  have hiff : (t.slot h).kavail = 0#4 ↔ needsBlock i (s.slot h).kavail.toNat := by
    have hlt := (t.slot h).kavail.isLt
    have hleft := at_.kavail
    rw [← BitVec.toNat_inj, BitVec.toNat_ofNat]
    simp only [blocksNeeded] at hleft
    omega
  simp only [Machine.blocksNeeded_succ, hiff]

/-- The request for byte `i` carries the counter value that is its turn (R97). -/
theorem RequestsAt.issue (at_ : RequestsAt h s i t) (hk : (t.slot h).kavail = 0#4) :
    RequestedFor h s (i + 1) (t.issue (.block h (t.slot h).counter)).answered := by
  rw [RequestedFor, at_.blocksNeeded_succ, if_pos hk, Slot.blockTxns_succ, ← List.append_assoc, ← at_.port,
    ← at_.counter, State.port_answered, State.port_issue]

section InRange

variable (h1 : 1 ≤ h) (h2 : h ≤ s.nctx)

include h1 h2

/-- Slot `h` written with the counter and the residue that the requests leave. -/
theorem RequestsAt.of_setSlot {c : Slot} (hn : u.nctx = s.nctx) (hport : RequestedFor h s i u)
    (hcounter : c.counter = inc16Iter (blocksNeeded i (s.slot h).kavail.toNat) (s.slot h).counter)
    (hkavail : c.kavail.toNat + i = (s.slot h).kavail.toNat + 16 * blocksNeeded i (s.slot h).kavail.toNat) :
    RequestsAt h s i (u.setSlot h c) := by
  have hs := u.slot_setSlot_same h1 (hn ▸ h2) c
  exact ⟨(u.nctx_setSlot h c).trans hn, by rwa [hs], by rwa [hs], (u.port_setSlot h c).trans hport⟩

/-- `NextKs` after `i` bytes: the requests for `i + 1` are made, and when a byte comes the slot stands there too. -/
theorem RequestsAt.nextKs (at_ : RequestsAt h s i t) {r : Reply Byte} (e : nextKs h t = some r) :
    ∃ u, (∃ k, r = .ok k u ∧ RequestsAt h s (i + 1) u) ∨
      ((r = .fail u ∨ r = .silent u) ∧ RequestedFor h s (i + 1) u) := by
  have hsucc := at_.blocksNeeded_succ
  have hleft := at_.kavail
  rcases nextKs_ends e with ⟨hk, ⟨b, rfl⟩ | rfl | rfl⟩ | ⟨hk, rfl⟩
  · rw [if_pos hk] at hsucc
    refine ⟨_, .inl ⟨_, rfl, .of_setSlot h1 h2 (by simpa [State.nctx] using at_.nctx) (at_.issue hk) ?_ ?_⟩⟩
    · rw [hsucc, inc16Iter_succ, ← at_.counter]
      rfl
    · simp only [Slot.takeBlock, hk, BitVec.toNat_ofNat] at hleft ⊢
      omega
  · exact ⟨_, .inr ⟨.inl rfl, at_.issue hk⟩⟩
  · exact ⟨_, .inr ⟨.inr rfl, at_.issue hk⟩⟩
  · rw [if_neg hk, Nat.add_zero] at hsucc
    refine ⟨_, .inl ⟨_, rfl, .of_setSlot h1 h2 at_.nctx ?_ ?_ ?_⟩⟩
    · rw [RequestedFor, hsucc]
      exact at_.port
    · rw [hsucc]
      exact at_.counter
    · have hpos : (t.slot h).kavail.toNat ≠ 0 := fun h0 => hk (BitVec.eq_of_toNat_eq h0)
      have hlt := (t.slot h).kavail.isLt
      simp only [Slot.useResidue, BitVec.toNat_sub, BitVec.toNat_ofNat]
      omega

/-- The loop over bytes `i` to `n - 1`, from every state (R135). -/
theorem RequestsAt.xorLoop {src dst : Addr} (m : Nat) {n : Nat} (at_ : RequestsAt h s i t) (hn : i + m = n) :
    RequestedAtEnd h s n (xorLoop h src dst m i t) := by
  induction m generalizing i t with
  | zero => rintro w ⟨⟩; exact ⟨i, hn.le, at_.port, fun _ => hn⟩
  | succ m ih =>
    unfold Machine.xorLoop
    cases e : Machine.nextKs h t with
    | none => nofun
    | some r =>
      obtain ⟨u, ⟨k, rfl, hat⟩ | ⟨rfl | rfl, hport⟩⟩ := at_.nextKs h1 h2 e
      · dsimp only
        cases hx : xorByte (byteAddr src i) (byteAddr dst i) k u with
        | none => rintro w ⟨⟩; exact ⟨i + 1, by omega, hat.port, nofun⟩
        | some v =>
          obtain ⟨b, rfl⟩ := eq_of_xorByte hx
          obtain ⟨hnctx, hcounter, hkavail, hport⟩ := hat
          exact ih ⟨hnctx, by simpa using hcounter, by simpa using hkavail, hport⟩ (by omega)
      · rintro w ⟨⟩; exact ⟨i + 1, by omega, hport, nofun⟩
      · rintro w ⟨⟩; exact ⟨i + 1, by omega, hport, nofun⟩

theorem requestsMade_of_transform (e : transform h s = .next t) : RequestsMade h s t := by
  have hend := RequestsAt.start.xorLoop (src := s.regs.src) (dst := s.regs.dst) h1 h2 s.regs.slen.toNat (Nat.zero_add _)
  simp only [transform] at e
  cases hl : xorLoop h s.regs.src s.regs.dst s.regs.slen.toNat 0 s with
  | broken => rw [hl] at e; cases e
  | done w =>
    rw [hl] at e hend; cases e
    obtain ⟨p, hp, hport, hall⟩ := hend w rfl
    exact ⟨p, hp, by simpa [RequestedFor] using hport, fun _ _ => hall rfl⟩
  | failed w =>
    rw [hl] at e hend; cases e
    obtain ⟨p, hp, hport, -⟩ := hend w rfl
    exact ⟨p, hp, by simpa [RequestedFor] using hport, fun _ => nofun⟩
  | stuck w =>
    rw [hl] at e hend; cases e
    obtain ⟨p, hp, hport, -⟩ := hend w rfl
    exact ⟨p, hp, by simpa [RequestedFor] using hport, nofun⟩

end InRange

theorem requestsMade_of_crypt (e : crypt h s = .next t) : RequestsMade h s t := by
  have stops {c : Code} (hc : c ≠ .ok) : RequestsMade h s (s.complete c) :=
    ⟨0, Nat.zero_le _, RequestsAt.start.port, fun _ hok => absurd hok hc⟩
  rcases crypt_cases s h with ⟨-, e'⟩ | ⟨-, -, e'⟩ | ⟨-, -, -, e'⟩ | ⟨-, e'⟩ | ⟨hr, e'⟩ <;> rw [e'] at e
  · cases e; exact stops (by decide)
  · cases e; exact stops (by decide)
  · cases e; exact stops (by decide)
  · cases e
  · obtain ⟨hc, -⟩ := (s.cryptRuns_iff h).mp hr
    obtain ⟨h1, h2, -⟩ := (s.ctxOk_iff h).mp hc
    exact requestsMade_of_transform h1 h2 e

end Requests

section Commands

theorem port_of_execAllocate (e : execAllocate s = .next t) : t.port = s.port := by
  obtain ⟨c, -, rfl⟩ | ⟨v, h, -, rfl⟩ := execAllocate_ends e <;> simp

theorem port_of_execDeallocate (d : Dir) (e : execDeallocate h s = .next t) :
    t.port = s.port ++ txnsOf (.deallocate h d) s := by
  unfold execDeallocate at e
  split_ifs at e with hc <;> cases e <;> simp [txnsOf, hc]

theorem port_of_contextInitLoad (e : contextInitLoad h s = .next t) : t.port = s.port := by
  obtain ⟨c, -, ⟨code, rfl⟩ | rfl⟩ := contextInitLoad_ends e <;> simp

theorem port_of_execContextInit (d : Dir) (e : execContextInit h s = .next t) :
    t.port = s.port ++ txnsOf (.contextInit h d) s := by
  rcases execContextInit_cases s h with ⟨hc, e'⟩ | ⟨hc, hp, e'⟩ | ⟨hc, hp, -, e'⟩ | ⟨hc, hp, -, e'⟩ | ⟨hc, hp, -, e'⟩ <;>
    rw [e'] at e
  · cases e; simp [txnsOf, hc]
  · dsimp only at e
    split_ifs at e
    simp [port_of_contextInitLoad e, txnsOf, hp]
  · dsimp only at e
    split_ifs at e
    simp [port_of_contextInitLoad e, txnsOf, hc, hp]
  · cases e; simp [txnsOf, hc, hp]
  · cases e; simp [txnsOf, hc, hp]

theorem port_of_execSetIv (d : Dir) (e : execSetIv h d s = .next t) : t.port = s.port ++ txnsOf (.setIv h d) s := by
  rcases execSetIv_cases s h d with ⟨hc, e'⟩ | ⟨-, -, e'⟩ | ⟨-, -, ha, e'⟩ | ⟨⟨hc, -, ha⟩, e'⟩ <;> rw [e'] at e
  · cases e; simp [txnsOf, hc]
  · cases e
  · cases e; simp [txnsOf, ha]
  · obtain ⟨h1, h2, -⟩ := (s.ctxOk_iff h).mp hc
    rcases setIvProgram_cases s h h1 h2 ((s.slot h).withIv s.iv) with
      ⟨hp, e'⟩ | ⟨hp, -, e'⟩ | ⟨hp, -, e'⟩ | ⟨hp, -, e'⟩ <;> rw [e'] at e <;> cases e <;>
      rw [Slot.prim_withIv] at hp
    · simp [txnsOf, hp]
    · simp [txnsOf, hc, ha, hp]
    · simp [txnsOf, hc, ha, hp]
    · simp [txnsOf, hc, ha, hp]

end Commands

/-- Settles O32: the keystream loop keeps count of its requests, and every other command issues one transaction at
most. -/
theorem transactionsOfEachCommand : Obligations.TransactionsOfEachCommand := by
  unfold Obligations.TransactionsOfEachCommand
  refine fun i s t e => ⟨fun hi => ?_, fun h hi => ?_⟩
  · cases i with
    | allocate _ _ => simpa [txnsOf] using port_of_execAllocate e
    | deallocate h d => exact port_of_execDeallocate d e
    | contextInit h d => exact port_of_execContextInit d e
    | setIv h d => exact port_of_execSetIv d e
    | encrypt h d => exact absurd ⟨d, .inl rfl⟩ (hi h)
    | decrypt h d => exact absurd ⟨d, .inr rfl⟩ (hi h)
    | setAad _ _ => cases e; simp [txnsOf]
  · rw [exec_of_isCrypt hi] at e
    obtain ⟨p, hp, hport, hall⟩ := requestsMade_of_crypt e
    exact ⟨_, blocksNeeded_mono hp, hport, fun hb hok => by rw [hall hb hok]⟩

/-- Step 1 of CONTEXT_INIT when the primitive answers fail (R91, R111). -/
theorem State.createIfAbsent_fail (hp : (s.slot h).prim = false) (ha : s.answers.head? = some .fail) :
    s.createIfAbsent h = .fail { s with port := s.port ++ [.create h], answers := s.answers.tail } := by
  obtain ⟨rest, ha⟩ := List.head?_eq_some_iff.mp ha
  simp [State.createIfAbsent, hp, State.primCreate, State.issue, State.answer, State.answered, ha]

/-- Settles O37: the failed step 1 is the whole command. -/
theorem contextInitCreateFailure : Obligations.ContextInitCreateFailure := by
  unfold Obligations.ContextInitCreateFailure
  intro s h d hc hp ha
  simp [exec, execContextInit, hc, State.createIfAbsent_fail hp ha, State.complete]

end Sys2Proof.Machine
end

section
/-! PROOFS. ALLOCATE and DEALLOCATE (spec/41_lifecycle.md R100 to R103): the length check, the least FREE slot, the
wipe. -/

namespace Sys2Proof.Machine

variable {s : State} {h : Nat}

/-- Settles O33: all five commands answer a handle that fails `CheckCtx` alike. -/
theorem badHandleChangesNothing : Obligations.BadHandleChangesNothing := by
  unfold Obligations.BadHandleChangesNothing
  exact fun i h s hi hbad => exec_of_not_ctxOk hi ((s.ctxOk_eq_false h).mpr hbad)

/-- The write of a handle that is not null, as an update of the list of slots. -/
theorem State.setSlot_of_pos (h1 : 1 ≤ h) (c : Slot) : s.setSlot h c = { s with slots := s.slots.set (h - 1) c } := by
  obtain ⟨k, rfl⟩ := Nat.exists_eq_add_of_le' h1
  rfl

section LengthCheck

variable {klen : Word}

/-- The lengths of R100, as words. -/
theorem variantOf_eq_none_iff : variantOf klen = none ↔ ¬(klen = 30#32 ∨ klen = 38#32 ∨ klen = 46#32) := by
  simp only [variantOf, ← BitVec.toNat_inj, BitVec.toNat_ofNat]
  split_ifs <;> simp_all

theorem variantKeySize_of_variantOf {v : Variant} (e : variantOf klen = some v) :
    variantKeySize v = klen.toNat - 14 := by
  unfold variantOf at e
  split_ifs at e with h30 h38 h46 <;> cases e
  · rw [h30]; rfl
  · rw [h38]; rfl
  · rw [h46]; rfl

theorem exists_variantOf (hv : klen = 30#32 ∨ klen = 38#32 ∨ klen = 46#32) :
    ∃ v, variantOf klen = some v ∧ variantKeySize v = klen.toNat - 14 := by
  obtain ⟨v, e⟩ := Option.ne_none_iff_exists'.mp fun hn => variantOf_eq_none_iff.mp hn hv
  exact ⟨v, e, variantKeySize_of_variantOf e⟩

end LengthCheck

section LeastFree

theorem State.slot_succ {k : Nat} (hk : k < s.slots.length) : s.slot (k + 1) = s.slots[k] :=
  List.getD_eq_getElem _ _ hk

/-- The search fails on a pool without a FREE slot (R101). -/
theorem State.leastFree_eq_none (hfull : ∀ j, 1 ≤ j → j ≤ s.nctx → (s.slot j).phase ≠ .free) :
    s.leastFree = none := by
  refine Option.map_eq_none_iff.mpr (List.findIdx?_eq_none_iff.mpr fun c hc => decide_eq_false ?_)
  obtain ⟨k, hk, rfl⟩ := List.getElem_of_mem hc
  rw [← State.slot_succ hk]
  exact hfull (k + 1) (by omega) hk

/-- The search finds the FREE slot below which none is FREE (R101). -/
theorem State.leastFree_of_least (h1 : 1 ≤ h) (h2 : h ≤ s.nctx) (hfree : (s.slot h).phase = .free)
    (hleast : ∀ j, 1 ≤ j → j < h → (s.slot j).phase ≠ .free) : s.leastFree = some h := by
  obtain ⟨k, rfl⟩ := Nat.exists_eq_add_of_le' h1
  have hk : k < s.slots.length := h2
  refine Option.map_eq_some_iff.mpr ⟨k, List.findIdx?_eq_some_iff_getElem.mpr ⟨hk, ?_, fun j hj => ?_⟩, rfl⟩
  · exact decide_eq_true (State.slot_succ hk ▸ hfree)
  · rw [decide_eq_true_iff, ← State.slot_succ (hj.trans hk)]
    exact hleast (j + 1) (by omega) (by omega)

end LeastFree

/-- Settles O34: the length check, then the search, decide between the three ends of ALLOCATE. -/
theorem allocateFollowsItsRule : Obligations.AllocateFollowsItsRule := by
  unfold Obligations.AllocateFollowsItsRule
  intro s ctx d hn valid
  refine ⟨fun hbad => ?_, fun hv hfull => ?_, fun hv h h1 h2 hfree hleast => ?_⟩
  · have hnone : variantOf s.regs.klen = none := variantOf_eq_none_iff.mpr hbad
    simp [exec, execAllocate, hnone, State.setHandle, State.complete]
  · obtain ⟨v, e, -⟩ := exists_variantOf hv
    simp [exec, execAllocate, e, State.leastFree_eq_none hfull, State.setHandle, State.complete]
  · obtain ⟨v, e, hsize⟩ := exists_variantOf hv
    refine ⟨((s.setSlot h (Slot.allocated (variantKeySize v))).setHandle h).complete .ok, ?_, ?_, ?_⟩
    · simp [exec, execAllocate, e, State.leastFree_of_least h1 h2 hfree hleast]
    · exact Nat.mod_eq_of_lt (by omega)
    · rw [State.setSlot_of_pos h1, hsize]
      rfl

/-- Settles O35: the wipe is one write of the zero slot; only the primitive's side asks whether a handle is owned. -/
theorem deallocateWipesTheSlot : Obligations.DeallocateWipesTheSlot := by
  unfold Obligations.DeallocateWipesTheSlot
  intro s h d hprims
  refine ⟨badHandleChangesNothing _ h s ⟨d, .inl rfl⟩, fun h1 h2 hphase => ?_⟩
  have hc : s.ctxOk h = true := (s.ctxOk_iff h).mpr ⟨h1, h2, hphase⟩
  refine ⟨((s.disposeIfOwned h).setSlot h Slot.zero).complete .ok, by simp [exec, execDeallocate, hc], rfl, rfl, rfl,
    ?_⟩
  rw [State.setSlot_of_pos h1]
  cases hp : (s.slot h).prim with
  | true =>
    have hown : s.disposeIfOwned h = s.primDispose h := if_pos hp
    have hgone : (s.primDispose h).primOf h = .absent := State.primOf_setPrim_same _ h1 (hprims ▸ h2) _
    rw [hown]
    refine ⟨?_, ?_, ?_, fun _ => ⟨(State.primOf_congr rfl h).trans hgone, ?_⟩, nofun⟩ <;>
      simp [State.primDispose, Slot.zero]
  | false =>
    have hown : s.disposeIfOwned h = s := if_neg (by simp [hp])
    rw [hown]
    exact ⟨rfl, rfl, rfl, nofun, fun _ => ⟨rfl, rfl⟩⟩

end Sys2Proof.Machine
end

section
/-! PROOFS. CONTEXT_INIT once its primitive handle is at hand (spec/42_context_init.md R110 to R112): the bytes of the
salt block and of the key buffer, the load of both, and step 4 on a key size that is none of the three. -/

namespace Sys2Proof.Machine

variable {s : State} {h : Nat}

section Layout

variable {j : Nat}

/-- Byte `j` of a value whose byte sequence is known (R7). -/
theorem byteAt_of_bytesOf_eq {w : Nat} {v : BitVec w} {l : List Byte} (e : bytesOf v = l) (hj : j < l.length) :
    byteAt v j = l[j] := by
  subst e
  exact (bytesOf_getElem v j hj).symm

/-- Bytes 0 to 13 of `offset` and `counter` are the salt in memory (R110, R111). -/
theorem byteAt_saltBlock_bytes (s : State) (a : Addr) (hj : j < 14) :
    byteAt (saltBlock (s.bytes a 14)) j = s.byte (byteAddr a j) := by
  rw [byteAt_of_bytesOf_eq (bytesOf_saltBlock _ (by simp)) (by simp; omega),
    List.getElem_append_left (by simpa using hj)]
  simp [State.bytes]

/-- The block-counter field starts at zero, whatever the salt (R111). -/
theorem byteAt_saltBlock_field {salt : List Byte} (hl : salt.length = 14) (h14 : 14 ≤ j) (hj : j < 16) :
    byteAt (saltBlock salt) j = 0#8 := by
  rw [byteAt_of_bytesOf_eq (bytesOf_saltBlock salt hl) (by simp; omega), List.getElem_append_right (by omega)]
  obtain rfl | rfl : j = 14 ∨ j = 15 := by omega
  · simp [hl]
  · simp [hl]

/-- The key bytes step 5 stores are those in memory (R110, R111). -/
theorem byteAt_storeKey_bytes (s : State) (old : KeyBuf) (a : Addr) {n : Nat} (hn : n ≤ 32) (hj : j < n) :
    byteAt (storeKey old (s.bytes a n)) j = s.byte (byteAddr a j) := by
  rw [byteAt_of_bytesOf_eq (bytesOf_storeKey old _ (by simpa using hn)) (by simp; omega),
    List.getElem_append_left (by simpa using hj)]
  simp [State.bytes]

/-- Step 5 keeps the bytes of the key buffer past the key (R111). -/
theorem byteAt_storeKey_rest (old : KeyBuf) {kb : List Byte} (hge : kb.length ≤ j) (hj : j < 32) :
    byteAt (storeKey old kb) j = byteAt old j := by
  rw [byteAt_of_bytesOf_eq (bytesOf_storeKey old kb (by omega)) (by simp; omega), List.getElem_append_right hge,
    List.getElem_drop, bytesOf_getElem, Nat.add_sub_cancel' hge]

end Layout

/-- The slot CONTEXT_INIT leaves when it completes with Ok (R111 steps 2 to 5). -/
def Slot.loaded (c : Slot) (salt key : List Byte) : Slot :=
  { c with
    prim := true, counter := saltBlock salt, offset := saltBlock salt, key := storeKey c.key key, ksbuf := 0#128
    kavail := 0#4, phase := .inited }

/-- CONTEXT_INIT with everything it needs at hand (R111). -/
theorem execContextInit_of_admitted (hadm : s.keySaltAdmitted h)
    (hk : (s.slot h).keySize = 16 ∨ (s.slot h).keySize = 24 ∨ (s.slot h).keySize = 32)
    (hok : (s.slot h).prim = true ∨ s.answers.head? = some .ok) :
    execContextInit h s = .next (((s.withHandle h).setSlot h
      ((s.slot h).loaded (s.bytes (byteAddr s.regs.kptr (s.slot h).keySize) 14)
        (s.bytes s.regs.kptr (s.slot h).keySize))).complete .ok) := by
  obtain ⟨hc, hit, hkey, hsalt⟩ := hadm
  obtain ⟨h1, h2, -⟩ := (s.ctxOk_iff h).mp hc
  have hadmits (a : Addr) (n : Nat) : (s.withHandle h).admits .read a n = s.admits .read a n :=
    State.admits_congr (by simp) _ a n
  have hbytes := State.bytes_congr (s := s) (t := s.withHandle h) (by simp)
  have hcases := contextInitLoad_cases (s.withHandle h) h h1 (by simpa using h2) (by simpa using hk)
  simp only [hadmits, hbytes, State.slot_withHandle, State.regs_withHandle] at hcases
  rw [execContextInit_of_handle hc hok, if_neg (by simp [hit])]
  rcases hcases with ⟨e, -⟩ | ⟨-, e, -⟩ | ⟨-, -, e⟩
  · rw [hsalt] at e; cases e
  · rw [hkey] at e; cases e
  · exact e

/-- On a slot that owns no handle, step 1 is the primitive's own update (R91). -/
theorem State.prims_withHandle_of_not_owned (h1 : 1 ≤ h) (hp : (s.slot h).prim = false) :
    (s.withHandle h).prims = (s.setPrim h .created).prims := by
  obtain ⟨k, rfl⟩ := Nat.exists_eq_add_of_le' h1
  simp [State.withHandle, hp, State.setPrim]

/-- Settles O36: the load of R111 in one write of the slot, then the two layouts byte by byte. -/
theorem contextInitLoadsKeyAndSalt : Obligations.ContextInitLoadsKeyAndSalt := by
  unfold Obligations.ContextInitLoadsKeyAndSalt
  intro s h d hadm hk hok
  obtain ⟨h1, h2, -⟩ := (s.ctxOk_iff h).mp hadm.1
  have hn : (s.slot h).keySize ≤ 32 := by omega
  refine ⟨_, execContextInit_of_admitted hadm hk hok, rfl, rfl, rfl, ?_⟩
  simp only [State.slot_complete, State.slot_setSlot_same (s.withHandle h) h1 (by simpa using h2)]
  refine ⟨rfl, rfl, rfl, rfl, rfl, rfl, fun j hj => ?_, ?_, ?_, fun j hj => ?_, fun j hge hj => ?_, fun hp => ?_,
    fun hp => ?_⟩
  · exact byteAddr_byteAddr s.regs.kptr _ j ▸ byteAt_saltBlock_bytes s _ hj
  · exact byteAt_saltBlock_field (by simp) (by omega) (by omega)
  · exact byteAt_saltBlock_field (by simp) (by omega) (by omega)
  · exact byteAt_storeKey_bytes s _ _ hn hj
  · exact byteAt_storeKey_rest _ (by simpa using hge) hj
  · simp [State.withHandle, hp]
  · have hprim (j : Nat) := State.primOf_congr (State.prims_withHandle_of_not_owned h1 hp) j
    refine ⟨by simp [State.withHandle, hp], by simp [State.withHandle, hp], fun hl => ?_, fun j hj => ?_⟩
    · rw [State.primOf_complete, State.primOf_setSlot, hprim, State.primOf_setPrim_same s h1 (hl ▸ h2)]
    · rw [State.primOf_complete, State.primOf_setSlot, hprim, State.primOf_setPrim_ne s hj]

/-- Step 4 on a key size that is none of the three: BadParam and nothing else (R112). -/
theorem contextInitKey_of_corrupt (h16 : (s.slot h).keySize ≠ 16) (h24 : (s.slot h).keySize ≠ 24)
    (h32 : (s.slot h).keySize ≠ 32) : contextInitKey h s = .next (s.complete .badParam) :=
  if_pos ⟨h16, h24, h32⟩

/-- Steps 2 and 3 with an admitted salt: `offset` and `counter` are written, then the key is looked at (R111). -/
theorem contextInitLoad_of_salt_admitted
    (ha : s.admits .read (byteAddr s.regs.kptr (s.slot h).keySize) 14 = true) :
    let salt := saltBlock (s.bytes (byteAddr s.regs.kptr (s.slot h).keySize) 14)
    contextInitLoad h s =
      contextInitKey h (s.setSlot h { s.slot h with prim := true, counter := salt, offset := salt }) := by
  have hr (c : Slot) : (s.setSlot h c).memRead (byteAddr s.regs.kptr (s.slot h).keySize) 14 =
      some (s.bytes (byteAddr s.regs.kptr (s.slot h).keySize) 14) := by
    rw [State.memRead_setSlot, State.memRead, if_pos ha]
  simp [contextInitLoad, Config.saltLen, hr, State.setSlot_setSlot_same]

/-- Settles O38: step 4 stops the command on the slot that steps 2 and 3 have written. -/
theorem contextInitOnACorruptSlot : Obligations.ContextInitOnACorruptSlot := by
  unfold Obligations.ContextInitOnACorruptSlot
  intro s h d hc h16 h24 h32 hp hit hsalt salt
  obtain ⟨h1, h2, -⟩ := (s.ctxOk_iff h).mp hc
  have hown : s.withHandle h = s := if_pos hp
  calc exec (.contextInit h d) s
      = contextInitLoad h (s.withHandle h) := (execContextInit_of_handle hc (.inl hp)).trans (if_neg (by simp [hit]))
    _ = contextInitKey h (s.setSlot h { s.slot h with prim := true, counter := salt, offset := salt }) := by
      rw [hown, contextInitLoad_of_salt_admitted hsalt]
    _ = .next ((s.setSlot h { s.slot h with prim := true, counter := salt, offset := salt }).complete .badParam) := by
      apply contextInitKey_of_corrupt <;> rwa [s.slot_setSlot_same h1 h2]

end Sys2Proof.Machine
end

section
/-! PROOFS. SET_IV (spec/43_set_iv.md R120 to R122): the IV as bytes, step 3 for each answer of the primitive, and the
counter at every completion. -/

namespace Sys2Proof.Machine

variable {s t : State} {h : Nat} {c : Slot} {d : Dir}

section Iv

/-- Byte `j` of the IV is the one in memory at IVPTR plus `j` (R120). -/
theorem byteAt_iv (s : State) {j : Nat} (hj : j < 16) : byteAt s.iv j = s.byte (byteAddr s.regs.ivptr j) := by
  rw [State.iv, byteAt_ofBytes _ (by simp) j (by simpa using hj)]
  simp [State.bytes]

/-- Sixteen zero bytes in memory are the zero IV (R120). -/
theorem iv_eq_zero (hz : ∀ j < 16, s.byte (byteAddr s.regs.ivptr j) = 0#8) : s.iv = 0#128 :=
  eq_of_byteAt_eq _ _ rfl fun j hj => by rw [byteAt_iv s hj, hz j hj]; simp [byteAt]

end Iv

section Programming

/-- The state in which the programming of step 3 is issued on the slot `c`, and answered (R92, R121). -/
abbrev State.programAnswered (s : State) (h : Nat) (c : Slot) : State :=
  ((s.setSlot h c).issue (.program h c.keyBytes c.keySize c.counter .enc)).answered

theorem confined_programAnswered : Confined h s (s.programAnswered h c) := Confined.refl.setSlot.issue.answered

/-- Step 3 reads the slot that steps 1 and 2 wrote, and asks nothing of a primitive that has no handle (R121). -/
theorem setIvProgram_of_no_handle (h1 : 1 ≤ h) (h2 : h ≤ s.nctx) (hp : c.prim = false) :
    setIvProgram h (s.setSlot h c) = .next ((s.setSlot h c).complete .fail) := by
  simp [setIvProgram, s.slot_setSlot_same h1 h2, hp]

/-- A transaction issued after a write of a slot takes the next answer listed (R96). -/
theorem answer_issue_setSlot (x : PrimTxn) {a : PrimAnswer} (ha : s.answers.head? = some a) :
    ((s.setSlot h c).issue x).answer = a := by
  obtain ⟨rest, ha⟩ := List.head?_eq_some_iff.mp ha
  exact State.answer_cons (by simpa using ha)

theorem setIvProgram_of_ok (h1 : 1 ≤ h) (h2 : h ≤ s.nctx) (hp : c.prim = true) (ha : s.answers.head? = some .ok) :
    setIvProgram h (s.setSlot h c) = .next
      ((((s.programAnswered h c).setPrim h (.programmed c.keyBytes)).setSlot h { c with phase := .ready }).complete
        .ok) := by
  simp [setIvProgram, s.slot_setSlot_same h1 h2, hp, State.primProgram, answer_issue_setSlot _ ha]

theorem setIvProgram_of_fail (h1 : 1 ≤ h) (h2 : h ≤ s.nctx) (hp : c.prim = true)
    (ha : s.answers.head? = some .fail) :
    setIvProgram h (s.setSlot h c) =
      .next (((s.programAnswered h c).setSlot h { c with phase := .inited }).complete .fail) := by
  simp [setIvProgram, s.slot_setSlot_same h1 h2, hp, State.primProgram, answer_issue_setSlot _ ha]

end Programming

/-- With its IV at hand, SET_IV is step 3 on the slot that has taken it (R121). -/
theorem exec_setIv_of_admitted (hadm : s.ivAdmitted h) :
    exec (.setIv h d) s = setIvProgram h (s.setSlot h ((s.slot h).withIv s.iv)) := by
  obtain ⟨hc, hit, ha⟩ := hadm
  simp [exec, execSetIv, hc, hit, State.memRead, Config.blockBytes, ha, State.iv]

/-- SET_IV past `CheckCtx` completes with Ok or Fail, and then its slot has taken the IV (R121). -/
theorem setIv_completes (hc : s.ctxOk h = true) (e : exec (.setIv h d) s = .next t) (hb : t.busy = false) :
    (t.code = .ok ∨ t.code = .fail) ∧ ∃ p, t.slot h = { (s.slot h).withIv s.iv with phase := p } := by
  change execSetIv h d s = .next t at e
  obtain ⟨h1, h2, -⟩ := (s.ctxOk_iff h).mp hc
  rcases execSetIv_cases s h d with ⟨hc', -⟩ | ⟨-, -, e'⟩ | ⟨-, -, -, e'⟩ | ⟨-, e'⟩
  · cases hc.symm.trans hc'
  · cases e.symm.trans e'
  · cases e.symm.trans e'; cases hb
  · rw [e'] at e
    rcases setIvProgram_cases s h h1 h2 ((s.slot h).withIv s.iv) with ⟨-, e'⟩ | ⟨-, -, e'⟩ | ⟨-, -, e'⟩ | ⟨-, -, e'⟩ <;>
      cases e.symm.trans e'
    · exact ⟨.inr rfl, _, s.slot_setSlot_same h1 h2 _⟩
    · exact ⟨.inl rfl, _, State.slot_setSlot_same _ h1 (confined_programAnswered.setPrim.le_nctx h2) _⟩
    · exact ⟨.inr rfl, _, State.slot_setSlot_same _ h1 (confined_programAnswered.le_nctx h2) _⟩
    · cases hb

/-- Settles O41: every completion leaves the slot that steps 1 and 2 wrote, and XOR with the IV undoes itself. -/
theorem counterIsOffsetXorIv : Obligations.CounterIsOffsetXorIv := by
  unfold Obligations.CounterIsOffsetXorIv
  intro s t h d hc e hb
  obtain ⟨hcode, p, hslot⟩ := setIv_completes hc e hb
  have hcounter : (t.slot h).counter = (s.slot h).offset ^^^ s.iv := by rw [hslot]; rfl
  refine ⟨hcode, by rw [hslot]; rfl, fun b _ => ?_, ?_, fun hz => ?_⟩
  · rw [hcounter, BitVec.getLsbD_xor]
  · rw [hcounter, BitVec.xor_assoc, BitVec.xor_self, BitVec.xor_zero]
  · rw [hcounter, iv_eq_zero hz, BitVec.xor_zero]

/-- Settles O39: the answer ok programs the handle, and XOR works byte by byte. -/
theorem setIvDerivesTheCounter : Obligations.SetIvDerivesTheCounter := by
  unfold Obligations.SetIvDerivesTheCounter
  intro s h d hadm hp ha hl
  obtain ⟨h1, h2, -⟩ := (s.ctxOk_iff h).mp hadm.1
  refine ⟨_, (exec_setIv_of_admitted hadm).trans (setIvProgram_of_ok h1 h2 hp ha), rfl, rfl, rfl, ?_⟩
  rw [State.slot_complete, State.slot_setSlot_same _ h1 (confined_programAnswered.setPrim.le_nctx h2),
    State.primOf_complete, State.primOf_setSlot,
    State.primOf_setPrim_same _ h1 (confined_programAnswered.primCount.trans hl ▸ h2)]
  refine ⟨rfl, fun j hj => ?_, rfl, by simp⟩
  rw [← byteAt_iv s hj, ← byteAt_xor]
  rfl

/-- Settles O40: both failures come after the slot has taken the IV. -/
theorem setIvFailures : Obligations.SetIvFailures := by
  unfold Obligations.SetIvFailures
  intro s h d hadm c
  obtain ⟨h1, h2, -⟩ := (s.ctxOk_iff h).mp hadm.1
  refine ⟨fun hp => (exec_setIv_of_admitted hadm).trans (setIvProgram_of_no_handle h1 h2 hp), fun hp ha =>
    ⟨_, (exec_setIv_of_admitted hadm).trans (setIvProgram_of_fail h1 h2 hp ha), rfl, rfl, rfl, ?_, ?_⟩⟩
  · exact State.slot_setSlot_same _ h1 (confined_programAnswered.le_nctx h2) _
  · simp [c, Slot.withIv]

end Sys2Proof.Machine
end

section
/-! PROOFS. The counter increment as arithmetic on the block-counter field (spec/44_keystream.md R130), the period of
the keystream (R131), and what ENCRYPT and DECRYPT do before any access (R135, R136). -/

namespace Sys2Proof.Machine

/-- The big-endian number in bytes 14 and 15 is the block-counter field (R130). -/
theorem counterField_eq (c : Block) :
    (byteAt c 14).toNat * 256 + (byteAt c 15).toNat = (c.extractLsb' 0 16).toNat := by
  simp only [byteAt, BitVec.extractLsb'_toNat, Nat.shiftRight_eq_div_pow]
  omega

/-- `m` increments add `m` modulo 65536 to the number in bytes 14 and 15 (R130). -/
theorem counterField_inc16Iter (m : Nat) (c : Block) :
    (byteAt (inc16Iter m c) 14).toNat * 256 + (byteAt (inc16Iter m c) 15).toNat =
      ((byteAt c 14).toNat * 256 + (byteAt c 15).toNat + m) % 65536 := by
  simp [counterField_eq, inc16Iter_low]

/-- The block-counter field comes back after 65536 increments (R130). -/
theorem inc16Iter_period (c : Block) : inc16Iter 65536 c = c := by
  refine block_ext _ _ (inc16Iter_high 65536 c) ?_
  rw [inc16Iter_low, show BitVec.ofNat 16 65536 = 0#16 from rfl, BitVec.add_zero]

/-- Settles O43: one increment is the case `m = 1` of the `m` increments. -/
theorem counterIncrementWraps : Obligations.CounterIncrementWraps := by
  unfold Obligations.CounterIncrementWraps
  exact fun c m =>
    ⟨counterField_inc16Iter 1 c, fun _ hj => byteAt_of_high (inc16_high c) hj,
      counterField_inc16Iter m c, fun _ hj => byteAt_of_high (inc16Iter_high m c) hj, inc16Iter_period c⟩

/-- Settles O44: the counter of block `j + 65536` is that of block `j` after one whole period. -/
theorem keystreamHasPeriod65536 : Obligations.KeystreamHasPeriod65536 := by
  unfold Obligations.KeystreamHasPeriod65536
  refine fun e k c j => ⟨rfl, ?_⟩
  rw [keystreamBlock, inc16Iter_add, inc16Iter_period, keystreamBlock]

/-- Settles O45: the length is looked at before the phase. -/
theorem cryptErrorsBeforeAccess : Obligations.CryptErrorsBeforeAccess := by
  unfold Obligations.CryptErrorsBeforeAccess
  intro i h s hi hc
  rw [exec_of_isCrypt hi, crypt, if_pos hc]
  exact ⟨fun hlt => if_pos hlt, fun hle hf => (if_neg hle.not_gt).trans (if_pos hf)⟩

/-- Settles O47: both commands are the one function `crypt`. -/
theorem decryptIsEncrypt : Obligations.DecryptIsEncrypt := by
  unfold Obligations.DecryptIsEncrypt
  exact fun h d d' s => (exec_of_isCrypt ⟨d, .inr rfl⟩).trans (exec_of_isCrypt ⟨d', .inl rfl⟩).symm

end Sys2Proof.Machine
end

section
/-! PROOFS. ENCRYPT and DECRYPT run to their end (spec/44_keystream.md R138) and cut short at a block request that the
primitive fails (R137). -/

namespace Sys2Proof.Machine

/-- A READY context has its handle programmed with its key (R38, R95). -/
theorem State.Inv.primOf_of_ready {s : State} {h : Nat} (hinv : s.Inv) (hh : s.hung = false)
    (hf : (s.slot h).phase = .ready) : s.primOf h = .programmed (s.slot h).keyBytes :=
  ((hinv.slotOk_all hh h).ready hf).2

/-- Past its checks, with its buffers outside the register file, ENCRYPT and DECRYPT are the transform of a context whose
handle is programmed with its key (R135, R95). -/
theorem exec_of_cryptAdmitted {i : Instr} {h : Nat} {s : State} (hi : IsCrypt i h) (hinv : s.Inv) (hh : s.hung = false)
    (hadm : s.cryptAdmitted h) :
    1 ≤ h ∧ h ≤ s.nctx ∧ s.primOf h = .programmed (s.slot h).keyBytes ∧ exec i s = transform h s := by
  obtain ⟨hruns, hsrc, hdst, -, -⟩ := hadm
  obtain ⟨hc, -, hf⟩ := (s.cryptRuns_iff h).mp hruns
  obtain ⟨h1, h2, -⟩ := (s.ctxOk_iff h).mp hc
  exact ⟨h1, h2, hinv.primOf_of_ready hh hf, (exec_of_isCrypt hi).trans (crypt_of_runs hruns hsrc hdst)⟩

/-- The first bytes of two buffers that are identical or disjoint are identical or disjoint (R57). -/
theorem partialOverlap_prefix {src dst : Addr} {n m : Nat} (hn : n ≤ 2 ^ 32) (hov : partialOverlap src dst n = false)
    (hm : m ≤ n) : partialOverlap src dst m = false := by
  simpa using partialOverlap_part (k := 0) (n := m) hn hov (by omega)

/-- Settles O46: the loop is done, and the completion writes DLEN, the code and, on a partial overlap, the destination
bytes. -/
theorem cryptClosedForm : Obligations.CryptClosedForm := by
  unfold Obligations.CryptClosedForm
  intro i h s hi hinv hh hadm n c m ho
  obtain ⟨h1, h2, hkey, he⟩ := exec_of_cryptAdmitted hi hinv hh hadm
  obtain ⟨-, -, -, hr, hw⟩ := hadm
  obtain ⟨w, hdone, at_⟩ := xorLoop_done h1 h2 hinv.mem_wf s.regs.slen.isLt.le hkey hr hw ho
  obtain ⟨t, ht, k, hend⟩ := transform_cases h1 h2 hinv.mem_wf hkey
  refine ⟨t, he.trans ht, ?_⟩
  rcases hend with ⟨hb, hu, hcode, hdlen, w', hw', -, hslot, hport, -, hmem⟩ | ⟨-, -, -, w', hw', -⟩ |
      ⟨-, -, -, w', hw', -⟩ <;> cases hdone.symm.trans hw'
  refine ⟨hcode, hb, hu, hdlen ▸ k.regs, hslot.trans at_.slot, hport.trans at_.port, k.byte, fun hov j hj => ?_⟩
  exact (State.byte_congr (hmem hov) _).trans (at_.written hov j hj)

section Request

variable {h n q : Nat} {src dst : Addr} {s : State} {x : PrimAnswer} {rest : List PrimAnswer}

/-- While block request number `q + 1` is still to come, the residue and `q` blocks give less than `n` bytes, and those
bytes need exactly `q` blocks (R133, R138). -/
theorem blocksNeeded_residue_add {a : Nat} (hq : q < blocksNeeded n a) :
    min n a = a ∧ a + 16 * q < n ∧ blocksNeeded (a + 16 * q) a = q := by
  simp only [blocksNeeded] at *
  omega

/-- The loop reaches its block request number `q + 1` with `q` blocks used up, and the primitive gives that request
the answer after `q` times ok (R96, R133). -/
theorem xorLoop_reaches_request (h1 : 1 ≤ h) (h2 : h ≤ s.nctx) (hm : Memory.wf s.mem = true) (hn : n ≤ 2 ^ 32)
    (hkey : s.primOf h = .programmed (s.slot h).keyBytes) (hr : s.admitsBytes .read src n = true)
    (hw : s.admitsBytes .write dst n = true) (hq : q < blocksNeeded n (s.slot h).kavail.toNat)
    (ha : s.answers = List.replicate q .ok ++ x :: rest) :
    let p := (s.slot h).kavail.toNat + 16 * q
    ∃ t m, LoopAt h src dst p s p t ∧ xorLoop h src dst n 0 s = xorLoop h src dst (m + 1) p t ∧
      t.answers = x :: rest ∧ (t.slot h).kavail = 0#4 ∧ t.primOf h = .programmed (s.slot h).keyBytes := by
  intro p
  obtain ⟨-, hpn, hblocks⟩ := blocksNeeded_residue_add hq
  obtain ⟨m, rfl⟩ : ∃ m, n = p + (m + 1) := ⟨n - (p + 1), by omega⟩
  have hpart {k : Access} {b : Addr} (hb : s.admitsBytes k b (p + (m + 1)) = true) : s.admitsBytes k b p = true := by
    simp only [State.admitsBytes, List.all_eq_true, List.mem_range] at hb ⊢
    exact fun i hi => hb i (by omega)
  obtain ⟨t, hdone, at_⟩ := xorLoop_done h1 h2 hm (by omega) hkey (hpart hr) (hpart hw)
    (by rw [hblocks]; simp [State.primOks, ha])
  refine ⟨t, m, at_, by rw [xorLoop_add, hdone, Nat.zero_add], ?_, ?_, ?_⟩
  · simp [at_.answers.2, p, hblocks, ha]
  · rw [at_.slot, Slot.afterKeystream_kavail]
    omega
  · rw [State.primOf_congr at_.keeps.prims, hkey]

/-- The loop ends at a block request that is answered fail (R133, R135). -/
theorem xorLoop_of_block_fail {t : State} {key : List Byte} {m i : Nat} (hz : (t.slot h).kavail = 0#4)
    (hp : t.primOf h = .programmed key) (ha : t.answers = .fail :: rest) :
    xorLoop h src dst (m + 1) i t = .failed (t.issue (.block h (t.slot h).counter)).answered := by
  have hans : (t.issue (.block h (t.slot h).counter)).answer = .fail := State.answer_cons (rest := rest) ha
  simp [xorLoop, nextKs, hz, State.primBlock, hp, hans]

end Request

/-- Settles O50: the loop has used `q` blocks when the failed request ends it. -/
theorem midStreamCipherFail : Obligations.MidStreamCipherFail := by
  unfold Obligations.MidStreamCipherFail
  intro i h q s rest hi hinv hh hadm n c p hov hq hans
  obtain ⟨h1, h2, hkey, he⟩ := exec_of_cryptAdmitted hi hinv hh hadm
  obtain ⟨-, -, -, hr, hw⟩ := hadm
  have hn : n ≤ 2 ^ 32 := s.regs.slen.isLt.le
  obtain ⟨hmin, hpn, hblocks⟩ := blocksNeeded_residue_add hq
  have hp : p = c.kavail.toNat + 16 * q := by simp only [p, hmin]
  obtain ⟨u, m, at_, hloop, hua, huz, hup⟩ := xorLoop_reaches_request h1 h2 hinv.mem_wf hn hkey hr hw hq hans
  rw [← hp] at at_ hloop hblocks hpn
  rw [xorLoop_of_block_fail huz hup hua] at hloop
  obtain ⟨t, ht, k, hend⟩ := transform_cases h1 h2 hinv.mem_wf hkey
  refine ⟨t, he.trans ht, ?_⟩
  rcases hend with ⟨-, -, -, -, w, hw', -⟩ | ⟨hb, hu, hcode, w, hw', hslot, hport, hmem⟩ | ⟨-, -, -, w, hw', -⟩ <;>
    cases hloop.symm.trans hw'
  have hcounter : (u.slot h).counter = inc16Iter q c.counter := by
    rw [at_.slot, Slot.afterKeystream_counter, hblocks]
  have hbyte (a : Addr) : t.byte a = u.byte a := State.byte_congr ((hmem hov).trans (by simp)) a
  have hovp := partialOverlap_prefix hn hov hpn.le
  refine ⟨hcode, hb, hu, k.regs, ?_, ?_, fun j hj => (hbyte _).trans (at_.written hovp j hj), fun a ha => ?_⟩
  · obtain ⟨_, _, _, hslotu⟩ := at_.keeps.slot
    rw [hslot, State.slot_answered, State.slot_issue, ← hcounter, hslotu]
  · rw [hport, State.port_answered, State.port_issue, at_.port, hblocks, hcounter, Slot.blockTxns_succ,
      List.append_assoc]
  · exact (hbyte a).trans (at_.keeps.byte a fun j _ hj => ne_byteAddr_of_not_covers (by omega) ha j (by omega))

end Sys2Proof.Machine
end

section
/-! PROOFS. Successful commands in a row (spec/44_keystream.md R138 to R140): one relation for a successful ENCRYPT or
DECRYPT, which composes over consecutive parts of the buffers and which a SET_IV with the same IV starts over. -/

namespace Sys2Proof.Machine

/-- The handle of context `h`, if that is READY, is programmed with its key: what R38 says of a READY slot (R95). -/
def State.KeyReady (h : Nat) (s : State) : Prop :=
  (s.slot h).phase = .ready → s.primOf h = .programmed (s.slot h).keyBytes

/-- The next state of a successful ENCRYPT or DECRYPT on `n` bytes, source and destination identical or disjoint: what
R138 says of slot and memory, and what a next command needs. -/
structure Transformed (h n : Nat) (src dst : Addr) (s t : State) : Prop where
  slot    : t.slot h = (s.slot h).afterKeystream s.plat.cipher n
  written : ∀ j < n, t.byte (byteAddr dst j) = s.byte (byteAddr src j) ^^^ (s.slot h).keystreamByte s.plat.cipher j
  byte    : ∀ a, Range.covers ⟨dst, n⟩ a = false → t.byte a = s.byte a
  wf      : Memory.wf t.mem = true
  plat    : t.plat = s.plat
  prims   : t.prims = s.prims
  nctx    : t.nctx = s.nctx
  ivptr   : t.regs.ivptr = s.regs.ivptr

section Parts

variable {h n m : Nat} {src dst : Addr} {s t u : State}

/-- A successful ENCRYPT or DECRYPT, its buffer registers loaded first (R78, R138). -/
theorem transformed_of_success {i : Instr} (hi : IsCrypt i h) (hn : n < 2 ^ 32)
    (hov : partialOverlap src dst n = false) (hm : Memory.wf s.mem = true) (hkey : s.KeyReady h)
    (he : exec i (s.withBuffers src n dst n) = .next t) (hb : t.busy = false) (hc : t.code = .ok) :
    Transformed h n src dst s t := by
  have hlen : (BitVec.ofNat 32 n).toNat = n := by simpa using hn
  obtain ⟨-, -, -, k, hslot, hwritten⟩ := crypt_success (s := s.withBuffers src n dst n) hi hm hkey he hb hc
  have hbyte := k.byte
  simp only [State.withBuffers, State.dstRange, hlen] at hslot hwritten hbyte
  exact ⟨hslot, hwritten hov, hbyte, k.wf, k.plat, k.prims, k.nctx, by rw [k.regs]; rfl⟩

theorem Transformed.keyReady (k : Transformed h n src dst s t) (hkey : s.KeyReady h) : t.KeyReady h := by
  obtain ⟨hphase, -⟩ := Slot.afterKeystream_fields s.plat.cipher (s.slot h) n
  intro hf
  rw [k.slot, hphase] at hf
  rw [k.slot, Slot.keyBytes_afterKeystream, State.primOf_congr k.prims, hkey hf]

/-- Where a transform starts determines the slot and the memory it leaves (R138). -/
theorem Transformed.unique (a : Transformed h n src dst s t) (b : Transformed h n src dst s u) (hn : n ≤ 2 ^ 32) :
    u.slot h = t.slot h ∧ ∀ x, u.byte x = t.byte x := by
  refine ⟨b.slot.trans a.slot.symm, fun x => ?_⟩
  cases hx : Range.covers ⟨dst, n⟩ x with
  | true =>
    obtain ⟨j, hj, rfl⟩ := (Range.covers_iff dst n hn x).mp hx
    exact (b.written j hj).trans (a.written j hj).symm
  | false => exact (b.byte x hx).trans (a.byte x hx).symm

/-- An address that is none of a range's bytes lies outside it (R57). -/
theorem not_covers_of_ne {base x : Addr} (hn : n ≤ 2 ^ 32) (hx : ∀ j < n, x ≠ byteAddr base j) :
    Range.covers ⟨base, n⟩ x = false := by
  rw [← Bool.not_eq_true, Range.covers_iff base n hn]
  rintro ⟨j, hj, e⟩
  exact hx j hj e

/-- Transforms of two consecutive parts are a transform of the whole: the first leaves the source of the second alone,
the second the destination of the first (R132, R139). -/
theorem Transformed.trans (a : Transformed h n src dst s t)
    (b : Transformed h m (byteAddr src n) (byteAddr dst n) t u) (hlen : n + m ≤ 2 ^ 32)
    (hov : partialOverlap src dst (n + m) = false) : Transformed h (n + m) src dst s u where
  slot := by
    rw [b.slot, a.plat, a.slot, (Slot.afterKeystream_add s.plat.cipher (s.slot h) n m).1]
  written j hj := by
    by_cases hjn : j < n
    · rw [b.byte, a.written j hjn]
      refine not_covers_of_ne (by omega) fun i hi e => ?_
      rw [byteAddr_byteAddr] at e
      have := byteAddr_inj (by omega) (by omega) e
      omega
    · obtain ⟨i, rfl⟩ := Nat.exists_eq_add_of_le (Nat.le_of_not_lt hjn)
      have hsrc : t.byte (byteAddr src (n + i)) = s.byte (byteAddr src (n + i)) :=
        a.byte _ <| not_covers_of_ne (by omega) fun k hk =>
          byteAddr_ne_of_disjoint hlen hov (by omega) hj (by omega)
      have hwritten := b.written i (by omega)
      rwa [byteAddr_byteAddr, byteAddr_byteAddr, hsrc, a.plat, a.slot,
        (Slot.afterKeystream_add s.plat.cipher (s.slot h) n m).2] at hwritten
  byte x hx := by
    have hne := ne_byteAddr_of_not_covers hlen hx
    rw [b.byte, a.byte]
    · exact not_covers_of_ne (by omega) fun j hj => hne j (by omega)
    · exact not_covers_of_ne (by omega) fun j hj => byteAddr_byteAddr dst n j ▸ hne (n + j) (by omega)
  wf := b.wf
  plat := b.plat.trans a.plat
  prims := b.prims.trans a.prims
  nctx := b.nctx.trans a.nctx
  ivptr := b.ivptr.trans a.ivptr

end Parts

section Iv

variable {h : Nat} {s t : State}

/-- SET_IV forgets how far the keystream has been used (R121). -/
theorem Slot.withIv_afterKeystream (e : Cipher) (c : Slot) (n : Nat) (iv : Block) :
    (c.afterKeystream e n).withIv iv = c.withIv iv := by
  unfold Slot.afterKeystream
  split_ifs <;> rfl

/-- The IV reads the same when its bytes and IVPTR do (R120). -/
theorem State.iv_congr (hp : t.regs.ivptr = s.regs.ivptr)
    (hb : ∀ j < 16, t.byte (byteAddr s.regs.ivptr j) = s.byte (byteAddr s.regs.ivptr j)) : t.iv = s.iv :=
  eq_of_byteAt_eq _ _ rfl fun j hj => by rw [byteAt_iv t hj, byteAt_iv s hj, hp, hb j hj]

/-- A transform leaves the IV alone that lies outside its destination (R56, R57). -/
theorem Transformed.iv {n : Nat} {src dst : Addr} (k : Transformed h n src dst s t) (hn : n ≤ 2 ^ 32)
    (hout : s.ivRange.overlaps ⟨dst, n⟩ = false) : t.iv = s.iv := by
  refine State.iv_congr k.ivptr fun j hj => k.byte _ <| Bool.eq_false_iff.mpr fun hc => ?_
  have hov := (Range.overlaps_iff s.ivRange ⟨dst, n⟩ (by simp [State.ivRange, Config.blockBytes]) hn).mpr
    ⟨_, (Range.covers_iff s.regs.ivptr 16 (by omega) _).mpr ⟨j, hj, rfl⟩, hc⟩
  cases hov.symm.trans hout

end Iv

/-- Settles O48: two parts compose to a transform of the whole, and there is only one. -/
theorem streamingLaw : Obligations.StreamingLaw := by
  unfold Obligations.StreamingLaw
  intro i j k h n1 n2 src dst s t t1 t2 hi hj hk hinv hh hlen hov he hb hc he1 hb1 hc1 he2 hb2 hc2
  have hkey : s.KeyReady h := hinv.primOf_of_ready hh
  have hov1 := partialOverlap_prefix hlen.le hov (Nat.le_add_right n1 n2)
  have hov2 := partialOverlap_part (k := n1) (n := n2) hlen.le hov le_rfl
  have whole := transformed_of_success hi hlen hov hinv.mem_wf hkey he hb hc
  have first := transformed_of_success hj (by omega) hov1 hinv.mem_wf hkey he1 hb1 hc1
  have second := transformed_of_success hk (by omega) hov2 first.wf (first.keyReady hkey) he2 hb2 hc2
  exact whole.unique (first.trans second hlen.le hov) hlen.le

/-- Settles O49: the second SET_IV leaves the slot of the first, so both transforms XOR the same keystream. -/
theorem involutionLaw : Obligations.InvolutionLaw := by
  unfold Obligations.InvolutionLaw
  intro i j h n d1 d2 src mid dst s s1 s2 s3 s4 hi hj hinv hh hn hov1 hov2 hout he1 hb1 hc1 he2 hb2 hc2 he3 hb3 hc3
    he4 hb4 hc4 k hk
  obtain ⟨-, -, hslot1, hprim1, hmem1, hplat1, hregs1, -, hlen1, hnctx1⟩ :=
    setIv_success s h d1 hinv.primCount he1 hb1 hc1
  have first := transformed_of_success hi hn hov1 (hmem1 ▸ hinv.mem_wf) (fun _ => hslot1 ▸ hprim1) he2 hb2 hc2
  obtain ⟨-, -, hslot3, hprim3, hmem3, hplat3, -⟩ :=
    setIv_success s2 h d2 (by rw [first.prims, first.nctx, hlen1, hnctx1, hinv.primCount]) he3 hb3 hc3
  have second := transformed_of_success hj hn hov2 (hmem3 ▸ first.wf) (fun _ => hslot3 ▸ hprim3) he4 hb4 hc4
  have hiv : s2.iv = s.iv := by
    rw [first.iv hn.le (by rwa [State.ivRange, hregs1])]
    exact State.iv_congr (by rw [hregs1]) fun _ _ => State.byte_congr hmem1 _
  have hslot : s3.slot h = s1.slot h := by
    rw [hslot3, hiv, first.slot, Slot.withIv_afterKeystream, hslot1]
    rfl
  have hplat : s3.plat = s1.plat := hplat3.trans first.plat
  let z := (s1.slot h).keystreamByte s1.plat.cipher k
  calc s4.byte (byteAddr dst k)
      = s3.byte (byteAddr mid k) ^^^ z := by rw [second.written k hk, hslot, hplat]
    _ = (s1.byte (byteAddr src k) ^^^ z) ^^^ z := by rw [State.byte_congr hmem3, first.written k hk]
    _ = s1.byte (byteAddr src k) := by rw [BitVec.xor_assoc, BitVec.xor_self, BitVec.xor_zero]
    _ = s.byte (byteAddr src k) := State.byte_congr hmem1 _

end Sys2Proof.Machine
end

section
/-! PROOFS. SET_AAD (spec/45_set_aad_descriptors.md). -/

namespace Sys2Proof.Machine

/-- SET_AAD is the bare completion with Ok: CTX and DIR are not read (R150). -/
theorem exec_setAad (ctx : Nat) (d : Dir) (s : State) : exec (.setAad ctx d) s = .next (s.complete .ok) := rfl

/-- Settles O51: a completion writes CODE and ends the command, and SET_AAD is no more than that. -/
theorem setAadIsANoOp : Obligations.SetAadIsANoOp := by
  unfold Obligations.SetAadIsANoOp
  exact fun ctx d s => exec_setAad ctx d s

end Sys2Proof.Machine
end

section
/-! PROOFS. A transaction of the primitive port that is never answered (spec/60_exceptions.md R180): the step of
CONTEXT_INIT and of SET_IV that issues it, and the block request of ENCRYPT and DECRYPT. -/

namespace Sys2Proof.Machine

variable {s : State} {h : Nat} {c : Slot}

/-- An answer that is listed is used up and nothing else changes (R96). -/
theorem State.answered_of_head {a : PrimAnswer} (ha : s.answers.head? = some a) :
    s.answered = { s with answers := s.answers.tail } := by
  obtain ⟨rest, ha⟩ := List.head?_eq_some_iff.mp ha
  simp [State.answered, ha]

/-- Step 1 of CONTEXT_INIT when the primitive does not answer (R91, R111). -/
theorem State.createIfAbsent_silent (hp : (s.slot h).prim = false) (ha : s.answers.head? = some .silent) :
    s.createIfAbsent h = .silent { s with port := s.port ++ [.create h], answers := s.answers.tail } := by
  obtain ⟨rest, ha⟩ := List.head?_eq_some_iff.mp ha
  simp [State.createIfAbsent, hp, State.primCreate, State.issue, State.answer, State.answered, ha]

/-- Step 3 of SET_IV when the primitive does not answer (R92, R121). -/
theorem setIvProgram_of_silent (h1 : 1 ≤ h) (h2 : h ≤ s.nctx) (hp : c.prim = true)
    (ha : s.answers.head? = some .silent) :
    setIvProgram h (s.setSlot h c) = .next (s.programAnswered h c).hang := by
  simp [setIvProgram, s.slot_setSlot_same h1 h2, hp, State.primProgram, answer_issue_setSlot _ ha]

/-- Settles O58: the unanswered transaction is the last thing the command does. -/
theorem silentTransactionIsStuck : Obligations.SilentTransactionIsStuck := by
  unfold Obligations.SilentTransactionIsStuck
  refine fun s h d ha => ⟨fun hc hp => ?_, fun hadm hp => ?_⟩
  · simp [exec, execContextInit, hc, State.createIfAbsent_silent hp ha, State.hang]
  · intro c
    obtain ⟨h1, h2, -⟩ := (s.ctxOk_iff h).mp hadm.1
    have hu : s.programAnswered h c = { s.setSlot h c with
        port := s.port ++ [.program h c.keyBytes c.keySize c.counter .enc], answers := s.answers.tail } := by
      rw [State.programAnswered, State.answered_of_head (a := .silent) (by simpa using ha)]
      simp [State.issue]
    calc exec (.setIv h d) s
        = setIvProgram h (s.setSlot h c) := exec_setIv_of_admitted hadm
      _ = .next (s.programAnswered h c).hang := setIvProgram_of_silent h1 h2 hp ha
      _ = _ := by rw [hu]; rfl

section Request

variable {src dst : Addr} {n p : Nat} {t : State}

/-- A block request that gives no byte keeps what the loop has done so far (R133). -/
theorem LoopAt.keeps_request (at_ : LoopAt h src dst n s p t) (x : PrimTxn) :
    LoopKeeps h dst 0 p s (t.issue x).answered :=
  at_.keeps.trans (.of_answered (i := 0) (n := 0) at_.keeps.wf x) (by omega) (by omega)

/-- The next block request carries the counter value that is its turn (R97). -/
theorem LoopAt.port_request (at_ : LoopAt h src dst n s p t) :
    (t.issue (.block h (t.slot h).counter)).port =
      s.port ++ (s.slot h).blockTxns h (blocksNeeded p (s.slot h).kavail.toNat + 1) := by
  rw [State.port_issue, at_.port, at_.slot, Slot.afterKeystream_counter, Slot.blockTxns_succ, List.append_assoc]

/-- The loop ends at a block request that is never answered (R133, R135, R180). -/
theorem xorLoop_of_block_silent {key : List Byte} {rest : List PrimAnswer} {m i : Nat}
    (hz : (t.slot h).kavail = 0#4) (hp : t.primOf h = .programmed key) (ha : t.answers = .silent :: rest) :
    xorLoop h src dst (m + 1) i t = .stuck (t.issue (.block h (t.slot h).counter)).answered := by
  have hans : (t.issue (.block h (t.slot h).counter)).answer = .silent := State.answer_cons (rest := rest) ha
  simp [xorLoop, nextKs, hz, State.primBlock, hp, hans]

/-- The transform of a stuck loop keeps what the loop left, its overlap settled (R57, R180). -/
theorem transform_of_stuck {w : State} (hl : xorLoop h s.regs.src s.regs.dst s.regs.slen.toNat 0 s = .stuck w) :
    transform h s = .next (w.settleOverlap s.regs.src s.regs.dst s.regs.slen.toNat).hang := by
  simp only [transform, hl]

end Request

/-- Settles O60: the loop has used `q` blocks when the request that is never answered stops it. -/
theorem silentBlockRequestIsStuck : Obligations.SilentBlockRequestIsStuck := by
  unfold Obligations.SilentBlockRequestIsStuck
  intro i h q s rest hi hinv hh hadm n c p hq hans
  obtain ⟨h1, h2, hkey, he⟩ := exec_of_cryptAdmitted hi hinv hh hadm
  obtain ⟨-, -, -, hr, hw⟩ := hadm
  have hn : n ≤ 2 ^ 32 := s.regs.slen.isLt.le
  obtain ⟨hmin, hpn, hblocks⟩ := blocksNeeded_residue_add hq
  have hp : p = c.kavail.toNat + 16 * q := by simp only [p, hmin]
  obtain ⟨u, m, at_, hloop, hua, huz, hup⟩ := xorLoop_reaches_request h1 h2 hinv.mem_wf hn hkey hr hw hq hans
  rw [← hp] at at_ hloop hblocks hpn
  rw [xorLoop_of_block_silent huz hup hua] at hloop
  have hk := at_.keeps_request (.block h (u.slot h).counter)
  obtain ⟨_, _, hset⟩ := (u.issue (.block h (u.slot h).counter)).answered.settleOverlap_eq s.regs.src s.regs.dst n
  refine ⟨_, he.trans (transform_of_stuck hloop), rfl, rfl, ?_, ?_, ?_, ?_, fun a hout => ?_, fun hov => ?_⟩
  · rw [State.code_hang, hset]; exact hk.code
  · rw [State.regs_hang, hset]; exact hk.regs
  · rw [State.slot_hang, State.slot_settleOverlap, State.slot_answered, State.slot_issue, at_.slot]
  · rw [State.port_hang, State.port_settleOverlap, State.port_answered, at_.port_request, hblocks]
  · exact hk.byte_settleOverlap hpn.le hout
  · rw [State.settleOverlap_of_not hov]
    have hovp := partialOverlap_prefix hn hov hpn.le
    refine ⟨fun j hj => (State.byte_congr (by simp) _).trans (at_.written hovp j hj), fun a hout => ?_⟩
    exact hk.byte a fun j _ hj => ne_byteAddr_of_not_covers (by omega) hout j (by omega)

end Sys2Proof.Machine
end

section
/-! PROOFS. How a command ends (spec/60_exceptions.md R168, R170, R180): it completes with a code of its row, or it is
stuck with CODE as it was; and what a stuck state keeps. -/

namespace Sys2Proof.Machine

section Ends

variable {s t u : State} {h : Nat} {l : List Code} {c : Code}

/-- A command launched in `s` ends in `t`: completed, with a code of the list, or stuck, with CODE as before (R168,
R170, R180). -/
def EndsWithin (l : List Code) (s t : State) : Prop :=
  (t.busy = false ∧ t.hung = false ∧ t.code ∈ l) ∨ (t.busy = true ∧ t.hung = true ∧ t.code = s.code)

@[simp] theorem endsWithin_complete : EndsWithin l s (t.complete c) ↔ c ∈ l := by simp [EndsWithin]

@[simp] theorem endsWithin_hang : EndsWithin l s t.hang ↔ t.code = s.code := by simp [EndsWithin]

/-- What ends a later part of a command ends the command, when the code was not touched before and the list grows. -/
theorem EndsWithin.mono {l' : List Code} (e : EndsWithin l u t) (hu : u.code = s.code) (hl : l ⊆ l') :
    EndsWithin l' s t :=
  e.imp (fun ⟨hb, hh, hc⟩ => ⟨hb, hh, hl hc⟩) fun ⟨hb, hh, hc⟩ => ⟨hb, hh, hc.trans hu⟩

theorem execAllocate_endsWithin (e : execAllocate s = .next t) : EndsWithin [.ok, .badParam, .allocFail] s t := by
  unfold execAllocate at e
  split at e
  · cases e; simp
  · split at e <;> cases e <;> simp

theorem execDeallocate_endsWithin (e : execDeallocate h s = .next t) : EndsWithin [.ok, .badParam] s t := by
  unfold execDeallocate at e
  split_ifs at e <;> cases e <;> simp

/-- Steps 4 and 5 of CONTEXT_INIT (R111, R112). -/
theorem contextInitKey_endsWithin (e : contextInitKey h s = .next t) : EndsWithin [.ok, .badParam] s t := by
  simp only [contextInitKey] at e
  split_ifs at e
  · cases e; simp
  · cases e; simp
  · split at e <;> cases e <;> simp

theorem contextInitLoad_endsWithin (e : contextInitLoad h s = .next t) : EndsWithin [.ok, .badParam] s t := by
  simp only [contextInitLoad] at e
  split at e
  · cases e; simp
  · exact (contextInitKey_endsWithin e).mono (by simp) (List.Subset.refl _)

/-- How CONTEXT_INIT can end, with its codes: at `CheckCtx`, at a PrimCreate that is refused or not answered, or in the
load of key and salt (R91, R111). -/
theorem execContextInit_next (e : execContextInit h s = .next t) :
    let u := (s.issue (.create h)).answered
    (s.ctxOk h = false ∧ t = s.complete .badParam) ∨
    ((s.slot h).prim = false ∧ t = u.complete .initFail) ∨ t = u.hang ∨
    ∃ v, HandleReady h s v ∧ contextInitLoad h v = .next t := by
  rcases execContextInit_cases s h with ⟨hc, e'⟩ | ⟨-, hp, e'⟩ | ⟨-, -, -, e'⟩ | ⟨-, hp, -, e'⟩ | ⟨-, -, -, e'⟩ <;>
    rw [e'] at e
  · cases e; exact .inl ⟨hc, rfl⟩
  · dsimp only at e
    split_ifs at e
    exact .inr (.inr (.inr ⟨s, .inl ⟨hp, rfl⟩, e⟩))
  · dsimp only at e
    split_ifs at e
    exact .inr (.inr (.inr ⟨_, .inr rfl, e⟩))
  · cases e; exact .inr (.inl ⟨hp, rfl⟩)
  · cases e; exact .inr (.inr (.inl rfl))

theorem HandleReady.code (hu : HandleReady h s u) : u.code = s.code := by
  obtain ⟨-, rfl⟩ | rfl := hu <;> simp

theorem execContextInit_endsWithin (e : execContextInit h s = .next t) :
    EndsWithin [.ok, .badParam, .initFail] s t := by
  obtain ⟨-, rfl⟩ | ⟨-, rfl⟩ | rfl | ⟨v, hv, e⟩ := execContextInit_next e
  · simp
  · simp
  · simp
  · exact (contextInitLoad_endsWithin e).mono hv.code (by simp)

theorem execSetIv_endsWithin {d : Dir} (e : execSetIv h d s = .next t) : EndsWithin [.ok, .fail, .badParam] s t := by
  obtain rfl | rfl | ⟨-, rfl | ⟨-, rfl⟩ | ⟨-, rfl⟩ | rfl⟩ := execSetIv_ends e <;> simp

/-- The loop of R135 does not write CODE. -/
theorem loopRule_code (c : Code) : LoopRule h fun t => t.code = c :=
  ⟨fun _ => by simp, fun _ _ => by simp, fun _ => by simp, fun _ _ _ => by simp⟩

@[simp] theorem State.code_settleOverlap (s : State) (src dst : Addr) (n : Nat) :
    (s.settleOverlap src dst n).code = s.code := by
  obtain ⟨m, d, e⟩ := s.settleOverlap_eq src dst n
  rw [e]

theorem transform_endsWithin (e : transform h s = .next t) : EndsWithin [.ok, .cipherFail] s t := by
  obtain ⟨w, hw, ht⟩ := transform_ends e
  have hcode : w.code = s.code := (loopRule_code s.code).xorLoop _ _ hw rfl
  obtain rfl | rfl | rfl := ht
  · simp
  · simp [cipherFailMidStream]
  · simpa using hcode

theorem crypt_endsWithin (e : crypt h s = .next t) : EndsWithin [.ok, .badParam, .cipherFail, .bufferSmall] s t := by
  rcases crypt_cases s h with ⟨-, e'⟩ | ⟨-, -, e'⟩ | ⟨-, -, -, e'⟩ | ⟨-, e'⟩ | ⟨-, e'⟩ <;> rw [e'] at e
  · cases e; simp
  · cases e; simp
  · cases e; simp
  · cases e
  · exact (transform_endsWithin e).mono rfl (by simp)

/-- Every command completes with a code of its row or is stuck (R168, R170, R180). -/
theorem exec_endsWithin {i : Instr} (e : exec i s = .next t) : EndsWithin (codesOf i) s t := by
  cases i with
  | allocate _ _ => exact execAllocate_endsWithin e
  | deallocate _ _ => exact execDeallocate_endsWithin e
  | contextInit _ _ => exact execContextInit_endsWithin e
  | setIv _ d => exact execSetIv_endsWithin (d := d) e
  | encrypt _ _ => exact crypt_endsWithin e
  | decrypt _ _ => exact crypt_endsWithin e
  | setAad _ _ => cases e; simp [codesOf]

end Ends

/-- Settles O25: a next state with BUSY 0 is a completion. -/
theorem codesOfEachCommand : Obligations.CodesOfEachCommand := by
  unfold Obligations.CodesOfEachCommand
  intro i s t e hb
  obtain ⟨-, -, hc⟩ | ⟨hb', -⟩ := exec_endsWithin e
  · exact hc
  · cases hb.symm.trans hb'

section Stuck

variable {s t : State}

/-- A stuck command has no further step (R180). -/
theorem engineTurn_of_hung (hh : s.hung = true) : engineTurn s = .next s := by simp [engineTurn, hh]

/-- While BUSY = 1 the host reaches memory, its own read data and the free values drawn for it, and nothing of the
engine (R24, R58, R196). -/
theorem hostAccess_of_busy {a : HostAccess} (hb : s.busy = true) (e : hostAccess a s = .next t) :
    ∃ m v n, t = { s with mem := m, rdata := v, draws := n } := by
  cases a with
  | regWrite off width v =>
    rcases hostRegWrite_cases s off width v with ⟨-, e'⟩ | ⟨-, -, e'⟩ | ⟨-, hi, -⟩ | ⟨-, hi, -⟩
    · cases e'.symm.trans e
    · cases e'.symm.trans e; exact ⟨s.mem, s.rdata, s.draws, rfl⟩
    · cases hb.symm.trans hi
    · cases hb.symm.trans hi
  | regRead off width =>
    rcases hostRegRead_cases s off width with ⟨-, e'⟩ | ⟨-, r, -, e'⟩ | ⟨-, -, e'⟩ <;> cases e'.symm.trans e
    · obtain ⟨v, n, hr⟩ := s.readReg_eq r
      exact ⟨s.mem, v, n, by simpa [hb] using hr⟩
    · exact ⟨s.mem, 0#32, s.draws, rfl⟩
  | memWrite a b =>
    obtain rfl := eq_of_hostMemWrite e
    exact ⟨_, s.rdata, s.draws, rfl⟩
  | memRead a =>
    obtain rfl := eq_of_hostMemRead e
    exact ⟨s.mem, _, s.draws, rfl⟩

end Stuck

/-- Settles O23: a command ends completed or stuck; in a stuck state the engine's turn does nothing, the host reaches
nothing of the engine, and a reset clears it. -/
theorem completionOrStuck : Obligations.CompletionOrStuck := by
  unfold Obligations.CompletionOrStuck
  refine ⟨fun i s t e => (exec_endsWithin e).imp_left fun ⟨hb, hh, _⟩ => ⟨hb, hh⟩, fun s t hb hh e => ?_⟩
  cases hs : s.sched with
  | nil =>
    cases ((step_of_no_event hs).trans (engineTurn_of_hung hh)).symm.trans e
    simp [hb, hh]
  | cons ev rest =>
    cases ev with
    | engine =>
      cases ((step_of_engine hs).trans (engineTurn_of_hung (s := { s with sched := rest }) hh)).symm.trans e
      simp [hb, hh]
    | host a =>
      obtain ⟨m, v, n, rfl⟩ := hostAccess_of_busy (s := { s with sched := rest }) hb ((step_of_host hs).symm.trans e)
      simp [hb, hh]
    | reset =>
      obtain rfl : State.hardReset { s with sched := rest } = t := by simpa [step, hs, takeEvent] using e
      simp [State.hardReset, State.clearEngine]

end Sys2Proof.Machine
end

section
/-! PROOFS. The phase of the slot a command names (spec/10_state.md R31, spec/60_exceptions.md R176): what a handle says
of the phase, then the move each command makes. -/

namespace Sys2Proof.Machine

section Table

variable (i : Instr) (h : Nat) (d : Dir) (p : Phase)

/-- BadParam moves no phase, whatever the command (R102, R176). -/
theorem phaseMove_badParam : phaseMove i .badParam p p = true := by cases i <;> simp [phaseMove]

/-- The table has one row for ENCRYPT and DECRYPT (R136, R176). -/
theorem phaseMove_decrypt : phaseMove (.decrypt h d) = phaseMove (.encrypt h d) := by
  funext c old new
  cases c <;> rfl

end Table

section Moves

variable {s t u : State} {h : Nat} {d : Dir} {c : Slot} {p : PrimHandle}

theorem Phase.allocated_or_inited {q : Phase} (hf : q ≠ .free) (hr : q ≠ .ready) : q = .allocated ∨ q = .inited := by
  revert hf hr
  cases q <;> decide

theorem SlotOk.phase_of_owned (ok : SlotOk c p) (hp : c.prim = true) : c.phase = .inited ∨ c.phase = .ready := by
  obtain ⟨-, -, -, hprim, -⟩ := ok
  exact hprim.mp hp

theorem SlotOk.phase_of_not_owned (ok : SlotOk c p) (hf : c.phase ≠ .free) (hp : c.prim = false) :
    c.phase = .allocated := by
  obtain ⟨-, -, -, hprim, -⟩ := ok
  cases hc : c.phase with
  | free => exact absurd hc hf
  | allocated => rfl
  | inited => simp [hc, hp] at hprim
  | ready => simp [hc, hp] at hprim

/-- The phase of slot `h` moves from `s` to `t` as the table has it for the code, if the command has completed
(R176). -/
def MovesByTable (i : Instr) (h : Nat) (s t : State) : Prop :=
  t.busy = false → phaseMove i t.code (s.slot h).phase (t.slot h).phase = true

theorem MovesByTable.of_hang {i : Instr} : MovesByTable i h s t.hang := nofun

/-- Completion on a slot just written. -/
theorem movesByTable_complete {i : Instr} {code : Code} (h1 : 1 ≤ h) (h2 : h ≤ u.nctx)
    (hm : phaseMove i code (s.slot h).phase c.phase = true) : MovesByTable i h s ((u.setSlot h c).complete code) := by
  intro _
  rwa [State.code_complete, State.slot_complete, u.slot_setSlot_same h1 h2]

variable (hc : s.ctxOk h = true) (ok : SlotOk (s.slot h) (s.primOf h))

include hc in
theorem execDeallocate_movesByTable (e : execDeallocate h s = .next t) : MovesByTable (.deallocate h d) h s t := by
  obtain ⟨h1, h2, hf⟩ := (s.ctxOk_iff h).mp hc
  unfold execDeallocate at e
  rw [if_pos hc] at e
  cases e
  exact movesByTable_complete h1 (Confined.refl.disposeIfOwned.le_nctx h2) (by simp [phaseMove, hf, Slot.zero])

include hc ok in
/-- A slot that meets the invariant has a legal key size, so that the load of key and salt ends with Ok or stuck. -/
theorem execContextInit_movesByTable (e : execContextInit h s = .next t) : MovesByTable (.contextInit h d) h s t := by
  obtain ⟨h1, h2, hf⟩ := (s.ctxOk_iff h).mp hc
  obtain ⟨hc', -⟩ | ⟨hp, rfl⟩ | rfl | ⟨u, hu, e⟩ := execContextInit_next e
  · cases hc.symm.trans hc'
  · intro _
    simp [phaseMove, ok.phase_of_not_owned hf hp]
  · exact .of_hang
  · have h2u := hu.confined.le_nctx h2
    have hk : (u.slot h).keySize = 16 ∨ (u.slot h).keySize = 24 ∨ (u.slot h).keySize = 32 :=
      State.slot_congr hu.slots h ▸ (ok.keyOk hf).1
    rcases contextInitLoad_cases u h h1 h2u hk with ⟨-, e'⟩ | ⟨-, -, e'⟩ | ⟨-, -, e'⟩ <;> cases e'.symm.trans e
    · exact .of_hang
    · exact .of_hang
    · exact movesByTable_complete h1 h2u (by simp [phaseMove, hf])

include hc ok in
theorem execSetIv_movesByTable (e : execSetIv h d s = .next t) : MovesByTable (.setIv h d) h s t := by
  obtain ⟨h1, h2, hf⟩ := (s.ctxOk_iff h).mp hc
  rcases execSetIv_cases s h d with ⟨hc', -⟩ | ⟨-, -, e'⟩ | ⟨-, -, -, e'⟩ | ⟨-, e'⟩
  · cases hc.symm.trans hc'
  · cases e'.symm.trans e
  · cases e'.symm.trans e; exact .of_hang
  · rw [e'] at e
    rcases setIvProgram_cases s h h1 h2 ((s.slot h).withIv s.iv) with
      ⟨hp, e'⟩ | ⟨hp, -, e'⟩ | ⟨hp, -, e'⟩ | ⟨-, -, e'⟩ <;> cases e'.symm.trans e
    · have hold := ok.phase_of_not_owned hf hp
      exact movesByTable_complete h1 h2 (by simp [phaseMove, Slot.withIv, hold])
    · have hold := ok.phase_of_owned hp
      exact movesByTable_complete h1 (confined_programAnswered.setPrim.le_nctx h2) (by simp [phaseMove, hold])
    · have hold := ok.phase_of_owned hp
      exact movesByTable_complete h1 (confined_programAnswered.le_nctx h2) (by simp [phaseMove, hold])
    · exact .of_hang

include hc ok in
theorem crypt_movesByTable (hm : Memory.wf s.mem = true) (e : crypt h s = .next t) :
    MovesByTable (.encrypt h d) h s t := by
  obtain ⟨h1, h2, hf⟩ := (s.ctxOk_iff h).mp hc
  rcases crypt_cases s h with ⟨hc', -⟩ | ⟨-, -, e'⟩ | ⟨-, -, hr, e'⟩ | ⟨-, e'⟩ | ⟨hr, e'⟩
  · cases hc.symm.trans hc'
  · cases e'.symm.trans e
    intro _
    simp [phaseMove]
  · cases e'.symm.trans e
    intro _
    simp [phaseMove, Phase.allocated_or_inited hf hr]
  · cases e'.symm.trans e
  · obtain ⟨-, -, hready⟩ := (s.cryptRuns_iff h).mp hr
    obtain ⟨t', ht, -, hend⟩ := transform_cases h1 h2 hm (ok.ready hready).2
    cases (e'.trans ht).symm.trans e
    rcases hend with ⟨-, -, hcode, -, w, -, at_, hslot, -⟩ | ⟨-, -, hcode, w, -, hslot, -⟩ | ⟨hb, -⟩ <;> intro hb'
    · obtain ⟨hphase, -⟩ := Slot.afterKeystream_fields s.plat.cipher (s.slot h) s.regs.slen.toNat
      rw [hcode, hslot, at_.slot, hphase, hready]
      rfl
    · rw [hcode, hslot, hready]
      rfl
    · cases hb.symm.trans hb'

/-- Every command moves the phase of its slot by the table; a handle that fails `CheckCtx` moves none (R102, R176). -/
theorem exec_movesByTable {i : Instr} (hi : IsOnContext i h) (ok : SlotOk (s.slot h) (s.primOf h))
    (hm : Memory.wf s.mem = true) (e : exec i s = .next t) : MovesByTable i h s t := by
  cases hc : s.ctxOk h with
  | false =>
    cases (exec_of_not_ctxOk hi hc).symm.trans e
    exact fun _ => phaseMove_badParam i _
  | true =>
    obtain ⟨d, rfl | rfl | rfl | rfl | rfl⟩ := hi
    · exact execDeallocate_movesByTable hc e
    · exact execContextInit_movesByTable hc ok e
    · exact execSetIv_movesByTable hc ok e
    · exact crypt_movesByTable hc ok hm e
    · rw [MovesByTable, phaseMove_decrypt]
      exact crypt_movesByTable hc ok hm e

end Moves

/-- Settles O26: the invariant tells the phase from the handle a slot owns; ALLOCATE writes one slot, or none on an
error. -/
theorem phasesMoveByTheTable : Obligations.PhasesMoveByTheTable := by
  unfold Obligations.PhasesMoveByTheTable
  refine ⟨fun i h s t hi hinv hh e hb => ?_, fun _ _ s t hinv e => ?_, fun _ _ s t e => ?_⟩
  · exact exec_movesByTable hi (hinv.slotOk_all hh h) hinv.mem_wf e hb
  · obtain ⟨-, hmax, -⟩ := hinv
    obtain ⟨c, hne, rfl⟩ | ⟨v, h, hf, rfl⟩ := execAllocate_ends e
    · exact ⟨fun hok => absurd hok hne, fun _ => rfl⟩
    · obtain ⟨h1, h2, hfree⟩ := State.leastFree_eq_some hf
      have hh : (BitVec.ofNat 8 h).toNat = h := Nat.mod_eq_of_lt (by omega)
      refine ⟨fun _ => ?_, fun hne => absurd rfl hne⟩
      simp [hh, hfree, s.slot_setSlot_same h1 h2, Slot.allocated]
  · cases e; rfl

end Sys2Proof.Machine
end

section
/-! PROOFS. A host read of the register file while BUSY = 1 (spec/10_state.md R25, R41; spec/70_reset_and_hazards.md
R196). -/

namespace Sys2Proof.Machine

variable {s : State} {rest : List Event} {off : BitVec 8} {r : Reg}

/-- A host read of an offset with a register (R23). -/
theorem step_regRead_of_regAt (h4 : off.toNat % 4 = 0) (hr : regAt off.toNat = some r)
    (e : s.sched = .host (.regRead off .word) :: rest) :
    step s = .next (State.readReg { s with sched := rest } r) := by
  simp [step_of_host e, hostAccess, hostRegRead, alignedWord_word h4, hr]

/-- A host read of a reserved offset, busy or not (R41). -/
theorem step_regRead_reserved (h4 : off.toNat % 4 = 0) (hr : IsReserved off)
    (e : s.sched = .host (.regRead off .word) :: rest) : step s = .next { s with sched := rest, rdata := 0#32 } := by
  simp [step_of_host e, hostAccess, hostRegRead, alignedWord_word h4, (regAt_eq_none_iff off h4).mpr hr,
    State.setRdata]

theorem statusWord_busy (c : Code) : statusWord true c = BitVec.ofNat 32 (1 + c.num * 2 ^ 8) := rfl

/-- STATUS is valid while BUSY = 1, and no acquire (R25, R58, R196). -/
theorem State.readReg_status_busy (hb : s.busy = true) :
    s.readReg .status = { s with rdata := statusWord true s.code } := by
  simp [State.readReg, State.acquire, State.setRdata, hb]

/-- Any other register reads as the next free value while BUSY = 1 (R196). -/
theorem State.readReg_busy (hb : s.busy = true) (hr : r ≠ .status) :
    s.readReg r = { s with rdata := s.freeWord, draws := s.draws + 1 } := by
  simp [State.readReg, State.setRdata, State.drawn, hb, hr]

/-- Settles O9: a read finds STATUS, no register, or another register. -/
theorem busyRegisterAccess : Obligations.BusyRegisterAccess := by
  unfold Obligations.BusyRegisterAccess
  intro s off v rest hb h4
  refine ⟨step_regWrite_busy hb h4, fun e hoff => ?_, fun e hres => step_regRead_reserved h4 hres e,
    fun e hoff hres => ?_⟩
  · rw [step_regRead_of_regAt h4 ((regAt_status_iff off).mpr hoff) e,
      State.readReg_status_busy (s := { s with sched := rest }) hb, statusWord_busy]
  · obtain ⟨r, hr⟩ := Option.ne_none_iff_exists'.mp ((regAt_eq_none_iff off h4).not.mpr hres)
    have hne : r ≠ .status := fun hst => hoff ((regAt_status_iff off).mp (hst ▸ hr))
    exact ⟨_, (step_regRead_of_regAt h4 hr e).trans
      (congrArg _ (State.readReg_busy (s := { s with sched := rest }) hb hne))⟩

end Sys2Proof.Machine
end

section
/-! PROOFS. The reset input (spec/70_reset_and_hazards.md R185 to R187): the range a running command writes becomes free
values, then the engine is cleared. -/

namespace Sys2Proof.Machine

variable {s : State}

theorem State.draws_storeFreeRange (base : Addr) (n i : Nat) (s : State) :
    (State.storeFreeRange base n i s).draws = s.draws + n := by
  induction n generalizing i s with
  | zero => rfl
  | succ n ih => rw [State.storeFreeRange, ih, State.draws_storeFree]; omega

/-- A running command writes the destination range or nothing (R56). -/
theorem State.writes_busyBuffers (s : State) : s.busyBuffers.writes = [] ∨ s.busyBuffers.writes = [s.dstRange] := by
  unfold State.busyBuffers
  split_ifs
  · cases e : decode s.latch with
    | illegal r => exact .inl (congrArg Buffers.writes (State.buffersOf_of_illegal e))
    | instr i =>
      rw [State.buffersOf_of_decode e]
      have hcrypt (h : Nat) : (if s.cryptRuns h then [s.dstRange] else []) = [] ∨
          (if s.cryptRuns h then [s.dstRange] else []) = [s.dstRange] := by split_ifs <;> simp
      cases i with
      | allocate _ _ => exact .inl rfl
      | deallocate _ _ => exact .inl rfl
      | contextInit _ _ => exact .inl rfl
      | setIv _ _ => exact .inl rfl
      | encrypt h _ => exact hcrypt h
      | decrypt h _ => exact hcrypt h
      | setAad _ _ => exact .inl rfl
  · exact .inl rfl

/-- Cutting a command short frees the destination range, or changes nothing (R187). -/
theorem State.abandon_cases (s : State) :
    (s.busyBuffers.writes = [] ∧ s.abandon = s) ∨
    (s.busyBuffers.writes = [s.dstRange] ∧
      s.abandon = State.storeFreeRange s.regs.dst s.regs.slen.toNat 0 s) := by
  unfold State.abandon
  obtain hw | hw := s.writes_busyBuffers <;> rw [hw]
  · exact .inl ⟨rfl, rfl⟩
  · exact .inr ⟨rfl, rfl⟩

/-- Cutting a command short changes memory and the count of drawn values, nothing else (R187). -/
theorem State.abandon_eq (s : State) : ∃ m d, s.abandon = { s with mem := m, draws := d } := by
  obtain ⟨-, e⟩ | ⟨-, e⟩ := s.abandon_cases <;> rw [e]
  · exact ⟨s.mem, s.draws, rfl⟩
  · exact State.storeFreeRange_eq _ _ _ s

/-- Every byte of the range a command cut short writes is a free value of its own (R187). -/
theorem State.byte_abandon_of_written (hm : Memory.wf s.mem = true) {r : Range} (hr : r ∈ s.busyBuffers.writes)
    {j : Nat} (hj : j < r.len) :
    s.draws + j < s.abandon.draws ∧ s.abandon.byte (byteAddr r.base j) = Config.freeByte (s.draws + j) := by
  obtain ⟨hw, -⟩ | ⟨hw, e⟩ := s.abandon_cases <;> rw [hw] at hr
  · cases hr
  · obtain rfl := List.mem_singleton.mp hr
    have hn : 0 + s.regs.slen.toNat ≤ 2 ^ 32 := by have := s.regs.slen.isLt; omega
    have hbyte := State.byte_storeFreeRange s.regs.dst s.regs.slen.toNat 0 s hm hn j hj
    rw [Nat.zero_add] at hbyte
    rw [e, State.draws_storeFreeRange]
    exact ⟨Nat.add_lt_add_left hj _, hbyte⟩

/-- No byte outside the ranges of the running command changes (R187). -/
theorem State.byte_abandon_of_not_covered (hm : Memory.wf s.mem = true) {a : Addr}
    (ha : (s.busyBuffers.writes.any fun r => r.covers a) = false) : s.abandon.byte a = s.byte a := by
  obtain ⟨-, e⟩ | ⟨hw, e⟩ := s.abandon_cases <;> rw [e]
  rw [hw] at ha
  have hout : s.dstRange.covers a = false := by simpa using ha
  obtain ⟨-, hkeep⟩ := State.storeFreeRange_mem s.regs.dst s.regs.slen.toNat 0 s hm
  exact hkeep a fun j _ hj => ne_byteAddr_of_not_covers s.regs.slen.isLt.le hout j (by omega)

theorem step_of_reset {rest : List Event} (e : s.sched = .reset :: rest) :
    step s = .next (State.hardReset { s with sched := rest }) := by
  simp only [step, e]
  rfl

/-- Settles O18: the registers, slots and handles are those of `State.clearEngine`, memory is that of
`State.abandon`. -/
theorem resetInputClearsTheEngine : Obligations.ResetInputClearsTheEngine := by
  unfold Obligations.ResetInputClearsTheEngine
  intro s rest hs hm
  refine ⟨_, step_of_reset hs, ?_⟩
  have hwritten (r : Range) (hr : r ∈ s.busyBuffers.writes) (j : Nat) (hj : j < r.len) :=
    State.byte_abandon_of_written (s := { s with sched := rest }) hm hr hj
  have hkept (a : Addr) (ha : (s.busyBuffers.writes.any fun r => r.covers a) = false) :=
    State.byte_abandon_of_not_covered (s := { s with sched := rest }) hm ha
  obtain ⟨m, d, e⟩ := State.abandon_eq { s with sched := rest }
  rw [e] at hwritten hkept
  rw [State.hardReset, e]
  refine ⟨rfl, rfl, rfl, rfl, rfl, rfl, State.primOf_of_replicate rfl, rfl, rfl,
    fun r hr j hj => ?_, hkept⟩
  obtain ⟨hlt, hbyte⟩ := hwritten r hr j hj
  exact ⟨s.draws + j, Nat.le_add_right _ _, hlt, hbyte⟩

end Sys2Proof.Machine
end

section
/-! PROOFS. Every command comes to its end (spec/70_reset_and_hazards.md R207) where the platform admits every request,
hides the register file, and the primitive answers every transaction (R63, R50, R180). -/

namespace Sys2Proof.Machine

/-- The outcome is a completion: a next state with BUSY 0 (R170). -/
def Completes (o : Host.Outcome State Fault Refusal) : Prop := ∃ t, o = .next t ∧ t.busy = false ∧ t.hung = false

@[simp] theorem completes_complete (s : State) (c : Code) : Completes (.next (s.complete c)) := ⟨_, rfl, rfl, rfl⟩

/-- The platform admits every request the engine can make, and the register file is not in its way (R63, R50). -/
structure State.MemoryOpen (s : State) : Prop where
  admits : ∀ k a n, n ≤ Config.maxRequest → s.admits k a n = true
  clear  : ∀ r, s.hitsRegFile r = false

theorem State.MemoryOpen.congr {s t : State} (o : s.MemoryOpen) (hp : t.plat = s.plat) : t.MemoryOpen where
  admits k a n hn := (State.admits_congr hp k a n).trans (o.admits k a n hn)
  clear r := (State.hitsRegFile_congr hp r).trans (o.clear r)

theorem State.hitsRegFile_of_hidden {s : State} (hr : s.plat.regBase = none) (r : Range) : s.hitsRegFile r = false := by
  simp [State.hitsRegFile, hr]

/-- The next transaction is answered when an answer is listed and none listed is silent (R96, R180). -/
theorem State.answer_ne_silent {s : State} (hans : ∀ x ∈ s.answers, x ≠ .silent) (hlen : 0 < s.answers.length) :
    s.answer ≠ .silent := by
  obtain ⟨x, rest, e⟩ := List.exists_cons_of_length_pos hlen
  rw [State.answer_cons e]
  exact hans x (e ▸ List.mem_cons_self)

section Loop

variable {s t : State} {h n p : Nat} {src dst : Addr}

/-- The block that byte `p` needs is answered when enough answers are listed and none is silent (R96, R133). -/
theorem LoopAt.answer_ne_silent (at_ : LoopAt h src dst n s p t) (hb : needsBlock p (s.slot h).kavail.toNat)
    (hans : ∀ x ∈ s.answers, x ≠ .silent)
    (hlen : blocksNeeded (p + 1) (s.slot h).kavail.toNat ≤ s.answers.length) :
    (t.issue (.block h (t.slot h).counter)).answer ≠ .silent := by
  obtain ⟨-, hleft⟩ := at_.answers
  rw [blocksNeeded_succ, if_pos hb] at hlen
  apply State.answer_ne_silent <;> rw [State.answers_issue, hleft]
  · exact fun x hx => hans x (List.mem_of_mem_drop hx)
  · rw [List.length_drop]
    omega

/-- With every byte admitted and every block answered the loop is not stuck (R63, R135, R180). -/
theorem xorLoop_ne_stuck (h1 : 1 ≤ h) (h2 : h ≤ s.nctx) (hm : Memory.wf s.mem = true) (hn : n ≤ 2 ^ 32)
    (hkey : s.primOf h = .programmed (s.slot h).keyBytes) (hopen : s.MemoryOpen)
    (hans : ∀ x ∈ s.answers, x ≠ .silent) (hlen : blocksNeeded n (s.slot h).kavail.toNat ≤ s.answers.length)
    (w : State) : xorLoop h src dst n 0 s ≠ .stuck w := by
  intro e
  have hend := xorLoop_outcome src dst n h1 h2 hm hn hkey
  rw [e] at hend
  obtain ⟨p, hpn, t, at_, ⟨hb, hsilent, -⟩ | ⟨-, hadm⟩⟩ := hend
  · exact at_.answer_ne_silent hb hans ((blocksNeeded_mono hpn).trans hlen) hsilent
  · simp [hopen.admits _ _ 1 (by decide)] at hadm

end Loop

section Commands

variable {s : State} {h : Nat}

theorem completes_execAllocate : Completes (execAllocate s) := by
  unfold execAllocate
  cases variantOf s.regs.klen with
  | none => simp
  | some v => cases s.leastFree <;> simp

theorem completes_execDeallocate : Completes (execDeallocate h s) := by
  unfold execDeallocate
  split_ifs <;> simp

variable (hopen : s.MemoryOpen) (hans : ∀ x ∈ s.answers, x ≠ .silent)

include hopen in
/-- The load of key and salt makes two requests (R111). -/
theorem completes_contextInitLoad (h1 : 1 ≤ h) (h2 : h ≤ s.nctx)
    (hk : (s.slot h).keySize = 16 ∨ (s.slot h).keySize = 24 ∨ (s.slot h).keySize = 32) :
    Completes (contextInitLoad h s) := by
  have hmax : (s.slot h).keySize ≤ Config.maxRequest := by simp only [Config.maxRequest]; omega
  rcases contextInitLoad_cases s h h1 h2 hk with ⟨hsalt, -⟩ | ⟨-, hkey, -⟩ | ⟨-, -, e⟩
  · cases hsalt.symm.trans (hopen.admits .read _ 14 (by decide))
  · cases hkey.symm.trans (hopen.admits .read _ _ hmax)
  · rw [e]
    simp

include hopen hans in
/-- CONTEXT_INIT needs at most one answer (R97, R111). -/
theorem completes_execContextInit (ok : SlotOk (s.slot h) (s.primOf h)) (hlen : 0 < s.answers.length) :
    Completes (execContextInit h s) := by
  have hload {u : State} (hc : s.ctxOk h = true) (hu : HandleReady h s u) :
      Completes (if u.hitsRegFile (u.keySaltRange (u.slot h).keySize) then .refused .registerFileOverlap
        else contextInitLoad h u) := by
    obtain ⟨h1, h2, hf⟩ := (s.ctxOk_iff h).mp hc
    have hopen := hopen.congr hu.confined.plat
    rw [if_neg (by simp [hopen.clear])]
    exact completes_contextInitLoad hopen h1 (hu.confined.le_nctx h2)
      (State.slot_congr hu.slots h ▸ (ok.keyOk hf).1)
  rcases execContextInit_cases s h with ⟨-, e⟩ | ⟨hc, hp, e⟩ | ⟨hc, -, -, e⟩ | ⟨-, -, -, e⟩ | ⟨-, -, hsilent, -⟩
  · rw [e]; simp
  · rw [e]; exact hload hc (.inl ⟨hp, rfl⟩)
  · rw [e]; exact hload hc (.inr rfl)
  · rw [e]; simp
  · exact absurd hsilent (State.answer_ne_silent hans hlen)

include hopen hans in
/-- SET_IV needs at most one answer (R97, R121). -/
theorem completes_execSetIv (d : Dir) (hlen : 0 < s.answers.length) : Completes (execSetIv h d s) := by
  rcases execSetIv_cases s h d with ⟨-, e⟩ | ⟨-, hit, -⟩ | ⟨-, -, ha, -⟩ | ⟨⟨hc, -⟩, e⟩
  · rw [e]; simp
  · cases hit.symm.trans (hopen.clear _)
  · cases ha.symm.trans (hopen.admits .read _ 16 (by decide))
  · obtain ⟨h1, h2, -⟩ := (s.ctxOk_iff h).mp hc
    rw [e]
    rcases setIvProgram_cases s h h1 h2 ((s.slot h).withIv s.iv) with
      ⟨-, e⟩ | ⟨-, -, e⟩ | ⟨-, -, e⟩ | ⟨-, hsilent, -⟩
    · rw [e]; simp
    · rw [e]; simp
    · rw [e]; simp
    · exact absurd hsilent (State.answer_ne_silent (by simpa using hans) (by simpa using hlen))

include hopen hans in
/-- ENCRYPT and DECRYPT need one answer for each block (R97, R138). -/
theorem completes_crypt (hm : Memory.wf s.mem = true) (ok : SlotOk (s.slot h) (s.primOf h))
    (hlen : blocksNeeded s.regs.slen.toNat (s.slot h).kavail.toNat ≤ s.answers.length) : Completes (crypt h s) := by
  have hruns (hr : s.cryptRuns h = true) : Completes (crypt h s) := by
    obtain ⟨hc, -, hf⟩ := (s.cryptRuns_iff h).mp hr
    obtain ⟨h1, h2, -⟩ := (s.ctxOk_iff h).mp hc
    obtain ⟨-, hkey⟩ := ok.ready hf
    rw [crypt_of_runs hr (hopen.clear _) (hopen.clear _)]
    obtain ⟨t, e, -, ⟨hb, hh, -⟩ | ⟨hb, hh, -⟩ | ⟨-, -, -, w, hstuck, -⟩⟩ := transform_cases h1 h2 hm hkey
    · exact ⟨t, e, hb, hh⟩
    · exact ⟨t, e, hb, hh⟩
    · exact absurd hstuck (xorLoop_ne_stuck h1 h2 hm s.regs.slen.isLt.le hkey hopen hans hlen w)
  rcases crypt_cases s h with ⟨-, e⟩ | ⟨-, -, e⟩ | ⟨-, -, -, e⟩ | ⟨hr, -⟩ | ⟨hr, -⟩
  · rw [e]; simp
  · rw [e]; simp
  · rw [e]; simp
  · exact hruns hr
  · exact hruns hr

end Commands

/-- Settles O24: no command is refused or stuck, as each request is admitted and each transaction is answered. -/
theorem everyCommandCompletes : Obligations.EveryCommandCompletes := by
  unfold Obligations.EveryCommandCompletes
  intro i s hinv hh hadm hreg hans hlen
  have hopen : s.MemoryOpen := ⟨hadm, State.hitsRegFile_of_hidden hreg⟩
  have hpos : 0 < s.answers.length := by omega
  have hblocks : blocksNeeded s.regs.slen.toNat (s.slot i.ctx).kavail.toNat ≤ s.answers.length := by omega
  cases i with
  | allocate _ _ => exact completes_execAllocate
  | deallocate _ _ => exact completes_execDeallocate
  | contextInit h _ => exact completes_execContextInit hopen hans (hinv.slotOk_all hh h) hpos
  | setIv _ d => exact completes_execSetIv hopen hans d hpos
  | encrypt h _ => exact completes_crypt hopen hans hinv.mem_wf (hinv.slotOk_all hh h) hblocks
  | decrypt h _ => exact completes_crypt hopen hans hinv.mem_wf (hinv.slotOk_all hh h) hblocks
  | setAad _ _ => exact completes_complete s .ok

end Sys2Proof.Machine
end
